-- ==== Sys2Proof/Word.lean ====
section
/-! DEFINITION. The widths the block fixes for itself (R9): a character is one 16-bit UTF-16 code unit, a byte
8 bits, a nibble 4 bits, and every host-visible register or buffer slot one 32-bit word. -/

namespace Sys2Proof

/-- A host-visible word (R9). Every value is unsigned (R10). -/
abbrev Word := BitVec 32

/-- A byte of the stream (R9). -/
abbrev Byte := BitVec 8

/-- A character: one UTF-16 code unit (R9, R110). -/
abbrev CodeUnit := BitVec 16

/-- A nibble value 0..15 (R9, R15). -/
abbrev Nibble := BitVec 4

end Sys2Proof
end

