-- ==== Sys2Proof/Syntax.lean ====
section
/-! DEFINITION. The commands of the block, one constructor per row of the opcode map (R89). An operand has the width
of its format's immediate (R87, R88), so an instruction cannot hold an operand that its field does not. -/

namespace Sys2Proof

/-- One command of R89. -/
inductive Instr where
  | crcInit
  | crcByte (b : Byte)
  | crcBlock
  | vlqInit
  | vlqByte (b : Byte)
  | lutN2c (v : Nibble)
  | lutC2n (c : CodeUnit)
  | frameParse (off : BitVec 24)
  | scan
  | filter
  | xtrReset
  | xtrStep
  | xtrRun
  deriving DecidableEq, Repr

/-- The mnemonics of R89, as a command line names them (R95). -/
inductive Mnemonic where
  | crcInit
  | crcByte
  | crcBlock
  | vlqInit
  | vlqByte
  | lutN2c
  | lutC2n
  | frameParse
  | scan
  | filter
  | xtrReset
  | xtrStep
  | xtrRun
  deriving DecidableEq, Repr

/-- A command line of R95 as written: a mnemonic, and an operand literal where there is one. Unlike an `Instr` it can
be ill-formed; WellFormed.lean checks it. -/
structure CommandLine where
  mnemonic : Mnemonic
  operand : Option Nat
  deriving DecidableEq, Repr

/-- The mnemonic of a command. -/
def Instr.mnemonic : Instr → Mnemonic
  | .crcInit => .crcInit
  | .crcByte _ => .crcByte
  | .crcBlock => .crcBlock
  | .vlqInit => .vlqInit
  | .vlqByte _ => .vlqByte
  | .lutN2c _ => .lutN2c
  | .lutC2n _ => .lutC2n
  | .frameParse _ => .frameParse
  | .scan => .scan
  | .filter => .filter
  | .xtrReset => .xtrReset
  | .xtrStep => .xtrStep
  | .xtrRun => .xtrRun

end Sys2Proof
end

