-- ==== Sys2Proof/WellFormed.lean ====
section
/-! DEFINITION. Which command lines stand for a command (R95): "An assembler refuses a literal that does not fit its
field". An `Instr` is well-formed by its type, whose operands have the widths of R87, so the checks are on the line. -/

namespace Sys2Proof

/-- Why a command line stands for no command. -/
inductive LineError where
  /-- The format takes an operand and the line gives none. -/
  | operandMissing
  /-- The format is N or M1, whose mnemonic takes no operand, and the line gives one. -/
  | operandUnexpected
  /-- The literal does not fit the format's immediate of this many bits. -/
  | operandTooWide (bits : Nat)
  deriving DecidableEq, Repr

/-- A line whose format has no immediate (formats N and M1). -/
def CommandLine.plain (operand : Option Nat) (i : Instr) : Except LineError Instr :=
  match operand with
  | none => .ok i
  | some _ => .error .operandUnexpected

/-- A line whose format has an immediate of `bits` bits: the literal must fit it. -/
def CommandLine.immediate (bits : Nat) (operand : Option Nat) (build : BitVec bits → Instr) :
    Except LineError Instr :=
  match operand with
  | none => .error .operandMissing
  | some v => if v < 2 ^ bits then .ok (build (BitVec.ofNat bits v)) else .error (.operandTooWide bits)

/-- The command a line stands for, or the check it fails (R95). -/
def CommandLine.check (l : CommandLine) : Except LineError Instr :=
  match l.mnemonic with
  | .crcInit => plain l.operand .crcInit
  | .crcByte => immediate 8 l.operand .crcByte
  | .crcBlock => plain l.operand .crcBlock
  | .vlqInit => plain l.operand .vlqInit
  | .vlqByte => immediate 8 l.operand .vlqByte
  | .lutN2c => immediate 4 l.operand .lutN2c
  | .lutC2n => immediate 16 l.operand .lutC2n
  | .frameParse => immediate 24 l.operand .frameParse
  | .scan => plain l.operand .scan
  | .filter => plain l.operand .filter
  | .xtrReset => plain l.operand .xtrReset
  | .xtrStep => plain l.operand .xtrStep
  | .xtrRun => plain l.operand .xtrRun

/-- A command line is well-formed when it stands for a command. -/
def CommandLine.wellFormed (l : CommandLine) : Bool :=
  match l.check with
  | .ok _ => true
  | .error _ => false

end Sys2Proof
end

