-- ==== Sys2Proof/Decode.lean ====
section
/-! DEFINITION. Reading a command from its word and writing it back (R85 to R91). Total on every word; a word that is
no command is rejected by name. -/

namespace Sys2Proof

/-- Why a word is no command. Both raise ERR_ILLEGAL when the word is issued (R93). -/
inductive DecodeError where
  /-- OPC is not in the opcode map (R90). -/
  | reservedOpcode (opc : BitVec 8)
  /-- OPC is in the opcode map and a bit its format marks 0 is 1 (R91). -/
  | reservedOperandBits (opc : BitVec 8)
  deriving DecidableEq, Repr

/-- OPC, bits 31:24 (R86). -/
def opcodeField (w : Word) : BitVec 8 := w.extractLsb' 24 8

/-- OPERAND, bits 23:0 (R86); also the immediate of format O24 (R87). -/
def operandField (w : Word) : BitVec 24 := w.extractLsb' 0 24

/-- Bits 23:4 reserved, bits 3:0 the immediate (format I4, R87). -/
def operandI4 (w : Word) : Option Nibble :=
  if w.extractLsb' 4 20 = 0#20 then some (w.extractLsb' 0 4) else none

/-- Bits 23:8 reserved, bits 7:0 the immediate (format I8, R87). -/
def operandI8 (w : Word) : Option Byte :=
  if w.extractLsb' 8 16 = 0#16 then some (w.extractLsb' 0 8) else none

/-- Bits 23:16 reserved, bits 15:0 the immediate (format I16, R87). -/
def operandI16 (w : Word) : Option CodeUnit :=
  if w.extractLsb' 16 8 = 0#8 then some (w.extractLsb' 0 16) else none

/-- Bits 23:1 reserved, bit 0 the mode F (format M1, R87). -/
def operandM1 (w : Word) : Option (BitVec 1) :=
  if w.extractLsb' 1 23 = 0#23 then some (w.extractLsb' 0 1) else none

/-- A command of format N: every operand bit is reserved (R87, R91). -/
def formatN (w : Word) (i : Instr) : Except DecodeError Instr :=
  if operandField w = 0#24 then .ok i else .error (.reservedOperandBits (opcodeField w))

/-- A command whose operand field has been read, or is refused for a reserved operand bit (R91). -/
def formatOperand {α : Type} (w : Word) (operand : Option α) (build : α → Instr) : Except DecodeError Instr :=
  match operand with
  | some v => .ok (build v)
  | none => .error (.reservedOperandBits (opcodeField w))

/-- The command a word encodes (R89), or why it encodes none (R90, R91). -/
def decode (w : Word) : Except DecodeError Instr :=
  let opc := opcodeField w
  if opc = 0x01#8 then formatN w .crcInit
  else if opc = 0x02#8 then formatOperand w (operandI8 w) .crcByte
  else if opc = 0x03#8 then formatN w .crcBlock
  else if opc = 0x10#8 then formatN w .vlqInit
  else if opc = 0x11#8 then formatOperand w (operandI8 w) .vlqByte
  else if opc = 0x20#8 then formatOperand w (operandI4 w) .lutN2c
  else if opc = 0x21#8 then formatOperand w (operandI16 w) .lutC2n
  else if opc = 0x30#8 then .ok (.frameParse (operandField w))
  else if opc = 0x40#8 then formatOperand w (operandM1 w) (fun f => if f = 1#1 then .filter else .scan)
  else if opc = 0x50#8 then formatN w .xtrReset
  else if opc = 0x51#8 then formatN w .xtrStep
  else if opc = 0x52#8 then formatN w .xtrRun
  else .error (.reservedOpcode opc)

/-- The word of a command: `(OPC << 24) | operand`, with F = 1 for FILTER (R86, R87, R95). -/
def encode : Instr → Word
  | .crcInit => 0x01#8 ++ 0#24
  | .crcByte b => 0x02#8 ++ (0#16 ++ b)
  | .crcBlock => 0x03#8 ++ 0#24
  | .vlqInit => 0x10#8 ++ 0#24
  | .vlqByte b => 0x11#8 ++ (0#16 ++ b)
  | .lutN2c v => 0x20#8 ++ (0#20 ++ v)
  | .lutC2n c => 0x21#8 ++ (0#8 ++ c)
  | .frameParse off => 0x30#8 ++ off
  | .scan => 0x40#8 ++ (0#23 ++ 0#1)
  | .filter => 0x40#8 ++ (0#23 ++ 1#1)
  | .xtrReset => 0x50#8 ++ 0#24
  | .xtrStep => 0x51#8 ++ 0#24
  | .xtrRun => 0x52#8 ++ 0#24

/-- One row of the opcode map of R89: the bits `mask` selects must read `pattern`. -/
structure OpcodeRow where
  mnemonic : Mnemonic
  pattern : Word
  mask : Word
  deriving DecidableEq, Repr

/-- The opcode map as R89 prints it: the match and mask columns of its 13 rows. `decode` reads the fields of R86 and
R87 instead; that the two agree is stated, not assumed. -/
def opcodeMap : List OpcodeRow :=
  [ ⟨.crcInit, 0x01000000#32, 0xFFFFFFFF#32⟩,
    ⟨.crcByte, 0x02000000#32, 0xFFFFFF00#32⟩,
    ⟨.crcBlock, 0x03000000#32, 0xFFFFFFFF#32⟩,
    ⟨.vlqInit, 0x10000000#32, 0xFFFFFFFF#32⟩,
    ⟨.vlqByte, 0x11000000#32, 0xFFFFFF00#32⟩,
    ⟨.lutN2c, 0x20000000#32, 0xFFFFFFF0#32⟩,
    ⟨.lutC2n, 0x21000000#32, 0xFFFF0000#32⟩,
    ⟨.frameParse, 0x30000000#32, 0xFF000000#32⟩,
    ⟨.scan, 0x40000000#32, 0xFFFFFFFF#32⟩,
    ⟨.filter, 0x40000001#32, 0xFFFFFFFF#32⟩,
    ⟨.xtrReset, 0x50000000#32, 0xFFFFFFFF#32⟩,
    ⟨.xtrStep, 0x51000000#32, 0xFFFFFFFF#32⟩,
    ⟨.xtrRun, 0x52000000#32, 0xFFFFFFFF#32⟩ ]

/-- A word encodes a row when `(w & mask) == match` (R89). -/
def OpcodeRow.encodes (r : OpcodeRow) (w : Word) : Bool := w &&& r.mask == r.pattern

/-- The host's question: the command read from `nbits` bits that are `w`, every bit above them 0. A command is one
32-bit word (R85), so it is given to `decode` whole. -/
def decodeTableWord (nbits w : Nat) : Option Instr :=
  match decode (BitVec.ofNat 32 (w % 2 ^ nbits)) with
  | .ok i => some i
  | .error _ => none

end Sys2Proof
end

