-- ==== Sys2Proof/Config.lean ====
section
/-! DEFINITION. What an implementation of the block fixes (R6) and the values the spec leaves open (R52, R83). -/

namespace Sys2Proof

/-- The five buffers of the block (R46 to R50), one bus window each (R61). -/
inductive BufId where
  | carrier
  | cover
  | stream
  | runlen
  | result
  deriving DecidableEq, Repr

/-- The parameters the block takes (R6): the alphabet table, entry v being the code unit of nibble v, and two
capacities. BLOCK_BASE (R60) is left out: no rule depends on it (log entry 11). -/
structure Params where
  alphabet : Vector CodeUnit 16
  maxCarrier : Nat
  maxResults : Nat
  deriving DecidableEq, Repr, Inhabited

/-- The constraints of R6: the alphabet is injective and holds no UTF-16 surrogate (0xD800 to 0xDFFF), and the
capacities lie in their ranges. A Bool, so that a configuration can be checked by evaluation. -/
def Params.legal (p : Params) : Bool :=
  decide p.alphabet.toList.Nodup
    && p.alphabet.toList.all (fun c => !(Nat.ble 0xD800 c.toNat && Nat.ble c.toNat 0xDFFF))
    && Nat.ble 16 p.maxCarrier && Nat.ble p.maxCarrier 262144
    && Nat.ble 1 p.maxResults && Nat.ble p.maxResults 32768

/-- Some legal configuration: legal ones exist. Only `Config.params` uses it. -/
def Params.witness : Params where
  alphabet := #v[0, 1, 2, 3, 4, 5, 6, 7, 8, 9, 10, 11, 12, 13, 14, 15]
  maxCarrier := 16
  maxResults := 1

theorem Params.witness_legal : Params.witness.legal = true := by decide +kernel

/-- The open parameters before the constraints of R6: nothing is known of them. -/
opaque Config.anyParams : Params

/-- DESIGN CHOICE (log entry 1), safe: the open parameters of R6, of which only legality is known. Every legal
configuration is a value `Config.anyParams` may have, and then it is this one. -/
def Config.params : Params := if Config.anyParams.legal then Config.anyParams else Params.witness

theorem Config.params_legal : Config.params.legal = true := by
  unfold Config.params
  split
  · assumption
  · exact Params.witness_legal

/-- DESIGN CHOICE (log entry 2), safe: the word a buffer element holds before anything has written it, "any value, as
a draw the model does not fix" (R52, R83): the number of the reset, the buffer, and the word's index in its window. -/
opaque Config.bufferDraw : Nat → BufId → Nat → Word

end Sys2Proof
end

