-- ==== Sys2Proof/Machine/State.lean ====
section
/-! DEFINITION. The state of the block as plain data (R20 to R52), the reasons a step can stop, and the state after
reset (R52). -/

namespace Sys2Proof.Machine

/-- The three states of the extractor's state machine (R40). XSTATE value 3 is never held (R25). -/
inductive XState where
  | start
  | loop
  | done
  deriving DecidableEq, Repr

/-- The fields of STATUS that are stored (R25). BUSY is `State.busy`; the reserved bits read 0. -/
structure Status where
  done : Bool
  errIllegal : Bool
  errBusy : Bool
  errOvf : Bool
  errBus : Bool
  xstate : XState
  deriving DecidableEq, Repr

/-- The fields of VLQ_STAT (R31). -/
structure VlqStat where
  count : BitVec 8
  done : Bool
  ovf : Bool
  extra : Bool
  deriving DecidableEq, Repr

/-- The fields of LUT_OUT (R32). -/
structure LutOut where
  value : CodeUnit
  valid : Bool
  deriving DecidableEq, Repr

/-- A record: 8 consecutive words (R41). `info` has the fields of R42, `computed` is the word CALC, `dataType` the word
TYPE. -/
structure Record where
  info : Word
  stored : Word
  computed : Word
  dataType : Word
  length : Word
  dataStart : Word
  dataEnd : Word
  vlqCount : Word
  deriving DecidableEq, Repr

/-- The contents of a buffer: the elements written since reset, each with its index, indices strictly rising. An
index with no entry holds no value of the model's: it reads as the free value of R52 and R83 (log entry 2). -/
abbrev Buf (α : Type) := List (Nat × α)

/-- The five buffers (R46 to R50), and the number of resets so far, which selects the draw that unwritten elements
read as. `epoch` is the model's own field (log entries 2 and 3). -/
structure Memory where
  carrier : Buf CodeUnit
  cover : Buf CodeUnit
  stream : Buf Byte
  runlen : Buf Word
  result : Buf Record
  epoch : Nat
  deriving DecidableEq, Repr

/-- The direction of a host access (R60). -/
inductive Dir where
  | read
  | write
  deriving DecidableEq, Repr

/-- A host access (R60): direction, byte offset from the block base, width in bytes, and the word of a write. -/
structure Access where
  dir : Dir
  off : Word
  size : Nat
  data : Word
  deriving DecidableEq, Repr

/-- What can happen next at the block: a host access (R60), the engine's turn (R75), or the reset event (R240). -/
inductive Event where
  | access (a : Access)
  | engine
  | rst
  deriving DecidableEq, Repr

/-- The error bits a rule can raise (R214 to R218). -/
inductive Err where
  | illegal
  | busy
  | ovf
  | bus
  deriving DecidableEq, Repr

/-- The 26 host-visible registers (R23). -/
inductive Reg where
  | cmd
  | status
  | crcState
  | crcResult
  | crcStart
  | crcLen
  | vlqAcc
  | vlqStat
  | lutOut
  | carrierLen
  | streamLen
  | coverLen
  | runCount
  | resultCount
  | xtrHead
  | xtrRunHead
  | frInfo
  | frStored
  | frCalc
  | frType
  | frLength
  | frDataStart
  | frDataEnd
  | frVlqCount
  | capCarrier
  | capResults
  deriving DecidableEq, Repr

/-- The whole machine. `params` are the parameters of R6, which no step changes; `pend` is PEND, and BUSY = 1 exactly
when it holds a command (R22). `inputs` and `replies` are the model's own fields (log entries 3, 4 and 17): what the
host and RST do next with the engine's turns among it, and the words read so far, newest first. -/
structure State where
  params : Params
  pend : Option Word
  status : Status
  crcState : Word
  crcStart : Word
  crcLen : Word
  vlqAcc : Word
  vlqStat : VlqStat
  lutOut : LutOut
  carrierLen : Word
  streamLen : Word
  coverLen : Word
  runCount : Word
  resultCount : Word
  xtrHead : Word
  xtrRunHead : Word
  fr : Record
  mem : Memory
  inputs : List Event
  replies : List Word
  deriving DecidableEq, Repr

/-- Why the machine stops with a fault. The spec has no trap and no fatal error (R214, R228). -/
inductive Fault where
  /-- Raised by `step` alone, at an engine turn when PEND holds a word that is no command. R93 lets only commands into
  PEND, so no run from reset raises it. Safe: the model stops where the spec gives no behaviour (log entry 6). -/
  | pendNotACommand (w : Word)
  deriving DecidableEq, Repr

/-- Why the machine refuses an instruction. -/
inductive Refusal where
  /-- An instruction that has no meaning yet; raised by `exec` alone. Safe: the model stops. No command raises it. -/
  | notModelled (mnemonic : String)
  deriving DecidableEq, Repr

/-- The answer of a step or of an instruction. -/
abbrev Answer := Host.Outcome State Fault Refusal

/-- A record whose 8 words are 0. -/
def Record.zero : Record := ⟨0#32, 0#32, 0#32, 0#32, 0#32, 0#32, 0#32, 0#32⟩

/-- The buffers after the reset numbered `epoch`: nothing written since (R52). -/
def Memory.unwritten (epoch : Nat) : Memory := ⟨[], [], [], [], [], epoch⟩

/-- The block after the reset numbered `epoch` (R52, R240), with the parameters, which reset does not change (R45),
and with what lies outside the block: the inputs still to come and the words already read. -/
def State.afterReset (params : Params) (epoch : Nat) (inputs : List Event) (replies : List Word) : State where
  params := params
  pend := none
  status := ⟨false, false, false, false, false, .start⟩
  crcState := 0xFFFFFFFF#32
  crcStart := 0#32
  crcLen := 0#32
  vlqAcc := 0#32
  vlqStat := ⟨0#8, false, false, false⟩
  lutOut := ⟨0#16, false⟩
  carrierLen := 0#32
  streamLen := 0#32
  coverLen := 0#32
  runCount := 0#32
  resultCount := 0#32
  xtrHead := 0#32
  xtrRunHead := 0#32
  fr := Record.zero
  mem := Memory.unwritten epoch
  inputs := inputs
  replies := replies

/-- The machine right after reset (R52). The parameters are the open ones (log entry 1); the model's own fields start
as log entry 3 says, with no host access waiting. -/
def State.reset : State := State.afterReset Config.params 0 [] []

end Sys2Proof.Machine
end

