-- ==== Sys2Proof/Machine/Ops.lean ====
section
/-! DEFINITION. The named operations over the buffers and the registers, which every meaning is written over: reading
and writing buffer elements (R13, R84), raising an error (R214), completing a command (R75), restarting the extractor
(R179, R186). -/

namespace Sys2Proof.Machine

/-! ### One buffer -/

/-- The element written at index `i`, if one has been written since reset. -/
def Buf.at? {α : Type} : Buf α → Nat → Option α
  | [], _ => none
  | (j, v) :: rest, i => if i = j then some v else Buf.at? rest i

/-- The elements `xs` at the indices from `start` on. -/
def Buf.entries {α : Type} : Nat → List α → Buf α
  | _, [] => []
  | start, x :: xs => (start, x) :: Buf.entries (start + 1) xs

/-- The buffer with `xs` stored at the indices `start`, `start + 1`, …; every other element stays. -/
def Buf.write {α : Type} (b : Buf α) (start : Nat) (xs : List α) : Buf α :=
  b.filter (fun e => Nat.blt e.1 start) ++ Buf.entries start xs
    ++ b.filter (fun e => Nat.ble (start + xs.length) e.1)

/-- The canonical form of a buffer: indices strictly rising. -/
abbrev Buf.wf {α : Type} (b : Buf α) : Prop := (b.map Prod.fst).Pairwise (· < ·)

/-- Every listed index lies below the buffer's capacity. -/
abbrev Buf.below {α : Type} (b : Buf α) (capacity : Nat) : Prop := ∀ e ∈ b, e.1 < capacity

/-! ### The five buffers -/

/-- The canonical form of the memory. An index that is not listed holds no value of the model's, so no entry can equal
what it reads as: strictly rising indices are the whole form (log entry 2). -/
abbrev Memory.wf (m : Memory) : Prop :=
  m.carrier.wf ∧ m.cover.wf ∧ m.stream.wf ∧ m.runlen.wf ∧ m.result.wf

/-- BufRead(CARRIER, i) (R13, R46); the low bits of the draw where nothing has been written (R83). -/
def Memory.carrierAt (m : Memory) (i : Nat) : CodeUnit :=
  (m.carrier.at? i).getD ((Config.bufferDraw m.epoch .carrier i).setWidth 16)

/-- BufRead(COVER, i) (R13, R47). -/
def Memory.coverAt (m : Memory) (i : Nat) : CodeUnit :=
  (m.cover.at? i).getD ((Config.bufferDraw m.epoch .cover i).setWidth 16)

/-- BufRead(STREAM, i) (R13, R48). -/
def Memory.streamAt (m : Memory) (i : Nat) : Byte :=
  (m.stream.at? i).getD ((Config.bufferDraw m.epoch .stream i).setWidth 8)

/-- BufRead(RUNLEN, i) (R13, R49). -/
def Memory.runlenAt (m : Memory) (i : Nat) : Word :=
  (m.runlen.at? i).getD (Config.bufferDraw m.epoch .runlen i)

/-- The unwritten record `r` of RESULT: its words are the words 8r to 8r + 7 of the window (R61). No word of it is
constrained, the reserved bits of R42 included (log entry 10). -/
def Record.drawn (epoch r : Nat) : Record where
  info := Config.bufferDraw epoch .result (8 * r)
  stored := Config.bufferDraw epoch .result (8 * r + 1)
  computed := Config.bufferDraw epoch .result (8 * r + 2)
  dataType := Config.bufferDraw epoch .result (8 * r + 3)
  length := Config.bufferDraw epoch .result (8 * r + 4)
  dataStart := Config.bufferDraw epoch .result (8 * r + 5)
  dataEnd := Config.bufferDraw epoch .result (8 * r + 6)
  vlqCount := Config.bufferDraw epoch .result (8 * r + 7)

/-- The record RESULT[r] (R50). -/
def Memory.resultAt (m : Memory) (r : Nat) : Record := (m.result.at? r).getD (Record.drawn m.epoch r)

/-- Word `k` of a record, in the order of R41. -/
def Record.word (rec : Record) : Nat → Word
  | 0 => rec.info
  | 1 => rec.stored
  | 2 => rec.computed
  | 3 => rec.dataType
  | 4 => rec.length
  | 5 => rec.dataStart
  | 6 => rec.dataEnd
  | _ => rec.vlqCount

/-- The word at word index `i` of a buffer's window as the host reads it: an element zero-extended (R64), for RESULT
word i mod 8 of record i / 8 (R63). This is the model's read of one word of memory. -/
def Memory.word (m : Memory) (b : BufId) (i : Nat) : Word :=
  match b with
  | .carrier => (m.carrierAt i).setWidth 32
  | .cover => (m.coverAt i).setWidth 32
  | .stream => (m.streamAt i).setWidth 32
  | .runlen => m.runlenAt i
  | .result => (m.resultAt (i / 8)).word (i % 8)

/-- CARRIER[start..] <- xs. -/
def State.writeCarrier (s : State) (start : Nat) (xs : List CodeUnit) : State :=
  { s with mem := { s.mem with carrier := s.mem.carrier.write start xs } }

/-- COVER[start..] <- xs. -/
def State.writeCover (s : State) (start : Nat) (xs : List CodeUnit) : State :=
  { s with mem := { s.mem with cover := s.mem.cover.write start xs } }

/-- STREAM[start..] <- xs. -/
def State.writeStream (s : State) (start : Nat) (xs : List Byte) : State :=
  { s with mem := { s.mem with stream := s.mem.stream.write start xs } }

/-- RUNLEN[start..] <- xs. -/
def State.writeRunlen (s : State) (start : Nat) (xs : List Word) : State :=
  { s with mem := { s.mem with runlen := s.mem.runlen.write start xs } }

/-- RESULT[start..] <- xs. -/
def State.writeResult (s : State) (start : Nat) (xs : List Record) : State :=
  { s with mem := { s.mem with result := s.mem.result.write start xs } }

/-! ### Capacities (R7, R61) -/

/-- MAX_STREAM = floor(MAX_CARRIER / 2) (R7). -/
def maxStream (p : Params) : Nat := p.maxCarrier / 2

/-- MAX_RUNS = floor(MAX_CARRIER / 16) (R7). -/
def maxRuns (p : Params) : Nat := p.maxCarrier / 16

/-- How many words of a buffer's window exist (R61, R63). -/
def windowWords (p : Params) : BufId → Nat
  | .carrier => p.maxCarrier
  | .cover => p.maxCarrier
  | .stream => maxStream p
  | .runlen => maxRuns p
  | .result => 8 * p.maxResults

/-! ### Status: errors and completion -/

/-- BUSY = 1 exactly when PEND holds a command (R22). -/
def State.busy (s : State) : Bool := s.pend.isSome

/-- `raise E`: the sticky STATUS bit of E becomes 1, and nothing else happens: no trap, no saved state, no change of
mode or flow (R214, R228). -/
def State.raise (s : State) (e : Err) : State :=
  match e with
  | .illegal => { s with status := { s.status with errIllegal := true } }
  | .busy => { s with status := { s.status with errBusy := true } }
  | .ovf => { s with status := { s.status with errOvf := true } }
  | .bus => { s with status := { s.status with errBus := true } }

/-- A host write of `v` to STATUS (R26): each W1C field whose bit in `v` is 1 becomes 0; the RO fields stay. It is how
the host acknowledges an error: there is no trap return (R229). -/
def State.clearStatus (s : State) (v : Word) : State :=
  { s with status :=
    { s.status with
      done := s.status.done && !v.getLsbD 1
      errIllegal := s.status.errIllegal && !v.getLsbD 2
      errBusy := s.status.errBusy && !v.getLsbD 3
      errOvf := s.status.errOvf && !v.getLsbD 4
      errBus := s.status.errBus && !v.getLsbD 5 } }

/-- DONE <- 1. -/
def State.setDone (s : State) : State := { s with status := { s.status with done := true } }

/-- The end of every command (R75): DONE <- 1, PEND emptied, BUSY <- 0. -/
def State.complete (s : State) : State := { s.setDone with pend := none }

/-- STATUS.XSTATE <- x. -/
def State.setXState (s : State) (x : XState) : State := { s with status := { s.status with xstate := x } }

/-! ### The extractor's registers -/

/-- XTR_HEAD, XTR_RUN_HEAD and RESULT_COUNT <- 0, XSTATE <- START (R179, R186). -/
def State.restartExtractor (s : State) : State :=
  { s.setXState .start with xtrHead := 0#32, xtrRunHead := 0#32, resultCount := 0#32 }

/-- XTR_HEAD <- i. Every value the block writes fits the register (R195; log entry 12). -/
def State.setHead (s : State) (i : Nat) : State := { s with xtrHead := BitVec.ofNat 32 i }

/-- The reset event (R240, R241): every register at its reset value, every buffer unspecified, a pending command
abandoned. The parameters stay (R45). -/
def State.applyReset (s : State) : State :=
  State.afterReset s.params (s.mem.epoch + 1) s.inputs s.replies

end Sys2Proof.Machine
end

