-- ==== Sys2Proof/Machine/Flags.lean ====
section
/-! DEFINITION. The words that hold flags, put together from their fields (STATUS R25, VLQ_STAT R31, LUT_OUT R32,
record INFO R42), and the fields read back from a record. -/

namespace Sys2Proof.Machine

/-- XSTATE as bits 9:8 of STATUS hold it (R25, R40). -/
def XState.code : XState → BitVec 2
  | .start => 0#2
  | .loop => 1#2
  | .done => 2#2

/-- STATUS as the host reads it (R25): reserved 31:10, XSTATE 9:8, reserved 7:6, then ERR_BUS, ERR_OVF, ERR_BUSY,
ERR_ILLEGAL, DONE, BUSY. -/
def State.statusWord (s : State) : Word :=
  0#22 ++ s.status.xstate.code ++ 0#2
    ++ BitVec.ofBool s.status.errBus ++ BitVec.ofBool s.status.errOvf ++ BitVec.ofBool s.status.errBusy
    ++ BitVec.ofBool s.status.errIllegal ++ BitVec.ofBool s.status.done ++ BitVec.ofBool s.busy

/-- VLQ_STAT as the host reads it (R31): reserved 31:11, EXTRA, OVF, DONE, COUNT 7:0. -/
def VlqStat.word (v : VlqStat) : Word :=
  0#21 ++ BitVec.ofBool v.extra ++ BitVec.ofBool v.ovf ++ BitVec.ofBool v.done ++ v.count

/-- LUT_OUT as the host reads it (R32): reserved 31:17, VALID, VALUE 15:0. -/
def LutOut.word (l : LutOut) : Word := 0#15 ++ BitVec.ofBool l.valid ++ l.value

/-- KIND of a record (R42): value 3 is never written. -/
inductive Kind where
  | frame
  | protocolMismatch
  | noMessage
  deriving DecidableEq, Repr

/-- KIND as bits 1:0 of INFO hold it (R42). -/
def Kind.code : Kind → BitVec 2
  | .frame => 0#2
  | .protocolMismatch => 1#2
  | .noMessage => 2#2

/-- Record word INFO from its fields (R42, R161): reserved 31:5, LEN_OVF, TRUNC, CHECKSUM_VALID, KIND 1:0. -/
def infoWord (kind : Kind) (checksumValid trunc lenOvf : Bool) : Word :=
  0#27 ++ BitVec.ofBool lenOvf ++ BitVec.ofBool trunc ++ BitVec.ofBool checksumValid ++ kind.code

/-- Whether a record's KIND is `k` (R42). -/
def Record.isKind (rec : Record) (k : Kind) : Bool := rec.info.extractLsb' 0 2 == k.code

/-- CHECKSUM_VALID of a record (R42). -/
def Record.checksumValid (rec : Record) : Bool := rec.info.getLsbD 2

/-- TRUNC of a record (R42). -/
def Record.trunc (rec : Record) : Bool := rec.info.getLsbD 3

/-- LEN_OVF of a record (R42). -/
def Record.lenOvf (rec : Record) : Bool := rec.info.getLsbD 4

/-- The reserved bits of a record are 0 and its KIND is one of the three (R41 TYPE 31:8, R42 INFO 31:5). -/
def Record.wellFormed (rec : Record) : Bool :=
  rec.info.extractLsb' 5 27 == 0#27 && rec.info.extractLsb' 0 2 != 3#2 && rec.dataType.extractLsb' 8 24 == 0#24

end Sys2Proof.Machine
end

