-- ==== Sys2Proof/Machine/Operands.lean ====
section
/-! DEFINITION. What an offset or an operand names: the register at an offset (R23, R62), the buffer word at an offset
(R61, R63), the STREAM range of CRC.BLOCK (R29), the carrier a scan reads (R46), the front entry of the run queue
(R16, R185). -/

namespace Sys2Proof.Machine

/-! ### Host offsets -/

/-- The byte offset of a register (R23). -/
def Reg.offset : Reg → Word
  | .cmd => 0x000#32
  | .status => 0x004#32
  | .crcState => 0x008#32
  | .crcResult => 0x00C#32
  | .crcStart => 0x010#32
  | .crcLen => 0x014#32
  | .vlqAcc => 0x018#32
  | .vlqStat => 0x01C#32
  | .lutOut => 0x020#32
  | .carrierLen => 0x024#32
  | .streamLen => 0x028#32
  | .coverLen => 0x02C#32
  | .runCount => 0x030#32
  | .resultCount => 0x034#32
  | .xtrHead => 0x038#32
  | .xtrRunHead => 0x03C#32
  | .frInfo => 0x040#32
  | .frStored => 0x044#32
  | .frCalc => 0x048#32
  | .frType => 0x04C#32
  | .frLength => 0x050#32
  | .frDataStart => 0x054#32
  | .frDataEnd => 0x058#32
  | .frVlqCount => 0x05C#32
  | .capCarrier => 0x060#32
  | .capResults => 0x064#32

/-- Every register, in the order of R23. -/
def allRegs : List Reg :=
  [.cmd, .status, .crcState, .crcResult, .crcStart, .crcLen, .vlqAcc, .vlqStat, .lutOut, .carrierLen, .streamLen,
    .coverLen, .runCount, .resultCount, .xtrHead, .xtrRunHead, .frInfo, .frStored, .frCalc, .frType, .frLength,
    .frDataStart, .frDataEnd, .frVlqCount, .capCarrier, .capResults]

/-- The register at an offset, if one is mapped there (R62). -/
def regAt (off : Word) : Option Reg := allRegs.find? (fun r => r.offset == off)

/-- The first offset of a buffer's window (R61). -/
def windowBase : BufId → Nat
  | .carrier => 0x100000
  | .cover => 0x200000
  | .stream => 0x300000
  | .runlen => 0x400000
  | .result => 0x500000

/-- What a host offset reaches. -/
inductive Target where
  /-- A register of R23. -/
  | reg (r : Reg)
  /-- The existing word `i` of a buffer's window (R63); for RESULT, word i mod 8 of record i / 8. -/
  | elem (b : BufId) (i : Nat)
  /-- A window offset beyond the buffer's capacity (R65). -/
  | beyond
  /-- An offset that maps to nothing (R66). -/
  | unmapped
  deriving DecidableEq, Repr

/-- The word of a buffer's window at byte offset `off` (R63). -/
def windowTarget (p : Params) (b : BufId) (off : Nat) : Target :=
  let i := (off - windowBase b) / 4
  if i < windowWords p b then .elem b i else .beyond

/-- The block address map (R61 to R63). -/
def decodeOffset (p : Params) (off : Word) : Target :=
  let a := off.toNat
  if a < 0x100000 then
    match regAt off with
    | some r => .reg r
    | none => .unmapped
  else if a < 0x200000 then windowTarget p .carrier a
  else if a < 0x300000 then windowTarget p .cover a
  else if a < 0x400000 then windowTarget p .stream a
  else if a < 0x500000 then windowTarget p .runlen a
  else if a < 0x600000 then windowTarget p .result a
  else .unmapped

/-- The offset of word `i` of a buffer's window (R61, R96). -/
def wordOffset (b : BufId) (i : Nat) : Word := BitVec.ofNat 32 (windowBase b + 4 * i)

/-! ### The operands the commands take from registers and buffers -/

/-- CARRIER[0..CARRIER_LEN) (R33, R46). -/
def State.carrierUnits (s : State) : List CodeUnit := (List.range s.carrierLen.toNat).map s.mem.carrierAt

/-- `S[from..from+count)` of a byte sequence given by its elements (R12). -/
def byteRange (bytes : Nat → Byte) (start count : Nat) : List Byte :=
  (List.range count).map (fun j => bytes (start + j))

/-- STREAM[CRC_START..CRC_START+CRC_LEN), the operand of CRC.BLOCK (R29, R137). -/
def State.crcRange (s : State) : List Byte := byteRange s.mem.streamAt s.crcStart.toNat s.crcLen.toNat

/-- The front entry RUNLEN[XTR_RUN_HEAD], when the run queue is non-empty (R16, R185). -/
def State.frontEntry (s : State) : Option Nat :=
  if s.xtrRunHead.toNat < s.runCount.toNat then some (s.mem.runlenAt s.xtrRunHead.toNat).toNat else none

end Sys2Proof.Machine
end

