-- ==== Sys2Proof/Machine/Bus.lean ====
section
/-! DEFINITION. The host bus: what a read returns and a write does (R60 to R69, R76), issuing a command (R93), and the
order of the checks (R226). -/

namespace Sys2Proof.Machine

/-- What a host read of a register returns (R23 to R44). No read has a side effect (R69). -/
def State.readReg (s : State) : Reg → Word
  | .cmd => 0#32
  | .status => s.statusWord
  | .crcState => s.crcState
  | .crcResult => ~~~ s.crcState
  | .crcStart => s.crcStart
  | .crcLen => s.crcLen
  | .vlqAcc => s.vlqAcc
  | .vlqStat => s.vlqStat.word
  | .lutOut => s.lutOut.word
  | .carrierLen => s.carrierLen
  | .streamLen => s.streamLen
  | .coverLen => s.coverLen
  | .runCount => s.runCount
  | .resultCount => s.resultCount
  | .xtrHead => s.xtrHead
  | .xtrRunHead => s.xtrRunHead
  | .frInfo => s.fr.info
  | .frStored => s.fr.stored
  | .frCalc => s.fr.computed
  | .frType => s.fr.dataType
  | .frLength => s.fr.length
  | .frDataStart => s.fr.dataStart
  | .frDataEnd => s.fr.dataEnd
  | .frVlqCount => s.fr.vlqCount
  | .capCarrier => BitVec.ofNat 32 s.params.maxCarrier
  | .capResults => BitVec.ofNat 32 s.params.maxResults

/-- Issue of the word `w` while BUSY = 0 (R93): a command goes to PEND, and BUSY becomes 1; any other word raises
ERR_ILLEGAL and completes as a no-op with DONE. -/
def State.issue (s : State) (w : Word) : State :=
  match decode w with
  | .ok _ => { s with pend := some w }
  | .error _ => (s.raise .illegal).setDone

/-- A host write of `v` to a register; `none` is a rights violation (R23, R68). The length registers take only values
within their ranges (R33, R34, R36). -/
def State.writeReg (s : State) (r : Reg) (v : Word) : Option State :=
  match r with
  | .cmd => some (s.issue v)
  | .status => some (s.clearStatus v)
  | .crcState => some { s with crcState := v }
  | .crcStart => some { s with crcStart := v }
  | .crcLen => some { s with crcLen := v }
  | .carrierLen => if v.toNat ≤ s.params.maxCarrier then some { s with carrierLen := v } else none
  | .streamLen => if v.toNat ≤ maxStream s.params then some { s with streamLen := v } else none
  | .runCount => if v.toNat ≤ maxRuns s.params then some { s with runCount := v } else none
  | .crcResult => none
  | .vlqAcc => none
  | .vlqStat => none
  | .lutOut => none
  | .coverLen => none
  | .resultCount => none
  | .xtrHead => none
  | .xtrRunHead => none
  | .frInfo => none
  | .frStored => none
  | .frCalc => none
  | .frType => none
  | .frLength => none
  | .frDataStart => none
  | .frDataEnd => none
  | .frVlqCount => none
  | .capCarrier => none
  | .capResults => none

/-- A host write of `v` to an existing buffer word, narrow elements keeping their low bits (R64); `none` for the
read-only buffers (R63, R68). -/
def State.writeElem (s : State) (b : BufId) (i : Nat) (v : Word) : Option State :=
  match b with
  | .carrier => some (s.writeCarrier i [v.setWidth 16])
  | .stream => some (s.writeStream i [v.setWidth 8])
  | .runlen => some (s.writeRunlen i [v])
  | .cover => none
  | .result => none

/-- What a read of a target returns; `none` for an unmapped offset or one beyond capacity (R65, R66). -/
def State.readTarget (s : State) : Target → Option Word
  | .reg r => some (s.readReg r)
  | .elem b i => some (s.mem.word b i)
  | .beyond => none
  | .unmapped => none

/-- What a write to a target does; `none` where it is a rights violation, unmapped or beyond capacity. -/
def State.writeTarget (s : State) (t : Target) (v : Word) : Option State :=
  match t with
  | .reg r => s.writeReg r v
  | .elem b i => s.writeElem b i v
  | .beyond => none
  | .unmapped => none

/-- The word a read returns to the host, recorded among the replies (log entry 17). -/
def State.reply (s : State) (v : Word) : State := { s with replies := v :: s.replies }

/-- An access with size 4 and off[1:0] = 0, the only legal one (R60, R67). -/
def Access.aligned (a : Access) : Bool := a.size == 4 && a.off.extractLsb' 0 2 == 0#2

/-- The end of a read: the value, or for a bad read ERR_BUS and the value 0 (R65 to R67). -/
def State.answerRead (s : State) : Option Word → State
  | some v => s.reply v
  | none => (s.raise .bus).reply 0#32

/-- A host read (R65 to R69, R76): the current value, BUSY or not; a bad read raises ERR_BUS and returns 0. -/
def State.hostRead (s : State) (a : Access) : State :=
  if a.aligned then s.answerRead (s.readTarget (decodeOffset s.params a.off)) else s.answerRead none

/-- A host write, its checks in the order of R226: width and alignment, then BUSY (but for STATUS, R26, R76), then
decode, capacity and rights; a CMD write is checked last, at issue. -/
def State.hostWrite (s : State) (a : Access) : State :=
  if a.aligned then
    if s.busy && a.off != Reg.status.offset then s.raise .busy
    else (s.writeTarget (decodeOffset s.params a.off) a.data).getD (s.raise .bus)
  else s.raise .bus

/-- One host access (R60). -/
def State.hostAccess (s : State) (a : Access) : State :=
  match a.dir with
  | .read => s.hostRead a
  | .write => s.hostWrite a

/-- What the engine fetches: the command PEND holds (R22, R80), `none` when BUSY = 0. -/
def State.fetch (s : State) : Option (Except DecodeError Instr) := s.pend.map decode

/-- The state in which the engine's next turn comes first and performs the word `w`: PEND holds it. -/
def State.withPending (s : State) (w : Word) : State := { s with pend := some w, inputs := .engine :: s.inputs }

end Sys2Proof.Machine
end

