-- ==== Sys2Proof/Machine/Crc.lean ====
section
/-! DEFINITION. The CRC-32 table-driven generator: the table (R130), the update (R132), crc32 (R133), and CRC.INIT,
CRC.BYTE, CRC.BLOCK (R135 to R137). -/

namespace Sys2Proof.Machine

/-- One round of the table's generation: shift right, and XOR the reflected polynomial when bit 0 is 1 (R130). -/
def crcRound (c : Word) : Word := if c.getLsbD 0 then 0xEDB88320#32 ^^^ (c >>> 1) else c >>> 1

/-- `n` rounds of `crcRound`. -/
def crcRounds : Nat → Word → Word
  | 0, c => c
  | n + 1, c => crcRounds n (crcRound c)

/-- CRC_TABLE[n] (R130, R131). R130 lets the table be computed by its loop instead of stored (log entry 13). -/
def crcTable (n : Byte) : Word := crcRounds 8 (n.setWidth 32)

/-- `CrcStep(r, b) = CRC_TABLE[(r ^ zext_32(b))[7:0]] ^ (r >> 8)` (R132). -/
def crcStep (r : Word) (b : Byte) : Word := crcTable ((r ^^^ b.setWidth 32).extractLsb' 0 8) ^^^ (r >>> 8)

/-- The register after the bytes `bs` (R133, R137). -/
def crcFeed (r : Word) (bs : List Byte) : Word := bs.foldl crcStep r

/-- `crc32(bs)` (R133). -/
def crc32 (bs : List Byte) : Word := ~~~ crcFeed 0xFFFFFFFF#32 bs

/-- CRC.INIT (R135). -/
def execCrcInit (s : State) : Answer := .next { s with crcState := 0xFFFFFFFF#32 }.complete

/-- CRC.BYTE (R136). -/
def execCrcByte (b : Byte) (s : State) : Answer := .next { s with crcState := crcStep s.crcState b }.complete

/-- CRC.BLOCK (R137): the range is checked with exact arithmetic; a bad range raises ERR_ILLEGAL and changes nothing
else (R215). -/
def execCrcBlock (s : State) : Answer :=
  .next (if s.streamLen.toNat < s.crcStart.toNat + s.crcLen.toNat then s.raise .illegal
    else { s with crcState := crcFeed s.crcState s.crcRange }).complete

end Sys2Proof.Machine
end

