-- ==== Sys2Proof/Machine/Vlq.lean ====
section
/-! DEFINITION. The VLQ length decoder: decodeLength32 (R116), VlqScan (R120) and VLQ.INIT, VLQ.BYTE (R117, R118). -/

namespace Sys2Proof.Machine

/-- One accumulation: `(acc << 7) | zext_32(b[6:0])`, the shift truncating to 32 bits (R116, R118). -/
def vlqShift (acc : Word) (b : Byte) : Word := (acc <<< 7) ||| (b.extractLsb' 0 7).setWidth 32

/-- Whether the next accumulation shifts a 1 bit out of the 32 (R116): acc[31:25] is not 0. -/
def vlqLoses (acc : Word) : Bool := acc.extractLsb' 25 7 != 0#7

/-- The terminator of a VLQ field: bit 7 is clear (R115). -/
def vlqTerminates (b : Byte) : Bool := !b.getLsbD 7

/-- `decodeLength32` (R116) from an accumulator and an overflow bit. -/
def decodeLengthFrom : Word → Bool → List Byte → Word × Bool
  | acc, ovf, [] => (acc, ovf)
  | acc, ovf, b :: bs => decodeLengthFrom (vlqShift acc b) (ovf || vlqLoses acc) bs

/-- `decodeLength32(bs)`: the value and the overflow bit (R116). -/
def decodeLength32 (bs : List Byte) : Word × Bool := decodeLengthFrom 0#32 false bs

/-- `VlqScan(S, s, e)` (R120), given the `e - s` bytes left: how many are examined, and whether the last of them is a
terminator. -/
def vlqScan (bytes : Nat → Byte) (s : Nat) : Nat → Nat × Bool
  | 0 => (0, false)
  | left + 1 =>
    if vlqTerminates (bytes s) then (1, true)
    else
      let r := vlqScan bytes (s + 1) left
      (r.1 + 1, r.2)

/-- VLQ_STAT after one VLQ.BYTE `b`, from VLQ_STAT and VLQ_ACC before it (R118). -/
def VlqStat.feed (v : VlqStat) (acc : Word) (b : Byte) : VlqStat where
  extra := v.extra || v.done
  ovf := v.ovf || vlqLoses acc
  count := BitVec.ofNat 8 (min (v.count.toNat + 1) 255)
  done := vlqTerminates b

/-- VLQ.INIT (R117). -/
def execVlqInit (s : State) : Answer :=
  .next { s with vlqAcc := 0#32, vlqStat := ⟨0#8, false, false, false⟩ }.complete

/-- VLQ.BYTE (R118). -/
def execVlqByte (b : Byte) (s : State) : Answer :=
  .next { s with vlqAcc := vlqShift s.vlqAcc b, vlqStat := s.vlqStat.feed s.vlqAcc b }.complete

end Sys2Proof.Machine
end

