-- ==== Sys2Proof/Machine/Frame.lean ====
section
/-! DEFINITION. The binary frame parser: ParseFrame (R152 to R161), shared by the extractor, and FRAME.PARSE (R162). -/

namespace Sys2Proof.Machine

/-- `rd(j)`: the byte at relative offset `j` of the `n` available from `o`, 0 past the end (R154). -/
def frameByte (bytes : Nat → Byte) (o n j : Nat) : Byte := if j < n then bytes (o + j) else 0x00#8

/-- TRUNC as the reads of steps 3 and 4 leave it: one of the relative offsets 2..6 is past the end (R154 to R156). -/
def headerCut (n : Nat) : Bool := [2, 3, 4, 5, 6].any (fun j => Nat.ble n j)

/-- Step 3, the stored checksum, big-endian (R155, R71). -/
def storedChecksum (bytes : Nat → Byte) (o n : Nat) : Word :=
  (frameByte bytes o n 2).setWidth 32 <<< 24 ||| (frameByte bytes o n 3).setWidth 32 <<< 16
    ||| (frameByte bytes o n 4).setWidth 32 <<< 8 ||| (frameByte bytes o n 5).setWidth 32

/-- Step 5, the length field: how many bytes from `o + 7` it has, and whether it is terminated (R157). -/
def lengthField (bytes : Nat → Byte) (o n : Nat) : Nat × Bool := vlqScan bytes (o + 7) (n - 7)

/-- Step 6, `(LENGTH, LEN_OVF)` (R158). -/
def frameLength (bytes : Nat → Byte) (o n : Nat) : Word × Bool :=
  decodeLength32 (byteRange bytes (o + 7) (lengthField bytes o n).1)

/-- Step 6, `ds = 7 + VLQ_COUNT`, relative (R158). -/
def payloadStart (bytes : Nat → Byte) (o n : Nat) : Nat := 7 + (lengthField bytes o n).1

/-- Step 6, `de = ds + LENGTH`, relative and exact (R158). -/
def payloadEnd (bytes : Nat → Byte) (o n : Nat) : Nat := payloadStart bytes o n + (frameLength bytes o n).1.toNat

/-- TRUNC at the end of step 6: the header, the length field or the payload passes the last byte (R154, R157, R158). -/
def frameTrunc (bytes : Nat → Byte) (o n : Nat) : Bool :=
  headerCut n || !(lengthField bytes o n).2 || Nat.blt n (payloadEnd bytes o n)

/-- Step 7, the payload, both ends clamped to the available bytes (R159). -/
def framePayload (bytes : Nat → Byte) (o n : Nat) : List Byte :=
  byteRange bytes (o + min (payloadStart bytes o n) n)
    (min (payloadEnd bytes o n) n - min (payloadStart bytes o n) n)

/-- Step 8, CHECKSUM_VALID (R160): a truncated or overflowed frame is never valid. -/
def frameValid (bytes : Nat → Byte) (o n : Nat) : Bool :=
  !frameTrunc bytes o n && !(frameLength bytes o n).2 && crc32 (framePayload bytes o n) == storedChecksum bytes o n

/-- Step 9, the record of a decode attempt (R161). -/
def frameRecord (bytes : Nat → Byte) (o n : Nat) : Record where
  info := infoWord .frame (frameValid bytes o n) (frameTrunc bytes o n) (frameLength bytes o n).2
  stored := storedChecksum bytes o n
  computed := crc32 (framePayload bytes o n)
  dataType := (frameByte bytes o n 6).setWidth 32
  length := (frameLength bytes o n).1
  dataStart := BitVec.ofNat 32 (o + payloadStart bytes o n)
  dataEnd := BitVec.ofNat 32 (o + payloadEnd bytes o n)
  vlqCount := BitVec.ofNat 32 (lengthField bytes o n).1

/-- The record with KIND = `k` and every other field and word 0 (R152, R153, R188). -/
def bareRecord (k : Kind) : Record := { Record.zero with info := infoWord k false false false }

/-- Step 2: the bytes from `o` begin with 44 00 (R153). -/
def signatureAt (bytes : Nat → Byte) (o n : Nat) : Bool :=
  Nat.ble 2 n && bytes o == 0x44#8 && bytes (o + 1) == 0x00#8

/-- `ParseFrame(S, o, L)` (R152): empty, then signature, then the decode attempt (R225). -/
def parseFrame (bytes : Nat → Byte) (o len : Nat) : Record :=
  if len ≤ o then bareRecord .noMessage
  else if signatureAt bytes o (len - o) then frameRecord bytes o (len - o)
  else bareRecord .protocolMismatch

/-- `c = 7 + VLQ_COUNT + LENGTH`, the consumed length of a valid frame (R163, R193). -/
def Record.consumed (rec : Record) : Nat := 7 + rec.vlqCount.toNat + rec.length.toNat

/-- FRAME.PARSE (R162): the FR_ registers <- ParseFrame(STREAM, off24, STREAM_LEN). -/
def execFrameParse (off : BitVec 24) (s : State) : Answer :=
  .next { s with fr := parseFrame s.mem.streamAt off.toNat s.streamLen.toNat }.complete

end Sys2Proof.Machine
end

