-- ==== Sys2Proof/Machine/Extractor.lean ====
section
/-! DEFINITION. The message extractor: the run queue (R190), emission (R192), one iteration of the loop (R187 to R196)
and XTR.RESET, XTR.STEP, XTR.RUN (R186, R187, R197). -/

namespace Sys2Proof.Machine

/-- The RESULT buffer is full: RESULT_COUNT = MAX_RESULTS (R187, R192). -/
def State.resultsFull (s : State) : Bool := s.resultCount.toNat == s.params.maxResults

/-- `emit(rec)`: RESULT[RESULT_COUNT] <- rec, then RESULT_COUNT incremented (R192). -/
def State.emit (s : State) (rec : Record) : State :=
  { s.writeResult s.resultCount.toNat [rec] with resultCount := s.resultCount + 1#32 }

/-- `Drop(rem)`: the front entry clamped to the remaining bytes, or all of them when no run is recorded (R190). -/
def State.dropCount (s : State) (rem : Nat) : Nat :=
  match s.frontEntry with
  | some entry => min entry rem
  | none => rem

/-- `PopRun()`: the front entry, if any, is discarded (R190). -/
def State.popRun (s : State) : State :=
  if s.xtrRunHead.toNat < s.runCount.toNat then { s with xtrRunHead := s.xtrRunHead + 1#32 } else s

/-- The accounting of a valid frame of `c` bytes (R193): a longer front entry is decremented by `c`, else discarded. -/
def State.accountFrame (s : State) (c : Nat) : State :=
  match s.frontEntry with
  | some entry =>
    if c < entry then s.writeRunlen s.xtrRunHead.toNat [BitVec.ofNat 32 (entry - c)] else s.popRun
  | none => s.popRun

/-- A full RESULT buffer stops the extraction: ERR_OVF, XSTATE <- DONE, nothing else (R192, R217). -/
def State.stopFull (s : State) : State := (s.raise .ovf).setXState .done

/-- The empty stream at START: the NO_MESSAGE record, XSTATE <- DONE (R188). -/
def State.noMessage (s : State) : State :=
  if s.resultsFull then s.stopFull else (s.emit (bareRecord .noMessage)).setXState .done

/-- Protocol mismatch (R196): the record names the dropped range; the bytes and the front entry are dropped. -/
def State.peelMismatch (s : State) (h rem : Nat) (rec : Record) : State :=
  let d := s.dropCount rem
  ((s.emit { rec with dataStart := BitVec.ofNat 32 h, dataEnd := BitVec.ofNat 32 (h + d) }).popRun).setHead (h + d)

/-- A valid frame (R193): the record, the accounting, the head past the frame. -/
def State.peelValid (s : State) (h : Nat) (rec : Record) : State :=
  ((s.emit rec).accountFrame rec.consumed).setHead (h + rec.consumed)

/-- Checksum mismatch (R191): the record, then the front run's bytes and entry are dropped. -/
def State.peelInvalid (s : State) (h rem : Nat) (rec : Record) : State :=
  ((s.emit rec).popRun).setHead (h + s.dropCount rem)

/-- One frame peeled from the front of the stream (R187), when bytes remain and RESULT has room. -/
def State.peel (s : State) : State :=
  let h := s.xtrHead.toNat
  let rem := s.streamLen.toNat - h
  let parsed := parseFrame s.mem.streamAt h s.streamLen.toNat
  if parsed.isKind .protocolMismatch then s.peelMismatch h rem parsed
  else if parsed.checksumValid then s.peelValid h parsed
  else s.peelInvalid h rem parsed

/-- XSTATE after an iteration: DONE when no byte remains (R195). -/
def State.closeIteration (s : State) : State :=
  if s.streamLen.toNat ≤ s.xtrHead.toNat then s.setXState .done else s

/-- The body of XTR.STEP (R187): one iteration of the loop. -/
def State.xtrIterate (s : State) : State :=
  if s.status.xstate = .done then s
  else if s.status.xstate = .start ∧ s.streamLen = 0#32 then s.noMessage
  else if s.streamLen.toNat ≤ s.xtrHead.toNat then s.setXState .done
  else if s.resultsFull then s.stopFull
  else ((s.setXState .loop).peel).closeIteration

/-- The measure of R198: bytes left plus run entries left. -/
def State.xtrMeasure (s : State) : Nat :=
  (s.streamLen.toNat - s.xtrHead.toNat) + (s.runCount.toNat - s.xtrRunHead.toNat)

/-- Repeat the body until XSTATE = DONE (R197), at most `fuel` times. -/
def xtrLoop : Nat → State → State
  | 0, s => s
  | fuel + 1, s =>
    let t := s.xtrIterate
    if t.status.xstate = .done then t else xtrLoop fuel t

/-- The loop of XTR.RUN. Every iteration that does not end in DONE decreases the measure, so one more than the measure
is enough (R198; log entry 14). -/
def State.xtrRunAll (s : State) : State := xtrLoop (s.xtrMeasure + 1) s

/-- XTR.RESET (R186). -/
def execXtrReset (s : State) : Answer := .next s.restartExtractor.complete

/-- XTR.STEP (R187). -/
def execXtrStep (s : State) : Answer := .next s.xtrIterate.complete

/-- XTR.RUN (R197). -/
def execXtrRun (s : State) : Answer := .next s.xtrRunAll.complete

end Sys2Proof.Machine
end

