-- ==== Sys2Proof/Machine/Lut.lean ====
section
/-! DEFINITION. The nibble alphabet lookup: charFor, nibbleFor (R105, R106) and LUT.N2C, LUT.C2N (R107, R108). -/

namespace Sys2Proof.Machine

/-- `charFor(v) = ALPHABET[v]` (R106). -/
def charFor (p : Params) (v : Nibble) : CodeUnit := p.alphabet[v.toNat]'(v.isLt)

/-- The nibble values 0..15. -/
def nibbles : List Nibble := [0#4, 1#4, 2#4, 3#4, 4#4, 5#4, 6#4, 7#4, 8#4, 9#4, 10#4, 11#4, 12#4, 13#4, 14#4, 15#4]

/-- `nibbleFor(c)`: the v with ALPHABET[v] = c, or none (R106). -/
def nibbleFor (p : Params) (c : CodeUnit) : Option Nibble := nibbles.find? (fun v => charFor p v == c)

/-- `IsAlpha(c)` (R106). -/
def isAlpha (p : Params) (c : CodeUnit) : Bool := (nibbleFor p c).isSome

/-- The LUT_OUT of a lookup that found the nibble `n`, or none (R108). -/
def lutOfNibble (n : Option Nibble) : LutOut :=
  match n with
  | some v => ⟨v.setWidth 16, true⟩
  | none => ⟨0#16, false⟩

/-- LUT.N2C (R107): VALUE <- ALPHABET[imm4], VALID <- 1. -/
def execLutN2c (v : Nibble) (s : State) : Answer :=
  .next { s with lutOut := ⟨charFor s.params v, true⟩ }.complete

/-- LUT.C2N (R108): VALUE <- the nibble and VALID <- 1, or both 0 for a unit outside the alphabet. -/
def execLutC2n (c : CodeUnit) (s : State) : Answer :=
  .next { s with lutOut := lutOfNibble (nibbleFor s.params c) }.complete

end Sys2Proof.Machine
end

