-- ==== Sys2Proof/Machine/Scanner.lean ====
section
/-! DEFINITION. The run scanner (R170 to R175) and SCAN, FILTER (R176, R178). -/

namespace Sys2Proof.Machine

/-- What a scan yields: the cover text, the stream, and the byte count of each retained run (R15, R17). -/
structure ScanOut where
  cover : List CodeUnit
  stream : List Byte
  runs : List Nat
  deriving DecidableEq, Repr

/-- The output of scanning one piece of the carrier followed by that of another. -/
def ScanOut.append (a b : ScanOut) : ScanOut := ⟨a.cover ++ b.cover, a.stream ++ b.stream, a.runs ++ b.runs⟩

/-- `nibble(c)` of a unit inside a run (R173), where `nibbleFor` always finds one (log entry 16). -/
def nibbleOf (p : Params) (c : CodeUnit) : Nibble := (nibbleFor p c).getD 0#4

/-- The bytes of a retained run's units: pairs, high nibble first (R173, R72); an odd last unit is dropped (R172). -/
def pairBytes (p : Params) : List CodeUnit → List Byte
  | hi :: lo :: rest =>
    ((nibbleOf p hi).setWidth 8 <<< 4 ||| (nibbleOf p lo).setWidth 8) :: pairBytes p rest
  | _ => []

/-- The output of one maximal run (R170): noise below 16 units goes to the cover text (R171); a longer run is decoded
and its byte count recorded (R172 to R174). -/
def runOut (p : Params) (run : List CodeUnit) : ScanOut :=
  if run.length < 16 then ⟨run, [], []⟩
  else ⟨[], pairBytes p run, [(run.length - run.length % 2) / 2]⟩

/-- The scan, left to right (R170), with the alphabet units of the run read so far. A unit outside the alphabet ends
the run and is cover text (R175). -/
def scanFrom (p : Params) (run : List CodeUnit) : List CodeUnit → ScanOut
  | [] => runOut p run
  | c :: rest =>
    if isAlpha p c then scanFrom p (run ++ [c]) rest
    else (runOut p run).append (ScanOut.append ⟨[c], [], []⟩ (scanFrom p [] rest))

/-- The scan of a carrier (R176). -/
def scanUnits (p : Params) (units : List CodeUnit) : ScanOut := scanFrom p [] units

/-- The output of scanning CARRIER[0..CARRIER_LEN) (R176). -/
def State.scanOut (s : State) : ScanOut := scanUnits s.params s.carrierUnits

/-- COVER[0..) and COVER_LEN as SCAN and FILTER both write them (R176, R178). -/
def State.putCover (s : State) (cover : List CodeUnit) : State :=
  { s.writeCover 0 cover with coverLen := BitVec.ofNat 32 cover.length }

/-- STREAM, STREAM_LEN, RUNLEN and RUN_COUNT as SCAN writes them (R176, F = 0). -/
def State.putStream (s : State) (stream : List Byte) (runs : List Nat) : State :=
  { (s.writeStream 0 stream).writeRunlen 0 (runs.map (BitVec.ofNat 32)) with
    streamLen := BitVec.ofNat 32 stream.length
    runCount := BitVec.ofNat 32 runs.length }

/-- SCAN (R176): cover text, stream and run lengths, and the extractor restarted (R179). -/
def execScan (s : State) : Answer :=
  .next ((s.putCover s.scanOut.cover).putStream s.scanOut.stream s.scanOut.runs).restartExtractor.complete

/-- FILTER (R178): the cover text only; STREAM_LEN and RUN_COUNT <- 0, and the extractor restarted (R179). -/
def execFilter (s : State) : Answer :=
  .next { s.putCover s.scanOut.cover with streamLen := 0#32, runCount := 0#32 }.restartExtractor.complete

end Sys2Proof.Machine
end

