-- ==== Sys2Proof/Machine/Dispatch.lean ====
section
/-! DEFINITION. Every command to its meaning (R89). -/

namespace Sys2Proof.Machine

def exec (i : Instr) (s : State) : Host.Outcome State Fault Refusal :=
  match i with
  | .crcInit => Sys2Proof.Machine.execCrcInit s
  | .crcByte b => Sys2Proof.Machine.execCrcByte b s
  | .crcBlock => Sys2Proof.Machine.execCrcBlock s
  | .vlqInit => Sys2Proof.Machine.execVlqInit s
  | .vlqByte b => Sys2Proof.Machine.execVlqByte b s
  | .lutN2c v => Sys2Proof.Machine.execLutN2c v s
  | .lutC2n c => Sys2Proof.Machine.execLutC2n c s
  | .frameParse off => Sys2Proof.Machine.execFrameParse off s
  | .scan => Sys2Proof.Machine.execScan s
  | .filter => Sys2Proof.Machine.execFilter s
  | .xtrReset => Sys2Proof.Machine.execXtrReset s
  | .xtrStep => Sys2Proof.Machine.execXtrStep s
  | .xtrRun => Sys2Proof.Machine.execXtrRun s

end Sys2Proof.Machine
end

