-- ==== Sys2Proof/Machine/Step.lean ====
section
/-! DEFINITION. One step of the block: the next input, or, with none left, the engine's turn (R74, R75; log entry 4). -/

namespace Sys2Proof.Machine

/-- The engine's turn (R75): it performs the command in PEND; with BUSY = 0 nothing happens. -/
def engineTurn (s : State) : Host.Outcome State Fault Refusal :=
  match s.fetch with
  | none => .next s
  | some (.ok i) => exec i s
  | some (.error _) => .fault (.pendNotACommand (s.pend.getD 0#32))

/-- One step: a host access, an engine turn or the reset event at the head of `inputs`; with no input left, the engine's
turn, so that a pending command is always performed (R250). -/
def step (s : State) : Host.Outcome State Fault Refusal :=
  match s.inputs with
  | [] => engineTurn s
  | .access a :: rest => .next ({ s with inputs := rest }.hostAccess a)
  | .engine :: rest => engineTurn { s with inputs := rest }
  | .rst :: rest => .next { s with inputs := rest }.applyReset

/-- `s` with the command of these bits in PEND and the engine's turn next: the step after the host has written the word
to CMD (R93). How a program comes to run from reset is log entry 5. -/
def State.withFetchWord (s : State) (nbits w : Nat) : State := s.withPending (BitVec.ofNat 32 (w % 2 ^ nbits))

end Sys2Proof.Machine
end

