-- ==== Sys2Proof/Machine/HostLines.lean ====
section
/-! DEFINITION. The host-level lines of R95 and R96: what each expands to, and a host that performs them against the
block. The host is the other agent (R18): no step of the block reads anything here. -/

namespace Sys2Proof.Machine

/-! ### Accesses -/

/-- MemWrite(off, 4, v) (R60). -/
def memWrite (off v : Word) : Event := .access ⟨.write, off, 4, v⟩

/-- MemRead(off, 4) (R60). -/
def memRead (off : Word) : Event := .access ⟨.read, off, 4, 0#32⟩

/-- WAIT (R96) when the engine's turn comes after `delay` reads of STATUS: those reads, the engine's turn, and the read
that returns BUSY = 0. -/
def waitEvents (delay : Nat) : List Event :=
  List.replicate delay (memRead Reg.status.offset) ++ [.engine, memRead Reg.status.offset]

/-- A command line (R95) as events, its WAIT under that delay: the CMD write of its encoding, and WAIT. -/
def commandEvents (delay : Nat) (i : Instr) : List Event :=
  memWrite Reg.cmd.offset (encode i) :: waitEvents delay

/-! ### Lines and what they expand to -/

/-- What a line expands to: bus accesses, and the host's loop WAIT (R96). -/
inductive HostAction where
  | write (off v : Word)
  | read (off : Word)
  | wait
  deriving DecidableEq, Repr

/-- A host-level line (R95, R96). REPEAT … UNTIL encloses lines and stands in `HostProgram`. -/
inductive HostLine where
  /-- A command line of R95: `WR CMD, <encoding>` and WAIT. -/
  | command (i : Instr)
  | wr (r : Reg) (v : Word)
  | rd (r : Reg)
  | wrBuf (b : BufId) (i : Nat) (v : Word)
  | rdBuf (b : BufId) (i : Nat)
  | wait
  /-- `WR CMD, w` with no WAIT. -/
  | issue (w : Word)
  | clr
  | crcBytes (bs : List Byte)
  /-- `CRC.STR "s"`: CRC.BYTES of the bytes of an ASCII string. -/
  | crcStr (text : List Char)
  | vlqBytes (bs : List Byte)
  | loadC (us : List CodeUnit)
  | loadS (bs : List Byte)
  | loadR (es : List Word)
  deriving DecidableEq, Repr

/-- A command line: the CMD write of its encoding, and WAIT (R95). -/
def commandActions (i : Instr) : List HostAction := [.write Reg.cmd.offset (encode i), .wait]

/-- The writes of `vs` to the words 0, 1, … of a buffer, then of their number to its length register (R96). -/
def loadActions (b : BufId) (lenReg : Reg) (vs : List Word) : List HostAction :=
  vs.zipIdx.map (fun e => .write (wordOffset b e.2) e.1) ++ [.write lenReg.offset (BitVec.ofNat 32 vs.length)]

/-- The expansion of a line (R95, R96). -/
def HostLine.actions : HostLine → List HostAction
  | .command i => commandActions i
  | .wr r v => [.write r.offset v]
  | .rd r => [.read r.offset]
  | .wrBuf b i v => [.write (wordOffset b i) v]
  | .rdBuf b i => [.read (wordOffset b i)]
  | .wait => [.wait]
  | .issue w => [.write Reg.cmd.offset w]
  | .clr => [.write Reg.status.offset 0x0000003E#32]
  | .crcBytes bs => bs.flatMap (fun b => commandActions (.crcByte b))
  | .crcStr text => text.flatMap (fun c => commandActions (.crcByte (BitVec.ofNat 8 c.toNat)))
  | .vlqBytes bs => bs.flatMap (fun b => commandActions (.vlqByte b))
  | .loadC us => loadActions .carrier .carrierLen (us.map (·.setWidth 32))
  | .loadS bs => loadActions .stream .streamLen (bs.map (·.setWidth 32))
  | .loadR es => loadActions .runlen .runCount es

/-- A host program: lines, and the one other loop of a host, REPEAT … UNTIL (R96), each followed by the rest. -/
inductive HostProgram where
  | done
  | line (l : HostLine) (rest : HostProgram)
  /-- `REPEAT`, the lines of `body`, `UNTIL (r & m) = v`, and what follows. -/
  | repeatUntil (body : HostProgram) (r : Reg) (m v : Word) (rest : HostProgram)
  deriving DecidableEq, Repr

/-- Lines one after another. -/
def HostProgram.ofLines (lines : List HostLine) : HostProgram := lines.foldr HostProgram.line .done

/-! ### A host that performs them -/

/-- The block with a host at it. `turns` is the schedule of R75, one entry for each access to come: whether the engine
steps before it. When the list is used up it always does, so a pending command is performed after finitely many
accesses (R250; log entry 20). -/
structure HostRun where
  block : State
  turns : List Bool
  deriving DecidableEq, Repr

/-- One event at the block; `none` when the block stops. -/
def HostRun.event (h : HostRun) (e : Event) : Option HostRun :=
  match step { h.block with inputs := e :: h.block.inputs } with
  | .next t => some { h with block := t }
  | .fault _ => none
  | .refused _ => none

/-- One access: the engine's turn first where the schedule says so, then the access (R75). -/
def HostRun.access (h : HostRun) (e : Event) : Option HostRun :=
  match h.turns with
  | [] => (h.event .engine).bind (·.event e)
  | true :: rest => ({ h with turns := rest }.event .engine).bind (·.event e)
  | false :: rest => { h with turns := rest }.event e

/-- The word the host's last read returned. -/
def HostRun.lastRead (h : HostRun) : Word := h.block.replies.headD 0#32

/-- At most `reads` reads of STATUS, up to the first that returns BUSY = 0. -/
def waitLoop : Nat → HostRun → Option HostRun
  | 0, _ => none
  | reads + 1, h =>
    match h.access (memRead Reg.status.offset) with
    | some u => if u.lastRead.getLsbD 0 then waitLoop reads u else some u
    | none => none

/-- WAIT: repeat `RD STATUS` until bit 0 reads 0 (R96). The engine steps at the latest before the first read past the
schedule, so one read more than the schedule has entries is enough. -/
def HostRun.wait (h : HostRun) : Option HostRun := waitLoop (h.turns.length + 1) h

/-- One action of a line. -/
def HostRun.action (h : HostRun) : HostAction → Option HostRun
  | .write off v => h.access (memWrite off v)
  | .read off => h.access (memRead off)
  | .wait => h.wait

/-- Actions one after another. -/
def HostRun.actions : List HostAction → HostRun → Option HostRun
  | [], h => some h
  | a :: rest, h => (h.action a).bind (HostRun.actions rest)

/-- One round of REPEAT: its lines, then `RD r` (R96). -/
def HostRun.round (body : HostRun → Option HostRun) (r : Reg) (h : HostRun) : Option HostRun :=
  (body h).bind (fun u => u.access (memRead r.offset))

/-- UNTIL (r & m) = v: the rounds go on while the value read, under the mask, differs from `v`; `none` when that takes
more than `rounds` of them. -/
def untilLoop (body : HostRun → Option HostRun) (r : Reg) (m v : Word) : Nat → HostRun → Option HostRun
  | 0, _ => none
  | rounds + 1, h =>
    match HostRun.round body r h with
    | some u => if u.lastRead &&& m = v then some u else untilLoop body r m v rounds u
    | none => none

/-- A host program performed to its end (R95, R96), no REPEAT of it going round more than `rounds` times; `none` when
one does, or when the block stops. A program that ends at all does so under some bound. -/
def HostProgram.perform (rounds : Nat) : HostProgram → HostRun → Option HostRun
  | .done, h => some h
  | .line l rest, h => (HostRun.actions l.actions h).bind (rest.perform rounds)
  | .repeatUntil body r m v rest, h =>
    (untilLoop (body.perform rounds) r m v rounds h).bind (rest.perform rounds)

/-- `n` rounds of REPEAT, whatever their reads return. -/
def HostRun.rounds (body : HostRun → Option HostRun) (r : Reg) : Nat → HostRun → Option HostRun
  | 0, h => some h
  | n + 1, h => (HostRun.round body r h).bind (HostRun.rounds body r n)

end Sys2Proof.Machine
end

