-- ==== Sys2Proof/Machine/RefEncoder.lean ====
section
/-! DEFINITION. The reference encoder (R205 to R207): functions for building stimuli whose decoding is known. No
command uses them, and the block has no encode command (R5). -/

namespace Sys2Proof.Machine

/-- The groups of `n` above the least significant one, most significant first, each with its continuation bit (R205);
`fuel` bounds their number. -/
def encodeGroups : Nat → Nat → List Byte
  | 0, _ => []
  | fuel + 1, n => if n = 0 then [] else encodeGroups fuel (n / 128) ++ [0x80#8 ||| BitVec.ofNat 8 (n % 128)]

/-- `encodeLength(n)` (R205): the minimal big-endian base-128 encoding, one zero byte for 0. -/
def encodeLength (n : Nat) : List Byte := encodeGroups (n.log2 + 1) (n / 128) ++ [BitVec.ofNat 8 (n % 128)]

/-- The "4-byte big-endian form" of a CRC value (R134). -/
def bigEndian (c : Word) : List Byte :=
  [c.extractLsb' 24 8, c.extractLsb' 16 8, c.extractLsb' 8 8, c.extractLsb' 0 8]

/-- `encodeFrameBytes(payload, flags)` (R206): no frame for an empty payload, and no salt. -/
def encodeFrameBytes (payload : List Byte) (flags : Byte) : List Byte :=
  match payload with
  | [] => []
  | _ :: _ => [0x44#8, 0x00#8] ++ bigEndian (crc32 payload) ++ [flags] ++ encodeLength payload.length ++ payload

/-- The two code units of a byte, high nibble first (R72, R207). -/
def byteChars (p : Params) (b : Byte) : List CodeUnit :=
  [charFor p (b.extractLsb' 4 4), charFor p (b.extractLsb' 0 4)]

/-- `encodeChars(bytes)` (R207). -/
def encodeChars (p : Params) (bytes : List Byte) : List CodeUnit := bytes.flatMap (byteChars p)

end Sys2Proof.Machine
end

