-- ==== Sys2Proof/Safety.lean ====
section
/-! DEFINITION. What the statements about the machine speak of: the invariant of every state a run can reach, and what
it means that a piece of the state stays as it was. -/

namespace Sys2Proof.Machine

/-- PEND holds nothing, or a word that is a command (R22, R93). -/
def State.pendLegal (s : State) : Bool :=
  match s.fetch with
  | some (.error _) => false
  | some (.ok _) => true
  | none => true

/-- The invariant: legal parameters (R6), memory in its canonical form with no element beyond its capacity (R84,
R177), lengths and heads within their ranges (R33 to R39), records with their reserved bits 0 and a KIND of R42, and a
PEND that holds only a command (R22, R93). -/
structure State.Inv (s : State) : Prop where
  paramsLegal : s.params.legal = true
  memWf : s.mem.wf
  carrierBelow : s.mem.carrier.below s.params.maxCarrier
  coverBelow : s.mem.cover.below s.params.maxCarrier
  streamBelow : s.mem.stream.below (maxStream s.params)
  runlenBelow : s.mem.runlen.below (maxRuns s.params)
  resultBelow : s.mem.result.below s.params.maxResults
  carrierLen : s.carrierLen.toNat ≤ s.params.maxCarrier
  coverLen : s.coverLen.toNat ≤ s.params.maxCarrier
  streamLen : s.streamLen.toNat ≤ maxStream s.params
  runCount : s.runCount.toNat ≤ maxRuns s.params
  resultCount : s.resultCount.toNat ≤ s.params.maxResults
  xtrHead : s.xtrHead.toNat ≤ maxStream s.params
  xtrRunHead : s.xtrRunHead.toNat ≤ maxRuns s.params
  recordsWf : ∀ e ∈ s.mem.result, e.2.wellFormed = true
  frWf : s.fr.wellFormed = true
  pendLegal : s.pendLegal = true

/-- The invariant the commands keep between host writes (R53): the heads stand within the stream and the run queue, and
RESULT_COUNT within its capacity. XSTATE is never 3 by its type. -/
abbrev State.headsInside (s : State) : Prop :=
  s.xtrHead.toNat ≤ s.streamLen.toNat ∧ s.xtrRunHead.toNat ≤ s.runCount.toNat
    ∧ s.resultCount.toNat ≤ s.params.maxResults

/-- Every word of memory outside `stored` reads after as before. -/
def MemorySameOutside (stored : BufId → Nat → Prop) (m m' : Memory) : Prop :=
  ∀ b i, ¬ stored b i → m'.word b i = m.word b i

/-- The registers of the lookup, VLQ and CRC units and the FR_ registers, with what the host writes for CRC.BLOCK:
everything the extractor never touches (R200). -/
abbrev UnitsSame (s t : State) : Prop :=
  t.crcState = s.crcState ∧ t.crcStart = s.crcStart ∧ t.crcLen = s.crcLen ∧ t.vlqAcc = s.vlqAcc
    ∧ t.vlqStat = s.vlqStat ∧ t.lutOut = s.lutOut ∧ t.fr = s.fr

/-- The parameters and the world outside the block: what no command touches. -/
abbrev OutsideSame (s t : State) : Prop := t.params = s.params ∧ t.inputs = s.inputs ∧ t.replies = s.replies

/-- The commands performed one after another, each as the engine performs it. -/
def execAll : List Instr → State → Answer
  | [], s => .next s
  | i :: rest, s =>
    match exec i s with
    | .next t => execAll rest t
    | .fault f => .fault f
    | .refused r => .refused r

/-- The error bits of STATUS stay. -/
abbrev ErrorsSame (s t : State) : Prop :=
  t.status.errIllegal = s.status.errIllegal ∧ t.status.errBusy = s.status.errBusy
    ∧ t.status.errOvf = s.status.errOvf ∧ t.status.errBus = s.status.errBus

/-- The lengths that the extractor reads and never writes (R34, R36), and those it does not read. -/
abbrev LengthsSame (s t : State) : Prop :=
  t.carrierLen = s.carrierLen ∧ t.streamLen = s.streamLen ∧ t.coverLen = s.coverLen ∧ t.runCount = s.runCount

/-- The command has completed: DONE = 1 and BUSY = 0 (R75). -/
abbrev Completed (t : State) : Prop := t.status.done = true ∧ t.pend = none

/-- What an XTR command leaves alone: the other units, the lengths, the parameters and the world outside (R200), every
error bit but ERR_OVF, and every word of memory outside `stored`. -/
abbrev ExtractorFrame (stored : BufId → Nat → Prop) (s t : State) : Prop :=
  UnitsSame s t ∧ LengthsSame s t ∧ OutsideSame s t ∧ t.status.errIllegal = s.status.errIllegal
    ∧ t.status.errBusy = s.status.errBusy ∧ t.status.errBus = s.status.errBus
    ∧ MemorySameOutside stored s.mem t.mem

/-- The extractor is about to peel a frame: not DONE, bytes remain, RESULT has room (R187). -/
abbrev State.readyToPeel (s : State) : Prop :=
  s.status.xstate ≠ .done ∧ s.xtrHead.toNat < s.streamLen.toNat ∧ s.resultCount.toNat ≠ s.params.maxResults

/-- What the next XTR.STEP parses (R187). -/
def State.nextParse (s : State) : Record := parseFrame s.mem.streamAt s.xtrHead.toNat s.streamLen.toNat

/-- The state of the machine after the events at the head of its inputs have been taken, one step each. -/
def runFor (n : Nat) (s : State) : Answer := Host.Core.run Sys2Proof.core n s

end Sys2Proof.Machine
end

