-- ==== Sys2Proof/Certificates/Slice0/Obligations.lean ====
section
/-! DEFINITION. The statements for the provers. Each docstring names the rule of spec/ it formalises. The events to come
stand in `inputs` (log entry 4) and the words that reads have returned in `replies` (log entry 17): that form is the
model's, what an event does is the rule's. -/

open Sys2Proof Sys2Proof.Machine

/-! ### Reset and the invariant -/

/-- R52: what every register reads after reset, and that PEND is empty. Every buffer element reads as the free value of
log entry 2, whatever it is. -/
def Obligations.ResetReadsTheListedValues : Prop :=
  State.reset.pend = none
    ∧ (∀ r : Reg, State.reset.readReg r =
        match r with
        | .crcState => 0xFFFFFFFF#32
        | .capCarrier => BitVec.ofNat 32 State.reset.params.maxCarrier
        | .capResults => BitVec.ofNat 32 State.reset.params.maxResults
        | _ => 0#32)
    ∧ ∀ i, State.reset.mem.word .runlen i = Config.bufferDraw State.reset.mem.epoch .runlen i
        ∧ State.reset.mem.word .carrier i
            = ((Config.bufferDraw State.reset.mem.epoch .carrier i).setWidth 16).setWidth 32
        ∧ State.reset.mem.word .cover i
            = ((Config.bufferDraw State.reset.mem.epoch .cover i).setWidth 16).setWidth 32
        ∧ State.reset.mem.word .stream i
            = ((Config.bufferDraw State.reset.mem.epoch .stream i).setWidth 8).setWidth 32
        ∧ State.reset.mem.word .result i = Config.bufferDraw State.reset.mem.epoch .result i

/-- R240, R241: the reset event, whatever the state and also with a command pending, leaves every register as after
reset and abandons the command. The model's choices: the buffers read as the free values of a new reset (log entry 2),
and the parameters, the inputs and the replies stay (log entry 9). -/
def Obligations.ResetEventRestoresEveryRegister : Prop :=
  ∀ (s : State) (rest : List Event), s.inputs = .rst :: rest →
    ∃ t, step s = .next t ∧ t.pend = none ∧ t.status = State.reset.status
      ∧ (∀ r : Reg, r ≠ .capCarrier → r ≠ .capResults → t.readReg r = State.reset.readReg r)
      ∧ t.mem = Memory.unwritten (s.mem.epoch + 1) ∧ t.params = s.params ∧ t.inputs = rest ∧ t.replies = s.replies

/-- The invariant `State.Inv` holds right after reset. -/
def Obligations.ResetSatisfiesInv : Prop := State.reset.Inv

/-- Every step, from any state that satisfies the invariant and under any schedule, keeps it: parameters legal, memory
canonical and within capacity (R84, R177), lengths and heads in range (R33 to R39), reserved record bits 0 (R42), and
PEND holding only commands (R22, R93). -/
def Obligations.StepKeepsInv : Prop :=
  ∀ s t : State, s.Inv → step s = .next t → t.Inv

/-- No run from a state that satisfies the invariant ever stops (R214, R228: nothing is fatal), and it ends in such a
state. -/
def Obligations.RunsNeverStop : Prop :=
  ∀ (n : Nat) (s : State), s.Inv → ∃ t, runFor n s = .next t ∧ t.Inv

/-- R45, R109: no command, host access or reset changes the alphabet or a capacity. -/
def Obligations.StepKeepsParams : Prop :=
  ∀ s t : State, step s = .next t → t.params = s.params

/-! ### The engine -/

/-- R75, R235: at the engine's turn the step runs the command that PEND decodes to, on the state whose inputs are those
that remain. The model's choice (log entry 4): the turn comes when it is the next input, or when no input is left, and
with BUSY = 0 it changes nothing. -/
def Obligations.EngineTurnRunsThePendingCommand : Prop :=
  ∀ s : State,
    (∀ (w : Word) (i : Instr), s.pend = some w → decode w = .ok i →
        (s.inputs = [] → step s = exec i s)
          ∧ ∀ rest, s.inputs = .engine :: rest → step s = exec i { s with inputs := rest })
      ∧ (s.pend = none →
        (s.inputs = [] → step s = .next s)
          ∧ ∀ rest, s.inputs = .engine :: rest → step s = .next { s with inputs := rest })

/-- R75: every command, from every state, completes: DONE = 1, PEND empty, BUSY = 0. Whatever the command, it changes
neither the parameters (R45) nor the carrier and CARRIER_LEN (R33, R46) nor CRC_START and CRC_LEN (R29), and it raises
neither ERR_BUSY nor ERR_BUS (R216, R218: host accesses alone do). -/
def Obligations.EveryCommandCompletes : Prop :=
  ∀ (i : Instr) (s : State), ∃ t, exec i s = .next t ∧ Completed t ∧ OutsideSame s t
    ∧ t.carrierLen = s.carrierLen ∧ (∀ k, t.mem.word .carrier k = s.mem.word .carrier k)
    ∧ t.crcStart = s.crcStart ∧ t.crcLen = s.crcLen
    ∧ t.status.errBusy = s.status.errBusy ∧ t.status.errBus = s.status.errBus

/-- R95, R96, R77: a command line from an idle block performs its command once, and the read that ends its WAIT returns
the STATUS it left, with BUSY = 0: as events, the engine's turn coming after `d` reads of STATUS that return BUSY = 1;
and performed by a host under any schedule `turns` (R75; that a schedule is given so is the model's choice, log entry
20), `d` being the accesses after the CMD write that the engine lets pass. A REPEAT performs its rounds, at least one,
up to the first whose read passes the test of UNTIL, and ends within a bound exactly when there is one within it. -/
def Obligations.HostLinesRunTheirCommands : Prop :=
  (∀ (s : State) (i : Instr) (d : Nat) (rest : List Event), s.pend = none → s.inputs = commandEvents d i ++ rest →
    ∃ waiting t : State,
      waiting = { s with
        pend := some (encode i)
        inputs := memRead 0x004#32 :: rest
        replies := List.replicate d waiting.statusWord ++ s.replies }
      ∧ waiting.statusWord.getLsbD 0 = true
      ∧ exec i waiting = .next t ∧ t.statusWord.getLsbD 0 = false
      ∧ runFor (d + 3) s = .next { t with inputs := rest, replies := t.statusWord :: t.replies })
  ∧ (∀ (s : State) (i : Instr) (turns : List Bool), s.pend = none →
    let d := ((turns.drop 1).takeWhile (fun turn => !turn)).length
    ∃ waiting t : State,
      waiting = { s with
        pend := some (encode i)
        replies := List.replicate d waiting.statusWord ++ s.replies }
      ∧ exec i waiting = .next t ∧ t.statusWord.getLsbD 0 = false
      ∧ HostRun.actions (HostLine.command i).actions ⟨s, turns⟩
        = some ⟨{ t with replies := t.statusWord :: t.replies }, turns.drop (d + 2)⟩)
  ∧ ∀ (bound : Nat) (body : HostProgram) (r : Reg) (m v : Word) (h u : HostRun),
    let rounds := fun n => HostRun.rounds (body.perform bound) r n h
    (HostProgram.repeatUntil body r m v .done).perform bound h = some u
      ↔ ∃ n, 1 ≤ n ∧ n ≤ bound ∧ rounds n = some u ∧ u.lastRead &&& m = v
        ∧ ∀ k w, 1 ≤ k → k < n → rounds k = some w → w.lastRead &&& m ≠ v

/-! ### Encoding -/

/-- Decoding the encoding of a command gives the command back, for every command and every operand. -/
def Obligations.DecodeEncodeRoundTrip : Prop := ∀ i : Instr, decode (encode i) = .ok i

/-- A word that decodes to a command is that command's encoding: no bit of a command word is ignored. -/
def Obligations.EncodeDecodeRoundTrip : Prop := ∀ (w : Word) (i : Instr), decode w = .ok i → encode i = w

/-- R89: a word encodes exactly the row whose match and mask columns select it, and no two rows overlap. -/
def Obligations.DecodeAgreesWithTheOpcodeMap : Prop :=
  ∀ w : Word,
    (∀ row ∈ opcodeMap, row.encodes w = true → ∃ i, decode w = .ok i ∧ i.mnemonic = row.mnemonic)
      ∧ (∀ i, decode w = .ok i → ∃ row ∈ opcodeMap, row.encodes w = true ∧ row.mnemonic = i.mnemonic)
      ∧ ∀ row ∈ opcodeMap, ∀ row' ∈ opcodeMap, row.encodes w = true → row'.encodes w = true → row = row'

/-- R90, R91: a word whose OPC is in none of the listed values, or with a 1 in a bit that the format of its OPC marks 0,
is no command, and its issue sets ERR_ILLEGAL and DONE and changes nothing else (R93, R215). Every other word is a
command. -/
def Obligations.ReservedWordsAreRejectedAtIssue : Prop :=
  ∀ w : Word,
    let reserved :=
      opcodeField w ∉ [0x01#8, 0x02#8, 0x03#8, 0x10#8, 0x11#8, 0x20#8, 0x21#8, 0x30#8, 0x40#8, 0x50#8, 0x51#8, 0x52#8]
        ∨ opcodeField w ∈ [0x01#8, 0x03#8, 0x10#8, 0x50#8, 0x51#8, 0x52#8] ∧ w.extractLsb' 0 24 ≠ 0#24
        ∨ opcodeField w ∈ [0x02#8, 0x11#8] ∧ w.extractLsb' 8 16 ≠ 0#16
        ∨ opcodeField w = 0x20#8 ∧ w.extractLsb' 4 20 ≠ 0#20
        ∨ opcodeField w = 0x21#8 ∧ w.extractLsb' 16 8 ≠ 0#8
        ∨ opcodeField w = 0x40#8 ∧ w.extractLsb' 1 23 ≠ 0#23
    (reserved → ∀ (s : State) (rest : List Event), s.pend = none → s.inputs = memWrite 0x000#32 w :: rest →
        step s = .next { s with inputs := rest, status := { s.status with errIllegal := true, done := true } })
      ∧ (¬ reserved → ∃ i, decode w = .ok i)

/-- The words the rules of the commands print as examples decode to them (R107, R108, R117, R118, R135 to R137, R162,
R176, R178, R186, R187, R197). -/
def Obligations.ExampleWordsDecode : Prop :=
  decode 0x2000000A#32 = .ok (.lutN2c 10#4) ∧ decode 0x21000041#32 = .ok (.lutC2n 0x0041#16)
    ∧ decode 0x10000000#32 = .ok .vlqInit ∧ decode 0x11000081#32 = .ok (.vlqByte 0x81#8)
    ∧ decode 0x01000000#32 = .ok .crcInit ∧ decode 0x02000031#32 = .ok (.crcByte 0x31#8)
    ∧ decode 0x03000000#32 = .ok .crcBlock ∧ decode 0x30000000#32 = .ok (.frameParse 0#24)
    ∧ decode 0x40000000#32 = .ok .scan ∧ decode 0x40000001#32 = .ok .filter
    ∧ decode 0x50000000#32 = .ok .xtrReset ∧ decode 0x51000000#32 = .ok .xtrStep
    ∧ decode 0x52000000#32 = .ok .xtrRun

/-! ### The host bus -/

/-- R93: the issue of a word. With BUSY = 0 a command goes to PEND and nothing else changes; a word that is no command
sets ERR_ILLEGAL and DONE and nothing else; with BUSY = 1 the write is dropped with ERR_BUSY (R24). -/
def Obligations.CmdWriteIssuesOrRejects : Prop :=
  ∀ (s : State) (w : Word) (rest : List Event), s.inputs = memWrite 0x000#32 w :: rest →
    (s.pend = none → ∀ i, decode w = .ok i → step s = .next { s with inputs := rest, pend := some w })
      ∧ (s.pend = none → ∀ e, decode w = .error e → step s =
          .next { s with inputs := rest, status := { s.status with errIllegal := true, done := true } })
      ∧ (s.pend ≠ none →
          step s = .next { s with inputs := rest, status := { s.status with errBusy := true } })

/-- R216: a legal-width host write to any offset other than STATUS while BUSY = 1 sets ERR_BUSY and is dropped
entirely. (A write of illegal width or alignment raises ERR_BUS instead: R226.) -/
def Obligations.BusyBlockDropsWrites : Prop :=
  ∀ (s : State) (off v : Word) (rest : List Event), s.inputs = memWrite off v :: rest →
    s.pend ≠ none → off.toNat % 4 = 0 → off ≠ 0x004#32 →
    step s = .next { s with inputs := rest, status := { s.status with errBusy := true } }

/-- R26: a write to STATUS clears exactly the W1C fields whose bit is 1, whether BUSY is 0 or 1, and changes nothing
else; a read of STATUS has no effect but its reply; and no other aligned write is accepted while BUSY = 1. -/
def Obligations.StatusWriteClearsTheSelectedBits : Prop :=
  ∀ (s : State) (v : Word) (rest : List Event),
    (s.inputs = memWrite 0x004#32 v :: rest → step s = .next { s with
        inputs := rest
        status := { s.status with
          done := if v.getLsbD 1 then false else s.status.done
          errIllegal := if v.getLsbD 2 then false else s.status.errIllegal
          errBusy := if v.getLsbD 3 then false else s.status.errBusy
          errOvf := if v.getLsbD 4 then false else s.status.errOvf
          errBus := if v.getLsbD 5 then false else s.status.errBus } })
      ∧ (s.inputs = memRead 0x004#32 :: rest →
        step s = .next { s with inputs := rest, replies := s.statusWord :: s.replies })
      ∧ ∀ off : Word, s.inputs = memWrite off v :: rest → s.pend ≠ none → off.toNat % 4 = 0 → off ≠ 0x004#32 →
        ∃ t, step s = .next t ∧ t = { s with inputs := rest, status := t.status }
          ∧ t.status = { s.status with errBusy := true }

/-- R25, R31, R32: the bits of STATUS, VLQ_STAT and LUT_OUT as the host reads them. -/
def Obligations.FlagWordsHaveTheListedFields : Prop :=
  ∀ s : State,
    ((s.readReg .status).getLsbD 0 = s.pend.isSome ∧ (s.readReg .status).getLsbD 1 = s.status.done
        ∧ (s.readReg .status).getLsbD 2 = s.status.errIllegal ∧ (s.readReg .status).getLsbD 3 = s.status.errBusy
        ∧ (s.readReg .status).getLsbD 4 = s.status.errOvf ∧ (s.readReg .status).getLsbD 5 = s.status.errBus
        ∧ (s.readReg .status).extractLsb' 6 2 = 0#2 ∧ (s.readReg .status).extractLsb' 10 22 = 0#22
        ∧ ((s.readReg .status).extractLsb' 8 2).toNat =
            (match s.status.xstate with
            | .start => 0
            | .loop => 1
            | .done => 2))
      ∧ ((s.readReg .vlqStat).extractLsb' 0 8 = s.vlqStat.count
        ∧ (s.readReg .vlqStat).getLsbD 8 = s.vlqStat.done ∧ (s.readReg .vlqStat).getLsbD 9 = s.vlqStat.ovf
        ∧ (s.readReg .vlqStat).getLsbD 10 = s.vlqStat.extra
        ∧ (s.readReg .vlqStat).extractLsb' 11 21 = 0#21)
      ∧ ((s.readReg .lutOut).extractLsb' 0 16 = s.lutOut.value
        ∧ (s.readReg .lutOut).getLsbD 16 = s.lutOut.valid ∧ (s.readReg .lutOut).extractLsb' 17 15 = 0#15)

/-- R67: an access of another width, or with off[1:0] not 0, sets ERR_BUS; a write changes nothing else, and a read
returns 0, BUSY or not. -/
def Obligations.IllegalWidthOrAlignmentIsRefused : Prop :=
  ∀ (s : State) (a : Access) (rest : List Event), s.inputs = .access a :: rest →
    (a.size ≠ 4 ∨ a.off.toNat % 4 ≠ 0) →
    (a.dir = .write → step s = .next { s with inputs := rest, status := { s.status with errBus := true } })
      ∧ (a.dir = .read → step s = .next { s with
          inputs := rest
          status := { s.status with errBus := true }
          replies := 0#32 :: s.replies })

/-- R62, R63, R65, R66: an access to an unmapped offset (past the last register and below 0x100000, or from 0x600000
on) or to a window word beyond the buffer's capacity (R61) sets ERR_BUS; a write (with BUSY = 0: R226) changes nothing
else, and a read returns 0. -/
def Obligations.OffsetsThatNameNothingAreRefused : Prop :=
  ∀ (s : State) (off v : Word) (rest : List Event), off.toNat % 4 = 0 →
    (0x068 ≤ off.toNat ∧ off.toNat < 0x100000
      ∨ 0x100000 + 4 * s.params.maxCarrier ≤ off.toNat ∧ off.toNat < 0x200000
      ∨ 0x200000 + 4 * s.params.maxCarrier ≤ off.toNat ∧ off.toNat < 0x300000
      ∨ 0x300000 + 4 * (s.params.maxCarrier / 2) ≤ off.toNat ∧ off.toNat < 0x400000
      ∨ 0x400000 + 4 * (s.params.maxCarrier / 16) ≤ off.toNat ∧ off.toNat < 0x500000
      ∨ 0x500000 + 32 * s.params.maxResults ≤ off.toNat ∧ off.toNat < 0x600000
      ∨ 0x600000 ≤ off.toNat) →
    (s.inputs = memWrite off v :: rest → s.pend = none →
        step s = .next { s with inputs := rest, status := { s.status with errBus := true } })
      ∧ (s.inputs = memRead off :: rest → step s = .next { s with
          inputs := rest
          status := { s.status with errBus := true }
          replies := 0#32 :: s.replies })

/-- R61, R63, R64, R69: a host write to an existing word of CARRIER, STREAM or RUNLEN, at its literal offset, stores the
low 16, 8 or 32 bits there and changes no other word and no register. -/
def Obligations.BufferWriteStoresTheElement : Prop :=
  ∀ (s : State) (k : Nat) (v : Word) (rest : List Event), s.params.legal = true → s.pend = none →
    (k < s.params.maxCarrier → s.inputs = memWrite (BitVec.ofNat 32 (0x100000 + 4 * k)) v :: rest →
      ∃ t, step s = .next t ∧ t = { s with inputs := rest, mem := t.mem }
        ∧ t.mem.carrierAt k = v.setWidth 16 ∧ MemorySameOutside (fun b j => b = .carrier ∧ j = k) s.mem t.mem)
      ∧ (k < s.params.maxCarrier / 2 → s.inputs = memWrite (BitVec.ofNat 32 (0x300000 + 4 * k)) v :: rest →
        ∃ t, step s = .next t ∧ t = { s with inputs := rest, mem := t.mem }
          ∧ t.mem.streamAt k = v.setWidth 8 ∧ MemorySameOutside (fun b j => b = .stream ∧ j = k) s.mem t.mem)
      ∧ (k < s.params.maxCarrier / 16 → s.inputs = memWrite (BitVec.ofNat 32 (0x400000 + 4 * k)) v :: rest →
        ∃ t, step s = .next t ∧ t = { s with inputs := rest, mem := t.mem }
          ∧ t.mem.runlenAt k = v ∧ MemorySameOutside (fun b j => b = .runlen ∧ j = k) s.mem t.mem)

/-- R68: a write to a read-only register or buffer, or to a length register above its range, sets ERR_BUS and changes
nothing else (with BUSY = 0: R226); a read of CMD returns 0 and is no error. -/
def Obligations.RightsViolationsAreRefused : Prop :=
  ∀ (s : State) (off v : Word) (rest : List Event),
    (s.pend = none → s.inputs = memWrite off v :: rest →
        (off ∈ [0x00C#32, 0x018#32, 0x01C#32, 0x020#32, 0x02C#32, 0x034#32, 0x038#32, 0x03C#32, 0x040#32, 0x044#32,
            0x048#32, 0x04C#32, 0x050#32, 0x054#32, 0x058#32, 0x05C#32, 0x060#32, 0x064#32]
          ∨ off = 0x024#32 ∧ s.params.maxCarrier < v.toNat
          ∨ off = 0x028#32 ∧ s.params.maxCarrier / 2 < v.toNat
          ∨ off = 0x030#32 ∧ s.params.maxCarrier / 16 < v.toNat
          ∨ off.toNat % 4 = 0 ∧ 0x200000 ≤ off.toNat ∧ off.toNat < 0x300000
          ∨ off.toNat % 4 = 0 ∧ 0x500000 ≤ off.toNat ∧ off.toNat < 0x600000) →
        step s = .next { s with inputs := rest, status := { s.status with errBus := true } })
      ∧ (s.inputs = memRead 0x000#32 :: rest →
        step s = .next { s with inputs := rest, replies := 0#32 :: s.replies })

/-- R27, R29, R33, R34, R36: a host write to a writable register, the length registers within their ranges, sets it and
nothing else. -/
def Obligations.RegisterWritesSetTheRegister : Prop :=
  ∀ (s : State) (v : Word) (rest : List Event), s.pend = none →
    (s.inputs = memWrite 0x008#32 v :: rest → step s = .next { s with inputs := rest, crcState := v })
      ∧ (s.inputs = memWrite 0x010#32 v :: rest → step s = .next { s with inputs := rest, crcStart := v })
      ∧ (s.inputs = memWrite 0x014#32 v :: rest → step s = .next { s with inputs := rest, crcLen := v })
      ∧ (s.inputs = memWrite 0x024#32 v :: rest → v.toNat ≤ s.params.maxCarrier →
        step s = .next { s with inputs := rest, carrierLen := v })
      ∧ (s.inputs = memWrite 0x028#32 v :: rest → v.toNat ≤ s.params.maxCarrier / 2 →
        step s = .next { s with inputs := rest, streamLen := v })
      ∧ (s.inputs = memWrite 0x030#32 v :: rest → v.toNat ≤ s.params.maxCarrier / 16 →
        step s = .next { s with inputs := rest, runCount := v })

/-- R23, R28, R41, R43, R44, R61 to R64, R69, R76: a host read at the literal offset of a register, or of an existing
buffer word, returns its current value, BUSY or not, and changes nothing else. The fields of STATUS, VLQ_STAT and
LUT_OUT are stated beside (R25, R31, R32). -/
def Obligations.HostReadsReturnTheCurrentValue : Prop :=
  ∀ (s : State) (rest : List Event), s.params.legal = true →
    let reads := fun (off value : Word) => s.inputs = memRead off :: rest →
      step s = .next { s with inputs := rest, replies := value :: s.replies }
    (∀ e ∈ [(0x000#32, 0#32), (0x004#32, s.readReg .status), (0x008#32, s.crcState), (0x00C#32, ~~~ s.crcState),
          (0x010#32, s.crcStart), (0x014#32, s.crcLen), (0x018#32, s.vlqAcc), (0x01C#32, s.readReg .vlqStat),
          (0x020#32, s.readReg .lutOut), (0x024#32, s.carrierLen), (0x028#32, s.streamLen), (0x02C#32, s.coverLen),
          (0x030#32, s.runCount), (0x034#32, s.resultCount), (0x038#32, s.xtrHead), (0x03C#32, s.xtrRunHead),
          (0x040#32, s.fr.info), (0x044#32, s.fr.stored), (0x048#32, s.fr.computed), (0x04C#32, s.fr.dataType),
          (0x050#32, s.fr.length), (0x054#32, s.fr.dataStart), (0x058#32, s.fr.dataEnd), (0x05C#32, s.fr.vlqCount),
          (0x060#32, BitVec.ofNat 32 s.params.maxCarrier), (0x064#32, BitVec.ofNat 32 s.params.maxResults)],
        reads e.1 e.2)
      ∧ (∀ k, k < s.params.maxCarrier → reads (BitVec.ofNat 32 (0x100000 + 4 * k)) ((s.mem.carrierAt k).setWidth 32))
      ∧ (∀ k, k < s.params.maxCarrier → reads (BitVec.ofNat 32 (0x200000 + 4 * k)) ((s.mem.coverAt k).setWidth 32))
      ∧ (∀ k, k < s.params.maxCarrier / 2 →
        reads (BitVec.ofNat 32 (0x300000 + 4 * k)) ((s.mem.streamAt k).setWidth 32))
      ∧ (∀ k, k < s.params.maxCarrier / 16 → reads (BitVec.ofNat 32 (0x400000 + 4 * k)) (s.mem.runlenAt k))
      ∧ ∀ r, r < s.params.maxResults → ∀ e ∈ [(0, (s.mem.resultAt r).info), (1, (s.mem.resultAt r).stored),
            (2, (s.mem.resultAt r).computed), (3, (s.mem.resultAt r).dataType), (4, (s.mem.resultAt r).length),
            (5, (s.mem.resultAt r).dataStart), (6, (s.mem.resultAt r).dataEnd), (7, (s.mem.resultAt r).vlqCount)],
          reads (BitVec.ofNat 32 (0x500000 + 32 * r + 4 * e.1)) e.2

/-- R226: a single access raises at most one error bit; ERR_OVF is not one of them (R217). -/
def Obligations.AccessRaisesAtMostOneError : Prop :=
  ∀ (s t : State) (a : Access) (rest : List Event), s.inputs = .access a :: rest → step s = .next t →
    (t.status.errOvf = true → s.status.errOvf = true)
      ∧ ((t.status.errIllegal = true → s.status.errIllegal = true)
          ∧ (t.status.errBusy = true → s.status.errBusy = true)
        ∨ (t.status.errIllegal = true → s.status.errIllegal = true)
          ∧ (t.status.errBus = true → s.status.errBus = true)
        ∨ (t.status.errBusy = true → s.status.errBusy = true)
          ∧ (t.status.errBus = true → s.status.errBus = true))

/-! ### CRC-32 -/

/-- R131: the table the loop of R130 computes is the one printed, all 256 entries. -/
def Obligations.CrcTableHasTheListedContents : Prop :=
  ∀ n : Nat, n < 256 → crcListed[n]? = some (crcTable (BitVec.ofNat 8 n))

/-- R135: CRC.INIT loads the all-ones register, after which CRC_RESULT reads 0, and changes nothing else. -/
def Obligations.CrcInitLoadsAllOnes : Prop :=
  ∀ s : State, ∃ t, exec .crcInit s = .next t ∧ t.readReg .crcResult = 0#32
    ∧ t = { s with crcState := 0xFFFFFFFF#32, pend := none, status := { s.status with done := true } }

/-- R136, R132: CRC.BYTE applies the table step to CRC_STATE and changes nothing else. -/
def Obligations.CrcByteFeedsOneByte : Prop :=
  ∀ (b : Byte) (s : State), exec (.crcByte b) s = .next { s with
    crcState := crcTable ((s.crcState ^^^ b.setWidth 32).extractLsb' 0 8) ^^^ (s.crcState >>> 8)
    pend := none
    status := { s.status with done := true } }

/-- R137: CRC.BLOCK. A range past STREAM_LEN, by exact arithmetic, sets ERR_ILLEGAL and changes nothing but STATUS;
otherwise the bytes of the range are fed to CRC_STATE in order and nothing else changes; an empty range leaves
CRC_STATE as it is. -/
def Obligations.CrcBlockFeedsTheRange : Prop :=
  ∀ s : State,
    (s.crcStart.toNat + s.crcLen.toNat > s.streamLen.toNat → exec .crcBlock s = .next { s with
        pend := none
        status := { s.status with errIllegal := true, done := true } })
      ∧ (s.crcStart.toNat + s.crcLen.toNat ≤ s.streamLen.toNat → ∃ bytes : List Byte,
        bytes.length = s.crcLen.toNat
          ∧ (∀ j (h : j < bytes.length), bytes[j] = s.mem.streamAt (s.crcStart.toNat + j))
          ∧ exec .crcBlock s = .next { s with
              crcState := bytes.foldl (fun r b =>
                crcTable ((r ^^^ b.setWidth 32).extractLsb' 0 8) ^^^ (r >>> 8)) s.crcState
              pend := none
              status := { s.status with done := true } }
          ∧ (s.crcLen = 0#32 → exec .crcBlock s = .next { s with
              pend := none
              status := { s.status with done := true } }))

/-- R136, R133: CRC.INIT and then one CRC.BYTE for each byte leave CRC_RESULT = crc32 of the bytes. -/
def Obligations.CrcBytesComputeCrc32 : Prop :=
  ∀ (bs : List Byte) (s : State), ∃ t, execAll (.crcInit :: bs.map .crcByte) s = .next t
    ∧ t.readReg .crcResult = crc32 bs

/-! ### VLQ -/

/-- R117: VLQ.INIT clears VLQ_ACC and VLQ_STAT and changes nothing else. -/
def Obligations.VlqInitClearsTheDecoder : Prop :=
  ∀ s : State, ∃ t, exec .vlqInit s = .next t ∧ t.readReg .vlqAcc = 0#32 ∧ t.readReg .vlqStat = 0#32
    ∧ t = { s with
        vlqAcc := t.vlqAcc
        vlqStat := t.vlqStat
        pend := none
        status := { s.status with done := true } }

/-- R118: VLQ.BYTE accumulates 7 bits, counts to 255, and sets DONE, OVF and EXTRA as the rule says; nothing else
changes. -/
def Obligations.VlqByteAccumulates : Prop :=
  ∀ (b : Byte) (s : State), ∃ t, exec (.vlqByte b) s = .next t
    ∧ t.vlqAcc.toNat = (s.vlqAcc.toNat * 128) % 4294967296 + b.toNat % 128
    ∧ (t.vlqStat.extra = true ↔ s.vlqStat.extra = true ∨ s.vlqStat.done = true)
    ∧ (t.vlqStat.ovf = true ↔ s.vlqStat.ovf = true ∨ s.vlqAcc.extractLsb' 25 7 ≠ 0#7)
    ∧ t.vlqStat.count.toNat = min (s.vlqStat.count.toNat + 1) 255
    ∧ (t.vlqStat.done = true ↔ b.toNat < 128)
    ∧ t = { s with
        vlqAcc := t.vlqAcc
        vlqStat := t.vlqStat
        pend := none
        status := { s.status with done := true } }

/-- R119: after VLQ.INIT and VLQ.BYTE for each of at most 255 bytes, the registers hold what decodeLength32 gives. -/
def Obligations.VlqBytesComputeDecodeLength : Prop :=
  ∀ (bs : List Byte) (s : State), bs.length ≤ 255 →
    ∃ t, execAll (.vlqInit :: bs.map .vlqByte) s = .next t
      ∧ t.vlqAcc = (decodeLength32 bs).1 ∧ t.vlqStat.ovf = (decodeLength32 bs).2
      ∧ t.vlqStat.count.toNat = bs.length
      ∧ (t.vlqStat.done = true ↔ ∃ b, bs.getLast? = some b ∧ b.getLsbD 7 = false)

/-- R205, R121, R115: the encoding of n has ceil(bits(n) / 7) bytes, at least one, and only its last byte has bit 7
clear; decoding it gives n back without overflow for every n below 2^32. -/
def Obligations.EncodeLengthIsMinimalAndInvertible : Prop :=
  ∀ n : Nat, (encodeLength n).length = max 1 ((n.size + 6) / 7)
    ∧ (∀ k (h : k < (encodeLength n).length),
        (encodeLength n)[k].getLsbD 7 = decide (k + 1 < (encodeLength n).length))
    ∧ (n < 4294967296 → decodeLength32 (encodeLength n) = (BitVec.ofNat 32 n, false))

/-! ### Lookup -/

/-- R107: LUT.N2C writes the code unit of the nibble with VALID = 1, and changes nothing else. -/
def Obligations.LutN2cLooksUpTheCodeUnit : Prop :=
  ∀ (v : Nibble) (s : State), ∃ t, exec (.lutN2c v) s = .next t
    ∧ t.readReg .lutOut = (charFor s.params v).setWidth 32 ||| 0x00010000#32
    ∧ t = { s with lutOut := t.lutOut, pend := none, status := { s.status with done := true } }

/-- R108: LUT.C2N writes the nibble of the code unit with VALID = 1, or 0 for a unit outside the alphabet, and changes
nothing else. -/
def Obligations.LutC2nLooksUpTheNibble : Prop :=
  ∀ (c : CodeUnit) (s : State), ∃ t, exec (.lutC2n c) s = .next t
    ∧ (∀ v, nibbleFor s.params c = some v → t.readReg .lutOut = v.setWidth 32 ||| 0x00010000#32)
    ∧ (nibbleFor s.params c = none → t.readReg .lutOut = 0#32)
    ∧ t = { s with lutOut := t.lutOut, pend := none, status := { s.status with done := true } }

/-- R106: over a legal alphabet charFor is the alphabet's entry, nibbleFor finds the one nibble of a unit and none for
every other unit, IsAlpha says which, and the two lookups are inverse to each other. No surrogate is a member (R108). -/
def Obligations.NibbleLookupIsABijection : Prop :=
  ∀ p : Params, p.legal = true →
    (∀ v : Nibble, p.alphabet[v.toNat]? = some (charFor p v))
      ∧ (∀ (c : CodeUnit), nibbleFor p c = none ↔ ∀ v : Nibble, charFor p v ≠ c)
      ∧ (∀ (c : CodeUnit), isAlpha p c = true ↔ nibbleFor p c ≠ none)
      ∧ (∀ v : Nibble, nibbleFor p (charFor p v) = some v)
      ∧ (∀ (c : CodeUnit) (v : Nibble), nibbleFor p c = some v → charFor p v = c)
      ∧ ∀ c : CodeUnit, 0xD800 ≤ c.toNat → c.toNat ≤ 0xDFFF → nibbleFor p c = none

/-! ### The frame parser -/

/-- R152, R153: past the end there is no message; fewer than 2 bytes, or other bytes than 44 00, are a protocol
mismatch; in both cases every word but INFO is 0. Otherwise it is a decode attempt, KIND = FRAME. -/
def Obligations.ParseOfNoFrame : Prop :=
  ∀ (bytes : Nat → Byte) (o len : Nat),
    (len ≤ o → parseFrame bytes o len = ⟨2#32, 0#32, 0#32, 0#32, 0#32, 0#32, 0#32, 0#32⟩)
      ∧ (o < len → len < o + 2 ∨ bytes o ≠ 0x44#8 ∨ bytes (o + 1) ≠ 0x00#8 →
        parseFrame bytes o len = ⟨1#32, 0#32, 0#32, 0#32, 0#32, 0#32, 0#32, 0#32⟩)
      ∧ (o + 2 ≤ len → bytes o = 0x44#8 → bytes (o + 1) = 0x00#8 →
        (parseFrame bytes o len).info.extractLsb' 0 2 = 0#2)

/-- R154 to R161, R225: every word of the record of any decode attempt, complete, truncated or overflowed. `k` is the
number of length bytes examined, of which the last is the terminator, or which run to the end of the stream (`term`
false). A byte past the end reads 0, the payload is clamped to the stream, and TRUNC and LEN_OVF are both recorded. -/
def Obligations.ParseOfADecodeAttempt : Prop :=
  ∀ (bytes : Nat → Byte) (o len k : Nat) (term : Bool), o + 2 ≤ len → bytes o = 0x44#8 → bytes (o + 1) = 0x00#8 →
    k ≤ len - (o + 7) →
    (∀ j, j < k → (j + 1 < k ∨ term = false) → (bytes (o + 7 + j)).getLsbD 7 = true) →
    (term = true → 1 ≤ k ∧ (bytes (o + 7 + (k - 1))).getLsbD 7 = false) → (term = false → k = len - (o + 7)) →
    let rd := fun j => if o + j < len then bytes (o + j) else 0x00#8
    let decoded := decodeLength32 ((List.range k).map (fun j => bytes (o + 7 + j)))
    let start := o + 7 + k
    let stop := start + decoded.1.toNat
    let trunc := decide (len < o + 7) || !term || decide (len < stop)
    let stored := (rd 2).setWidth 32 <<< 24 ||| (rd 3).setWidth 32 <<< 16 ||| (rd 4).setWidth 32 <<< 8
      ||| (rd 5).setWidth 32
    let computed := crc32 ((List.range (min stop len - min start len)).map (fun j => bytes (min start len + j)))
    let valid := !trunc && !decoded.2 && computed == stored
    parseFrame bytes o len = {
      info := (if valid then 4#32 else 0#32) ||| (if trunc then 8#32 else 0#32)
        ||| (if decoded.2 then 16#32 else 0#32)
      stored := stored
      computed := computed
      dataType := (rd 6).setWidth 32
      length := decoded.1
      dataStart := BitVec.ofNat 32 start
      dataEnd := BitVec.ofNat 32 stop
      vlqCount := BitVec.ofNat 32 k }

/-- R154, R157, R158, R160, R225: a decode attempt whose header, length field or payload passes the end of the stream
has TRUNC = 1 and CHECKSUM_VALID = 0, and one whose length field decodes with overflow has LEN_OVF = 1 and
CHECKSUM_VALID = 0, whatever its bytes and also when both apply. -/
def Obligations.TruncatedOrOverflowedFrameIsNeverValid : Prop :=
  ∀ (bytes : Nat → Byte) (o len : Nat), o + 2 ≤ len → bytes o = 0x44#8 → bytes (o + 1) = 0x00#8 →
    let parsed := parseFrame bytes o len
    ((len < o + 7 ∨ (∀ j, o + 7 ≤ j → j < len → (bytes j).getLsbD 7 = true)
        ∨ len < o + 7 + parsed.vlqCount.toNat + parsed.length.toNat) → len < 4294967296 →
      parsed.info.extractLsb' 0 2 = 0#2 ∧ parsed.info.getLsbD 3 = true ∧ parsed.info.getLsbD 2 = false)
    ∧ ((decodeLength32 ((List.range parsed.vlqCount.toNat).map (fun j => bytes (o + 7 + j)))).2 = true →
      len < 4294967296 →
      parsed.info.extractLsb' 0 2 = 0#2 ∧ parsed.info.getLsbD 4 = true ∧ parsed.info.getLsbD 2 = false)

/-- R163: a valid frame has no overflowed or truncated length, is at least 8 bytes long and lies within the stream. -/
def Obligations.ValidFrameLiesWithinTheStream : Prop :=
  ∀ (bytes : Nat → Byte) (o len : Nat), len < 4294967296 → (parseFrame bytes o len).info.getLsbD 2 = true →
    let parsed := parseFrame bytes o len
    let c := 7 + parsed.vlqCount.toNat + parsed.length.toNat
    8 ≤ c ∧ o + c ≤ len ∧ parsed.dataEnd.toNat = o + c ∧ parsed.info = 4#32

/-- R164: the flags byte is passed through as TYPE, and no other word of the record depends on it. -/
def Obligations.ParsePassesTheFlagsByteThrough : Prop :=
  ∀ (bytes bytes' : Nat → Byte) (o len : Nat), (∀ j, j ≠ o + 6 → bytes' j = bytes j) →
    parseFrame bytes' o len = { parseFrame bytes o len with dataType := (parseFrame bytes' o len).dataType }
      ∧ ((parseFrame bytes' o len).info.extractLsb' 0 2 = 0#2 → o + 6 < len →
        (parseFrame bytes' o len).dataType = (bytes' (o + 6)).setWidth 32)

/-- R162: FRAME.PARSE writes the parse at its offset to the FR_ registers and changes nothing else; no outcome sets an
error bit, and an offset at or past STREAM_LEN gives NO_MESSAGE. -/
def Obligations.FrameParseFillsTheFrRegisters : Prop :=
  ∀ (off : BitVec 24) (s : State),
    exec (.frameParse off) s = .next { s with
        fr := parseFrame s.mem.streamAt off.toNat s.streamLen.toNat
        pend := none
        status := { s.status with done := true } }
      ∧ (s.streamLen.toNat ≤ off.toNat →
        (parseFrame s.mem.streamAt off.toNat s.streamLen.toNat).info = 2#32)

/-! ### The scanner -/

/-- R176: SCAN scans `units`, the elements of CARRIER below CARRIER_LEN, and writes the cover text, the stream and the
run lengths with their lengths, restarts the extractor (R179), and leaves every other register and every other word of
memory as it was. -/
def Obligations.ScanWritesItsThreeOutputs : Prop :=
  ∀ (s : State) (units : List CodeUnit), units.length = s.carrierLen.toNat →
    (∀ j (h : j < units.length), units[j] = s.mem.carrierAt j) →
    let out := scanUnits s.params units
    ∃ t, exec .scan s = .next t
      ∧ t.coverLen.toNat = out.cover.length ∧ t.streamLen.toNat = out.stream.length
      ∧ t.runCount.toNat = out.runs.length
      ∧ (∀ k (h : k < out.cover.length), t.mem.coverAt k = out.cover[k])
      ∧ (∀ k (h : k < out.stream.length), t.mem.streamAt k = out.stream[k])
      ∧ (∀ k (h : k < out.runs.length), (t.mem.runlenAt k).toNat = out.runs[k])
      ∧ t.xtrHead = 0#32 ∧ t.xtrRunHead = 0#32 ∧ t.resultCount = 0#32
      ∧ t.status = { s.status with done := true, xstate := .start } ∧ t.pend = none
      ∧ UnitsSame s t ∧ OutsideSame s t ∧ t.carrierLen = s.carrierLen
      ∧ MemorySameOutside (fun b k => b = .cover ∧ k < out.cover.length
          ∨ b = .stream ∧ k < out.stream.length ∨ b = .runlen ∧ k < out.runs.length) s.mem t.mem

/-- R178: FILTER writes the cover text of `units`, the elements of CARRIER below CARRIER_LEN, exactly as SCAN does, sets
STREAM_LEN and RUN_COUNT to 0 without writing STREAM or RUNLEN, restarts the extractor (R179), and leaves everything
else as it was. -/
def Obligations.FilterWritesTheCoverTextOnly : Prop :=
  ∀ (s : State) (units : List CodeUnit), units.length = s.carrierLen.toNat →
    (∀ j (h : j < units.length), units[j] = s.mem.carrierAt j) →
    let cover := (scanUnits s.params units).cover
    ∃ t, exec .filter s = .next t
      ∧ t.coverLen.toNat = cover.length ∧ t.streamLen = 0#32 ∧ t.runCount = 0#32
      ∧ (∀ k (h : k < cover.length), t.mem.coverAt k = cover[k])
      ∧ t.xtrHead = 0#32 ∧ t.xtrRunHead = 0#32 ∧ t.resultCount = 0#32
      ∧ t.status = { s.status with done := true, xstate := .start } ∧ t.pend = none
      ∧ UnitsSame s t ∧ OutsideSame s t ∧ t.carrierLen = s.carrierLen
      ∧ MemorySameOutside (fun b k => b = .cover ∧ k < cover.length) s.mem t.mem

/-- R170 to R175: a carrier without alphabet units is all cover text; and what a scan yields around any maximal run:
below 16 units the run is cover text, from 16 on it gives the bytes of its pairs, high nibble first, an odd last unit
dropped, and one entry of that many bytes. -/
def Obligations.ScanTreatsEachMaximalRunByItsLength : Prop :=
  ∀ p : Params,
    (∀ units : List CodeUnit, (∀ c ∈ units, isAlpha p c = false) → scanUnits p units = ⟨units, [], []⟩)
      ∧ ∀ before run after : List CodeUnit, run ≠ [] → (∀ c ∈ run, isAlpha p c = true) →
        (∀ c, before.getLast? = some c → isAlpha p c = false) →
        (∀ c, after.head? = some c → isAlpha p c = false) →
        let a := scanUnits p before
        let z := scanUnits p after
        (run.length < 16 → scanUnits p (before ++ run ++ after)
            = ⟨a.cover ++ run ++ z.cover, a.stream ++ z.stream, a.runs ++ z.runs⟩)
          ∧ (16 ≤ run.length → ∃ bytes : List Byte, bytes.length = run.length / 2
            ∧ (∀ k (h : k < bytes.length), ∃ hi lo : Nibble, ∃ u v : CodeUnit, run[2 * k]? = some u
                ∧ run[2 * k + 1]? = some v ∧ nibbleFor p u = some hi ∧ nibbleFor p v = some lo
                ∧ bytes[k].toNat = 16 * hi.toNat + lo.toNat)
            ∧ scanUnits p (before ++ run ++ after)
                = ⟨a.cover ++ z.cover, a.stream ++ bytes ++ z.stream, a.runs ++ [run.length / 2] ++ z.runs⟩)

/-- R177: a scan yields at most one cover unit for a carrier unit, a byte for two and a run entry for sixteen, so that
SCAN and FILTER stay within the capacities and raise no error. -/
def Obligations.ScanFitsItsBuffers : Prop :=
  ∀ s : State, s.carrierLen.toNat ≤ s.params.maxCarrier → ∀ i ∈ [Instr.scan, Instr.filter],
    ∃ t, exec i s = .next t
      ∧ t.coverLen.toNat ≤ s.carrierLen.toNat ∧ t.coverLen.toNat ≤ s.params.maxCarrier
      ∧ t.streamLen.toNat ≤ s.carrierLen.toNat / 2 ∧ t.streamLen.toNat ≤ maxStream s.params
      ∧ t.runCount.toNat ≤ s.carrierLen.toNat / 16 ∧ t.runCount.toNat ≤ maxRuns s.params
      ∧ ErrorsSame s t
      ∧ MemorySameOutside (fun b k => b = .cover ∧ k < t.coverLen.toNat ∨ b = .stream ∧ k < t.streamLen.toNat
          ∨ b = .runlen ∧ k < t.runCount.toNat) s.mem t.mem

/-- R54, R181: right after a SCAN every RUNLEN entry is at least 8 and the entries sum to STREAM_LEN. -/
def Obligations.ScanRunLengthsSumToTheStream : Prop :=
  ∀ s : State, ∃ t, exec .scan s = .next t
    ∧ ((List.range t.runCount.toNat).map (fun k => (t.mem.runlenAt k).toNat)).sum = t.streamLen.toNat
    ∧ ∀ k, k < t.runCount.toNat → 8 ≤ (t.mem.runlenAt k).toNat

/-- R180: the cover text of a carrier, scanned again, is reproduced unchanged and retains no run. -/
def Obligations.FilterIsIdempotent : Prop :=
  ∀ (p : Params) (units : List CodeUnit),
    scanUnits p (scanUnits p units).cover = ⟨(scanUnits p units).cover, [], []⟩

/-! ### The extractor -/

/-- R186: XTR.RESET sets the heads and RESULT_COUNT to 0 and XSTATE to START; nothing else changes, RUNLEN and RESULT
contents included. -/
def Obligations.XtrResetRestartsTheExtractor : Prop :=
  ∀ s : State, exec .xtrReset s = .next { s with
    xtrHead := 0#32
    xtrRunHead := 0#32
    resultCount := 0#32
    pend := none
    status := { s.status with done := true, xstate := .start } }

/-- R195, R221, R189: in XSTATE DONE, XTR.STEP and XTR.RUN emit nothing and change nothing but DONE and BUSY; in LOOP,
or in START with a stream, an exhausted head makes XTR.STEP enter DONE with nothing emitted. -/
def Obligations.XtrWithNothingLeftEmitsNothing : Prop :=
  ∀ s : State,
    (s.status.xstate = .done → ∀ i ∈ [Instr.xtrStep, Instr.xtrRun],
        exec i s = .next { s with pend := none, status := { s.status with done := true } })
      ∧ (s.status.xstate = .loop ∨ s.status.xstate = .start ∧ s.streamLen ≠ 0#32 →
        s.streamLen.toNat ≤ s.xtrHead.toNat →
        exec .xtrStep s = .next { s with pend := none, status := { s.status with done := true, xstate := .done } })

/-- R188, R192: XTR.STEP at START on an empty stream emits the NO_MESSAGE record and enters DONE. -/
def Obligations.XtrStepOnAnEmptyStreamEmitsNoMessage : Prop :=
  ∀ s : State, s.status.xstate = .start → s.streamLen = 0#32 → s.resultCount.toNat ≠ s.params.maxResults →
    ∃ t, exec .xtrStep s = .next t ∧ Completed t ∧ t.status.xstate = .done ∧ t.status.errOvf = s.status.errOvf
      ∧ t.resultCount = s.resultCount + 1#32
      ∧ t.mem.resultAt s.resultCount.toNat = ⟨2#32, 0#32, 0#32, 0#32, 0#32, 0#32, 0#32, 0#32⟩
      ∧ t.xtrHead = s.xtrHead ∧ t.xtrRunHead = s.xtrRunHead
      ∧ ExtractorFrame (fun b k => b = .result ∧ k / 8 = s.resultCount.toNat) s t

/-- R192, R217, R227: when a record must be emitted and RESULT is full, ERR_OVF is set, XSTATE becomes DONE and nothing
else changes: no head, no RUNLEN, no RESULT. -/
def Obligations.XtrStepOnFullResultsStops : Prop :=
  ∀ s : State, s.status.xstate ≠ .done → s.resultCount.toNat = s.params.maxResults →
    s.xtrHead.toNat < s.streamLen.toNat ∨ s.status.xstate = .start ∧ s.streamLen = 0#32 →
    exec .xtrStep s = .next { s with
      pend := none
      status := { s.status with done := true, errOvf := true, xstate := .done } }

/-- R187, R193, R194: XTR.STEP on a valid frame at XTR_HEAD, with room in RESULT, emits the parse, advances the head by
the consumed length c, and decrements the front entry RUNLEN[XTR_RUN_HEAD] by c when c is below it, else discards it. -/
def Obligations.XtrStepPeelsAValidFrame : Prop :=
  ∀ s : State, s.readyToPeel →
    let parsed := parseFrame s.mem.streamAt s.xtrHead.toNat s.streamLen.toNat
    let c := 7 + parsed.vlqCount.toNat + parsed.length.toNat
    let entry := (s.mem.runlenAt s.xtrRunHead.toNat).toNat
    parsed.info.getLsbD 2 = true →
    ∃ t, exec .xtrStep s = .next t ∧ Completed t
      ∧ t.mem.resultAt s.resultCount.toNat = parsed ∧ t.resultCount = s.resultCount + 1#32
      ∧ t.xtrHead.toNat = s.xtrHead.toNat + c ∧ t.status.errOvf = s.status.errOvf
      ∧ t.status.xstate = (if s.streamLen.toNat ≤ s.xtrHead.toNat + c then .done else .loop)
      ∧ (s.xtrRunHead.toNat < s.runCount.toNat → c < entry → t.xtrRunHead = s.xtrRunHead
          ∧ (t.mem.runlenAt s.xtrRunHead.toNat).toNat = entry - c
          ∧ ExtractorFrame (fun b k => b = .result ∧ k / 8 = s.resultCount.toNat
              ∨ b = .runlen ∧ k = s.xtrRunHead.toNat) s t)
      ∧ (s.xtrRunHead.toNat < s.runCount.toNat → entry ≤ c → t.xtrRunHead.toNat = s.xtrRunHead.toNat + 1
          ∧ ExtractorFrame (fun b k => b = .result ∧ k / 8 = s.resultCount.toNat) s t)
      ∧ (s.runCount.toNat ≤ s.xtrRunHead.toNat → t.xtrRunHead = s.xtrRunHead
          ∧ ExtractorFrame (fun b k => b = .result ∧ k / 8 = s.resultCount.toNat) s t)

/-- R187, R191, R196, R190: XTR.STEP on bytes that are no valid frame drops the front run: as many bytes as the front
entry RUNLEN[XTR_RUN_HEAD] says, clamped to those left, or all of them when no run is recorded, and the entry. A
protocol mismatch emits a record with the dropped range, and a decode attempt with CHECKSUM_VALID = 0 emits the
parse. -/
def Obligations.XtrStepDropsTheFrontRunOtherwise : Prop :=
  ∀ s : State, s.readyToPeel →
    let parsed := parseFrame s.mem.streamAt s.xtrHead.toNat s.streamLen.toNat
    let left := s.streamLen.toNat - s.xtrHead.toNat
    let entry := (s.mem.runlenAt s.xtrRunHead.toNat).toNat
    let d := if s.xtrRunHead.toNat < s.runCount.toNat then min entry left else left
    parsed.info.getLsbD 2 = false →
    ∃ t, exec .xtrStep s = .next t ∧ Completed t
      ∧ (s.xtrRunHead.toNat < s.runCount.toNat → t.xtrRunHead.toNat = s.xtrRunHead.toNat + 1)
      ∧ (s.runCount.toNat ≤ s.xtrRunHead.toNat → t.xtrRunHead = s.xtrRunHead)
      ∧ (parsed.info.extractLsb' 0 2 = 1#2 → t.mem.resultAt s.resultCount.toNat
          = ⟨1#32, 0#32, 0#32, 0#32, 0#32, s.xtrHead, BitVec.ofNat 32 (s.xtrHead.toNat + d), 0#32⟩)
      ∧ (parsed.info.extractLsb' 0 2 ≠ 1#2 → t.mem.resultAt s.resultCount.toNat = parsed)
      ∧ t.resultCount = s.resultCount + 1#32 ∧ t.xtrHead.toNat = s.xtrHead.toNat + d
      ∧ t.status.errOvf = s.status.errOvf
      ∧ t.status.xstate = (if s.streamLen.toNat ≤ s.xtrHead.toNat + d then .done else .loop)
      ∧ ExtractorFrame (fun b k => b = .result ∧ k / 8 = s.resultCount.toNat) s t

/-- R53, R195: every command keeps the heads within the stream and the run queue, and RESULT_COUNT within capacity. -/
def Obligations.CommandsKeepTheHeadsInside : Prop :=
  ∀ (i : Instr) (s t : State), s.headsInside → exec i s = .next t → t.headsInside

/-- R197, R198: XTR.RUN from any state ends with XSTATE = DONE, and it is XTR.STEP issued until XSTATE reads DONE: some
n ≥ 1 steps, none but the last of which leaves DONE. -/
def Obligations.XtrRunIsXtrStepUntilDone : Prop :=
  ∀ s : State, ∃ n t, 1 ≤ n
    ∧ n ≤ (s.streamLen.toNat - s.xtrHead.toNat) + (s.runCount.toNat - s.xtrRunHead.toNat) + 1
    ∧ execAll (List.replicate n .xtrStep) s = exec .xtrRun s
    ∧ exec .xtrRun s = .next t ∧ t.status.xstate = .done
    ∧ ∀ m u, 1 ≤ m → m < n → execAll (List.replicate m .xtrStep) s = .next u → u.status.xstate ≠ .done

/-- R200, R197: the frame of XTR.RUN, from a state whose heads and count are in range: the other units, the lengths and
the errors but ERR_OVF stay, and memory changes only in the records emitted and the run entries passed. -/
def Obligations.XtrRunTouchesOnlyTheExtractor : Prop :=
  ∀ s : State, s.params.legal = true → s.headsInside →
    ∃ t, exec .xtrRun s = .next t ∧ t.headsInside
      ∧ s.resultCount.toNat ≤ t.resultCount.toNat ∧ s.xtrRunHead.toNat ≤ t.xtrRunHead.toNat
      ∧ s.xtrHead.toNat ≤ t.xtrHead.toNat
      ∧ ExtractorFrame (fun b k =>
          b = .result ∧ s.resultCount.toNat ≤ k / 8 ∧ k / 8 < t.resultCount.toNat
          ∨ b = .runlen ∧ s.xtrRunHead.toNat ≤ k ∧ k ≤ t.xtrRunHead.toNat) s t

/-- R209: a message encoded by the reference encoder between cover texts, scanned and extracted, comes back: one valid
record with its flags and payload, and the cover text around it. -/
def Obligations.EncodedMessageRoundTrips : Prop :=
  ∀ (s : State) (payload : List Byte) (flags : Byte) (x y : List CodeUnit), s.params.legal = true →
    payload ≠ [] →
    (∀ c ∈ x, isAlpha s.params c = false) → (∀ c ∈ y, isAlpha s.params c = false) →
    (List.range s.carrierLen.toNat).map s.mem.carrierAt
      = x ++ encodeChars s.params (encodeFrameBytes payload flags) ++ y →
    ∃ t, execAll [.scan, .xtrRun] s = .next t ∧ t.resultCount = 1#32
      ∧ (t.mem.resultAt 0).info = 4#32
      ∧ (t.mem.resultAt 0).dataType = flags.setWidth 32
      ∧ (t.mem.resultAt 0).dataEnd.toNat - (t.mem.resultAt 0).dataStart.toNat = payload.length
      ∧ (List.range payload.length).map (fun j => t.mem.streamAt ((t.mem.resultAt 0).dataStart.toNat + j)) = payload
      ∧ (List.range t.coverLen.toNat).map t.mem.coverAt = x ++ y

/-- R210: two encoded frames with nothing between them scan as one run of all their bytes, and XTR.RUN gives two valid
records in order: the first decrements the entry, the second discards it. With room for one record only, the second is
stopped by ERR_OVF (R192). -/
def Obligations.PackedFramesDecodeInOrder : Prop :=
  ∀ (s : State) (p1 p2 : List Byte) (f1 f2 : Byte) (x y : List CodeUnit), s.params.legal = true →
    p1 ≠ [] → p2 ≠ [] →
    (∀ c ∈ x, isAlpha s.params c = false) → (∀ c ∈ y, isAlpha s.params c = false) →
    (List.range s.carrierLen.toNat).map s.mem.carrierAt
      = x ++ encodeChars s.params (encodeFrameBytes p1 f1) ++ encodeChars s.params (encodeFrameBytes p2 f2) ++ y →
    let payload := fun (t : State) (r n : Nat) =>
      (List.range n).map (fun j => t.mem.streamAt ((t.mem.resultAt r).dataStart.toNat + j))
    ∃ u t, exec .scan s = .next u ∧ exec .xtrRun u = .next t
      ∧ u.runCount = 1#32
      ∧ (u.mem.runlenAt 0).toNat = (encodeFrameBytes p1 f1).length + (encodeFrameBytes p2 f2).length
      ∧ t.runCount = 1#32 ∧ (t.mem.runlenAt 0).toNat = (encodeFrameBytes p2 f2).length
      ∧ (t.mem.resultAt 0).info = 4#32 ∧ payload t 0 p1.length = p1
      ∧ (2 ≤ s.params.maxResults → t.resultCount = 2#32 ∧ t.xtrRunHead = 1#32
        ∧ (t.mem.resultAt 1).info = 4#32 ∧ payload t 1 p2.length = p2 ∧ t.status.errOvf = s.status.errOvf)
      ∧ (s.params.maxResults = 1 → t.resultCount = 1#32 ∧ t.xtrRunHead = 0#32
        ∧ t.xtrHead.toNat = (encodeFrameBytes p1 f1).length ∧ t.status.errOvf = true)
end

