-- ==== Sys2Proof/Laws/State.lean ====
section
/-! SUPPORT. What each field of the state is after each named update: one lemma for every field and update, so that no
proof unfolds a record update. -/

namespace Sys2Proof.Machine

variable (s : State)

/-! ### State.raise -/

@[simp] theorem raise_params (e : Err) : (s.raise e).params = s.params := by cases e <;> rfl
@[simp] theorem raise_pend (e : Err) : (s.raise e).pend = s.pend := by cases e <;> rfl
@[simp] theorem raise_crcState (e : Err) : (s.raise e).crcState = s.crcState := by cases e <;> rfl
@[simp] theorem raise_crcStart (e : Err) : (s.raise e).crcStart = s.crcStart := by cases e <;> rfl
@[simp] theorem raise_crcLen (e : Err) : (s.raise e).crcLen = s.crcLen := by cases e <;> rfl
@[simp] theorem raise_vlqAcc (e : Err) : (s.raise e).vlqAcc = s.vlqAcc := by cases e <;> rfl
@[simp] theorem raise_vlqStat (e : Err) : (s.raise e).vlqStat = s.vlqStat := by cases e <;> rfl
@[simp] theorem raise_lutOut (e : Err) : (s.raise e).lutOut = s.lutOut := by cases e <;> rfl
@[simp] theorem raise_carrierLen (e : Err) : (s.raise e).carrierLen = s.carrierLen := by cases e <;> rfl
@[simp] theorem raise_streamLen (e : Err) : (s.raise e).streamLen = s.streamLen := by cases e <;> rfl
@[simp] theorem raise_coverLen (e : Err) : (s.raise e).coverLen = s.coverLen := by cases e <;> rfl
@[simp] theorem raise_runCount (e : Err) : (s.raise e).runCount = s.runCount := by cases e <;> rfl
@[simp] theorem raise_resultCount (e : Err) : (s.raise e).resultCount = s.resultCount := by cases e <;> rfl
@[simp] theorem raise_xtrHead (e : Err) : (s.raise e).xtrHead = s.xtrHead := by cases e <;> rfl
@[simp] theorem raise_xtrRunHead (e : Err) : (s.raise e).xtrRunHead = s.xtrRunHead := by cases e <;> rfl
@[simp] theorem raise_fr (e : Err) : (s.raise e).fr = s.fr := by cases e <;> rfl
@[simp] theorem raise_mem (e : Err) : (s.raise e).mem = s.mem := by cases e <;> rfl
@[simp] theorem raise_inputs (e : Err) : (s.raise e).inputs = s.inputs := by cases e <;> rfl
@[simp] theorem raise_replies (e : Err) : (s.raise e).replies = s.replies := by cases e <;> rfl

/-! ### State.clearStatus -/

@[simp] theorem clearStatus_params (v : Word) : (s.clearStatus v).params = s.params := rfl
@[simp] theorem clearStatus_pend (v : Word) : (s.clearStatus v).pend = s.pend := rfl
@[simp] theorem clearStatus_crcState (v : Word) : (s.clearStatus v).crcState = s.crcState := rfl
@[simp] theorem clearStatus_crcStart (v : Word) : (s.clearStatus v).crcStart = s.crcStart := rfl
@[simp] theorem clearStatus_crcLen (v : Word) : (s.clearStatus v).crcLen = s.crcLen := rfl
@[simp] theorem clearStatus_vlqAcc (v : Word) : (s.clearStatus v).vlqAcc = s.vlqAcc := rfl
@[simp] theorem clearStatus_vlqStat (v : Word) : (s.clearStatus v).vlqStat = s.vlqStat := rfl
@[simp] theorem clearStatus_lutOut (v : Word) : (s.clearStatus v).lutOut = s.lutOut := rfl
@[simp] theorem clearStatus_carrierLen (v : Word) : (s.clearStatus v).carrierLen = s.carrierLen := rfl
@[simp] theorem clearStatus_streamLen (v : Word) : (s.clearStatus v).streamLen = s.streamLen := rfl
@[simp] theorem clearStatus_coverLen (v : Word) : (s.clearStatus v).coverLen = s.coverLen := rfl
@[simp] theorem clearStatus_runCount (v : Word) : (s.clearStatus v).runCount = s.runCount := rfl
@[simp] theorem clearStatus_resultCount (v : Word) : (s.clearStatus v).resultCount = s.resultCount := rfl
@[simp] theorem clearStatus_xtrHead (v : Word) : (s.clearStatus v).xtrHead = s.xtrHead := rfl
@[simp] theorem clearStatus_xtrRunHead (v : Word) : (s.clearStatus v).xtrRunHead = s.xtrRunHead := rfl
@[simp] theorem clearStatus_fr (v : Word) : (s.clearStatus v).fr = s.fr := rfl
@[simp] theorem clearStatus_mem (v : Word) : (s.clearStatus v).mem = s.mem := rfl
@[simp] theorem clearStatus_inputs (v : Word) : (s.clearStatus v).inputs = s.inputs := rfl
@[simp] theorem clearStatus_replies (v : Word) : (s.clearStatus v).replies = s.replies := rfl

/-! ### State.setDone -/

@[simp] theorem setDone_params : (s.setDone).params = s.params := rfl
@[simp] theorem setDone_pend : (s.setDone).pend = s.pend := rfl
@[simp] theorem setDone_status : (s.setDone).status = { s.status with done := true } := rfl
@[simp] theorem setDone_crcState : (s.setDone).crcState = s.crcState := rfl
@[simp] theorem setDone_crcStart : (s.setDone).crcStart = s.crcStart := rfl
@[simp] theorem setDone_crcLen : (s.setDone).crcLen = s.crcLen := rfl
@[simp] theorem setDone_vlqAcc : (s.setDone).vlqAcc = s.vlqAcc := rfl
@[simp] theorem setDone_vlqStat : (s.setDone).vlqStat = s.vlqStat := rfl
@[simp] theorem setDone_lutOut : (s.setDone).lutOut = s.lutOut := rfl
@[simp] theorem setDone_carrierLen : (s.setDone).carrierLen = s.carrierLen := rfl
@[simp] theorem setDone_streamLen : (s.setDone).streamLen = s.streamLen := rfl
@[simp] theorem setDone_coverLen : (s.setDone).coverLen = s.coverLen := rfl
@[simp] theorem setDone_runCount : (s.setDone).runCount = s.runCount := rfl
@[simp] theorem setDone_resultCount : (s.setDone).resultCount = s.resultCount := rfl
@[simp] theorem setDone_xtrHead : (s.setDone).xtrHead = s.xtrHead := rfl
@[simp] theorem setDone_xtrRunHead : (s.setDone).xtrRunHead = s.xtrRunHead := rfl
@[simp] theorem setDone_fr : (s.setDone).fr = s.fr := rfl
@[simp] theorem setDone_mem : (s.setDone).mem = s.mem := rfl
@[simp] theorem setDone_inputs : (s.setDone).inputs = s.inputs := rfl
@[simp] theorem setDone_replies : (s.setDone).replies = s.replies := rfl

/-! ### State.complete -/

@[simp] theorem complete_params : (s.complete).params = s.params := rfl
@[simp] theorem complete_pend : (s.complete).pend = none := rfl
@[simp] theorem complete_status : (s.complete).status = { s.status with done := true } := rfl
@[simp] theorem complete_crcState : (s.complete).crcState = s.crcState := rfl
@[simp] theorem complete_crcStart : (s.complete).crcStart = s.crcStart := rfl
@[simp] theorem complete_crcLen : (s.complete).crcLen = s.crcLen := rfl
@[simp] theorem complete_vlqAcc : (s.complete).vlqAcc = s.vlqAcc := rfl
@[simp] theorem complete_vlqStat : (s.complete).vlqStat = s.vlqStat := rfl
@[simp] theorem complete_lutOut : (s.complete).lutOut = s.lutOut := rfl
@[simp] theorem complete_carrierLen : (s.complete).carrierLen = s.carrierLen := rfl
@[simp] theorem complete_streamLen : (s.complete).streamLen = s.streamLen := rfl
@[simp] theorem complete_coverLen : (s.complete).coverLen = s.coverLen := rfl
@[simp] theorem complete_runCount : (s.complete).runCount = s.runCount := rfl
@[simp] theorem complete_resultCount : (s.complete).resultCount = s.resultCount := rfl
@[simp] theorem complete_xtrHead : (s.complete).xtrHead = s.xtrHead := rfl
@[simp] theorem complete_xtrRunHead : (s.complete).xtrRunHead = s.xtrRunHead := rfl
@[simp] theorem complete_fr : (s.complete).fr = s.fr := rfl
@[simp] theorem complete_mem : (s.complete).mem = s.mem := rfl
@[simp] theorem complete_inputs : (s.complete).inputs = s.inputs := rfl
@[simp] theorem complete_replies : (s.complete).replies = s.replies := rfl

/-! ### State.setXState -/

@[simp] theorem setXState_params (x : XState) : (s.setXState x).params = s.params := rfl
@[simp] theorem setXState_pend (x : XState) : (s.setXState x).pend = s.pend := rfl
@[simp] theorem setXState_status (x : XState) : (s.setXState x).status = { s.status with xstate := x } := rfl
@[simp] theorem setXState_crcState (x : XState) : (s.setXState x).crcState = s.crcState := rfl
@[simp] theorem setXState_crcStart (x : XState) : (s.setXState x).crcStart = s.crcStart := rfl
@[simp] theorem setXState_crcLen (x : XState) : (s.setXState x).crcLen = s.crcLen := rfl
@[simp] theorem setXState_vlqAcc (x : XState) : (s.setXState x).vlqAcc = s.vlqAcc := rfl
@[simp] theorem setXState_vlqStat (x : XState) : (s.setXState x).vlqStat = s.vlqStat := rfl
@[simp] theorem setXState_lutOut (x : XState) : (s.setXState x).lutOut = s.lutOut := rfl
@[simp] theorem setXState_carrierLen (x : XState) : (s.setXState x).carrierLen = s.carrierLen := rfl
@[simp] theorem setXState_streamLen (x : XState) : (s.setXState x).streamLen = s.streamLen := rfl
@[simp] theorem setXState_coverLen (x : XState) : (s.setXState x).coverLen = s.coverLen := rfl
@[simp] theorem setXState_runCount (x : XState) : (s.setXState x).runCount = s.runCount := rfl
@[simp] theorem setXState_resultCount (x : XState) : (s.setXState x).resultCount = s.resultCount := rfl
@[simp] theorem setXState_xtrHead (x : XState) : (s.setXState x).xtrHead = s.xtrHead := rfl
@[simp] theorem setXState_xtrRunHead (x : XState) : (s.setXState x).xtrRunHead = s.xtrRunHead := rfl
@[simp] theorem setXState_fr (x : XState) : (s.setXState x).fr = s.fr := rfl
@[simp] theorem setXState_mem (x : XState) : (s.setXState x).mem = s.mem := rfl
@[simp] theorem setXState_inputs (x : XState) : (s.setXState x).inputs = s.inputs := rfl
@[simp] theorem setXState_replies (x : XState) : (s.setXState x).replies = s.replies := rfl

/-! ### State.restartExtractor -/

@[simp] theorem restartExtractor_params : (s.restartExtractor).params = s.params := rfl
@[simp] theorem restartExtractor_pend : (s.restartExtractor).pend = s.pend := rfl
@[simp] theorem restartExtractor_status : (s.restartExtractor).status = { s.status with xstate := .start } := rfl
@[simp] theorem restartExtractor_crcState : (s.restartExtractor).crcState = s.crcState := rfl
@[simp] theorem restartExtractor_crcStart : (s.restartExtractor).crcStart = s.crcStart := rfl
@[simp] theorem restartExtractor_crcLen : (s.restartExtractor).crcLen = s.crcLen := rfl
@[simp] theorem restartExtractor_vlqAcc : (s.restartExtractor).vlqAcc = s.vlqAcc := rfl
@[simp] theorem restartExtractor_vlqStat : (s.restartExtractor).vlqStat = s.vlqStat := rfl
@[simp] theorem restartExtractor_lutOut : (s.restartExtractor).lutOut = s.lutOut := rfl
@[simp] theorem restartExtractor_carrierLen : (s.restartExtractor).carrierLen = s.carrierLen := rfl
@[simp] theorem restartExtractor_streamLen : (s.restartExtractor).streamLen = s.streamLen := rfl
@[simp] theorem restartExtractor_coverLen : (s.restartExtractor).coverLen = s.coverLen := rfl
@[simp] theorem restartExtractor_runCount : (s.restartExtractor).runCount = s.runCount := rfl
@[simp] theorem restartExtractor_resultCount : (s.restartExtractor).resultCount = 0#32 := rfl
@[simp] theorem restartExtractor_xtrHead : (s.restartExtractor).xtrHead = 0#32 := rfl
@[simp] theorem restartExtractor_xtrRunHead : (s.restartExtractor).xtrRunHead = 0#32 := rfl
@[simp] theorem restartExtractor_fr : (s.restartExtractor).fr = s.fr := rfl
@[simp] theorem restartExtractor_mem : (s.restartExtractor).mem = s.mem := rfl
@[simp] theorem restartExtractor_inputs : (s.restartExtractor).inputs = s.inputs := rfl
@[simp] theorem restartExtractor_replies : (s.restartExtractor).replies = s.replies := rfl

/-! ### State.setHead -/

@[simp] theorem setHead_params (i : Nat) : (s.setHead i).params = s.params := rfl
@[simp] theorem setHead_pend (i : Nat) : (s.setHead i).pend = s.pend := rfl
@[simp] theorem setHead_status (i : Nat) : (s.setHead i).status = s.status := rfl
@[simp] theorem setHead_crcState (i : Nat) : (s.setHead i).crcState = s.crcState := rfl
@[simp] theorem setHead_crcStart (i : Nat) : (s.setHead i).crcStart = s.crcStart := rfl
@[simp] theorem setHead_crcLen (i : Nat) : (s.setHead i).crcLen = s.crcLen := rfl
@[simp] theorem setHead_vlqAcc (i : Nat) : (s.setHead i).vlqAcc = s.vlqAcc := rfl
@[simp] theorem setHead_vlqStat (i : Nat) : (s.setHead i).vlqStat = s.vlqStat := rfl
@[simp] theorem setHead_lutOut (i : Nat) : (s.setHead i).lutOut = s.lutOut := rfl
@[simp] theorem setHead_carrierLen (i : Nat) : (s.setHead i).carrierLen = s.carrierLen := rfl
@[simp] theorem setHead_streamLen (i : Nat) : (s.setHead i).streamLen = s.streamLen := rfl
@[simp] theorem setHead_coverLen (i : Nat) : (s.setHead i).coverLen = s.coverLen := rfl
@[simp] theorem setHead_runCount (i : Nat) : (s.setHead i).runCount = s.runCount := rfl
@[simp] theorem setHead_resultCount (i : Nat) : (s.setHead i).resultCount = s.resultCount := rfl
@[simp] theorem setHead_xtrHead (i : Nat) : (s.setHead i).xtrHead = BitVec.ofNat 32 i := rfl
@[simp] theorem setHead_xtrRunHead (i : Nat) : (s.setHead i).xtrRunHead = s.xtrRunHead := rfl
@[simp] theorem setHead_fr (i : Nat) : (s.setHead i).fr = s.fr := rfl
@[simp] theorem setHead_mem (i : Nat) : (s.setHead i).mem = s.mem := rfl
@[simp] theorem setHead_inputs (i : Nat) : (s.setHead i).inputs = s.inputs := rfl
@[simp] theorem setHead_replies (i : Nat) : (s.setHead i).replies = s.replies := rfl

/-! ### State.writeCarrier -/

@[simp] theorem writeCarrier_params (i : Nat) (xs : List CodeUnit) : (s.writeCarrier i xs).params = s.params := rfl
@[simp] theorem writeCarrier_pend (i : Nat) (xs : List CodeUnit) : (s.writeCarrier i xs).pend = s.pend := rfl
@[simp] theorem writeCarrier_status (i : Nat) (xs : List CodeUnit) : (s.writeCarrier i xs).status = s.status := rfl
@[simp] theorem writeCarrier_crcState (i : Nat) (xs : List CodeUnit) :
    (s.writeCarrier i xs).crcState = s.crcState := rfl
@[simp] theorem writeCarrier_crcStart (i : Nat) (xs : List CodeUnit) :
    (s.writeCarrier i xs).crcStart = s.crcStart := rfl
@[simp] theorem writeCarrier_crcLen (i : Nat) (xs : List CodeUnit) : (s.writeCarrier i xs).crcLen = s.crcLen := rfl
@[simp] theorem writeCarrier_vlqAcc (i : Nat) (xs : List CodeUnit) : (s.writeCarrier i xs).vlqAcc = s.vlqAcc := rfl
@[simp] theorem writeCarrier_vlqStat (i : Nat) (xs : List CodeUnit) : (s.writeCarrier i xs).vlqStat = s.vlqStat := rfl
@[simp] theorem writeCarrier_lutOut (i : Nat) (xs : List CodeUnit) : (s.writeCarrier i xs).lutOut = s.lutOut := rfl
@[simp] theorem writeCarrier_carrierLen (i : Nat) (xs : List CodeUnit) :
    (s.writeCarrier i xs).carrierLen = s.carrierLen := rfl
@[simp] theorem writeCarrier_streamLen (i : Nat) (xs : List CodeUnit) :
    (s.writeCarrier i xs).streamLen = s.streamLen := rfl
@[simp] theorem writeCarrier_coverLen (i : Nat) (xs : List CodeUnit) :
    (s.writeCarrier i xs).coverLen = s.coverLen := rfl
@[simp] theorem writeCarrier_runCount (i : Nat) (xs : List CodeUnit) :
    (s.writeCarrier i xs).runCount = s.runCount := rfl
@[simp] theorem writeCarrier_resultCount (i : Nat) (xs : List CodeUnit) :
    (s.writeCarrier i xs).resultCount = s.resultCount := rfl
@[simp] theorem writeCarrier_xtrHead (i : Nat) (xs : List CodeUnit) : (s.writeCarrier i xs).xtrHead = s.xtrHead := rfl
@[simp] theorem writeCarrier_xtrRunHead (i : Nat) (xs : List CodeUnit) :
    (s.writeCarrier i xs).xtrRunHead = s.xtrRunHead := rfl
@[simp] theorem writeCarrier_fr (i : Nat) (xs : List CodeUnit) : (s.writeCarrier i xs).fr = s.fr := rfl
@[simp] theorem writeCarrier_mem (i : Nat) (xs : List CodeUnit) :
    (s.writeCarrier i xs).mem = { s.mem with carrier := s.mem.carrier.write i xs } := rfl
@[simp] theorem writeCarrier_inputs (i : Nat) (xs : List CodeUnit) : (s.writeCarrier i xs).inputs = s.inputs := rfl
@[simp] theorem writeCarrier_replies (i : Nat) (xs : List CodeUnit) : (s.writeCarrier i xs).replies = s.replies := rfl

/-! ### State.writeCover -/

@[simp] theorem writeCover_params (i : Nat) (xs : List CodeUnit) : (s.writeCover i xs).params = s.params := rfl
@[simp] theorem writeCover_pend (i : Nat) (xs : List CodeUnit) : (s.writeCover i xs).pend = s.pend := rfl
@[simp] theorem writeCover_status (i : Nat) (xs : List CodeUnit) : (s.writeCover i xs).status = s.status := rfl
@[simp] theorem writeCover_crcState (i : Nat) (xs : List CodeUnit) : (s.writeCover i xs).crcState = s.crcState := rfl
@[simp] theorem writeCover_crcStart (i : Nat) (xs : List CodeUnit) : (s.writeCover i xs).crcStart = s.crcStart := rfl
@[simp] theorem writeCover_crcLen (i : Nat) (xs : List CodeUnit) : (s.writeCover i xs).crcLen = s.crcLen := rfl
@[simp] theorem writeCover_vlqAcc (i : Nat) (xs : List CodeUnit) : (s.writeCover i xs).vlqAcc = s.vlqAcc := rfl
@[simp] theorem writeCover_vlqStat (i : Nat) (xs : List CodeUnit) : (s.writeCover i xs).vlqStat = s.vlqStat := rfl
@[simp] theorem writeCover_lutOut (i : Nat) (xs : List CodeUnit) : (s.writeCover i xs).lutOut = s.lutOut := rfl
@[simp] theorem writeCover_carrierLen (i : Nat) (xs : List CodeUnit) :
    (s.writeCover i xs).carrierLen = s.carrierLen := rfl
@[simp] theorem writeCover_streamLen (i : Nat) (xs : List CodeUnit) :
    (s.writeCover i xs).streamLen = s.streamLen := rfl
@[simp] theorem writeCover_coverLen (i : Nat) (xs : List CodeUnit) : (s.writeCover i xs).coverLen = s.coverLen := rfl
@[simp] theorem writeCover_runCount (i : Nat) (xs : List CodeUnit) : (s.writeCover i xs).runCount = s.runCount := rfl
@[simp] theorem writeCover_resultCount (i : Nat) (xs : List CodeUnit) :
    (s.writeCover i xs).resultCount = s.resultCount := rfl
@[simp] theorem writeCover_xtrHead (i : Nat) (xs : List CodeUnit) : (s.writeCover i xs).xtrHead = s.xtrHead := rfl
@[simp] theorem writeCover_xtrRunHead (i : Nat) (xs : List CodeUnit) :
    (s.writeCover i xs).xtrRunHead = s.xtrRunHead := rfl
@[simp] theorem writeCover_fr (i : Nat) (xs : List CodeUnit) : (s.writeCover i xs).fr = s.fr := rfl
@[simp] theorem writeCover_mem (i : Nat) (xs : List CodeUnit) :
    (s.writeCover i xs).mem = { s.mem with cover := s.mem.cover.write i xs } := rfl
@[simp] theorem writeCover_inputs (i : Nat) (xs : List CodeUnit) : (s.writeCover i xs).inputs = s.inputs := rfl
@[simp] theorem writeCover_replies (i : Nat) (xs : List CodeUnit) : (s.writeCover i xs).replies = s.replies := rfl

/-! ### State.writeStream -/

@[simp] theorem writeStream_params (i : Nat) (xs : List Byte) : (s.writeStream i xs).params = s.params := rfl
@[simp] theorem writeStream_pend (i : Nat) (xs : List Byte) : (s.writeStream i xs).pend = s.pend := rfl
@[simp] theorem writeStream_status (i : Nat) (xs : List Byte) : (s.writeStream i xs).status = s.status := rfl
@[simp] theorem writeStream_crcState (i : Nat) (xs : List Byte) : (s.writeStream i xs).crcState = s.crcState := rfl
@[simp] theorem writeStream_crcStart (i : Nat) (xs : List Byte) : (s.writeStream i xs).crcStart = s.crcStart := rfl
@[simp] theorem writeStream_crcLen (i : Nat) (xs : List Byte) : (s.writeStream i xs).crcLen = s.crcLen := rfl
@[simp] theorem writeStream_vlqAcc (i : Nat) (xs : List Byte) : (s.writeStream i xs).vlqAcc = s.vlqAcc := rfl
@[simp] theorem writeStream_vlqStat (i : Nat) (xs : List Byte) : (s.writeStream i xs).vlqStat = s.vlqStat := rfl
@[simp] theorem writeStream_lutOut (i : Nat) (xs : List Byte) : (s.writeStream i xs).lutOut = s.lutOut := rfl
@[simp] theorem writeStream_carrierLen (i : Nat) (xs : List Byte) :
    (s.writeStream i xs).carrierLen = s.carrierLen := rfl
@[simp] theorem writeStream_streamLen (i : Nat) (xs : List Byte) : (s.writeStream i xs).streamLen = s.streamLen := rfl
@[simp] theorem writeStream_coverLen (i : Nat) (xs : List Byte) : (s.writeStream i xs).coverLen = s.coverLen := rfl
@[simp] theorem writeStream_runCount (i : Nat) (xs : List Byte) : (s.writeStream i xs).runCount = s.runCount := rfl
@[simp] theorem writeStream_resultCount (i : Nat) (xs : List Byte) :
    (s.writeStream i xs).resultCount = s.resultCount := rfl
@[simp] theorem writeStream_xtrHead (i : Nat) (xs : List Byte) : (s.writeStream i xs).xtrHead = s.xtrHead := rfl
@[simp] theorem writeStream_xtrRunHead (i : Nat) (xs : List Byte) :
    (s.writeStream i xs).xtrRunHead = s.xtrRunHead := rfl
@[simp] theorem writeStream_fr (i : Nat) (xs : List Byte) : (s.writeStream i xs).fr = s.fr := rfl
@[simp] theorem writeStream_mem (i : Nat) (xs : List Byte) :
    (s.writeStream i xs).mem = { s.mem with stream := s.mem.stream.write i xs } := rfl
@[simp] theorem writeStream_inputs (i : Nat) (xs : List Byte) : (s.writeStream i xs).inputs = s.inputs := rfl
@[simp] theorem writeStream_replies (i : Nat) (xs : List Byte) : (s.writeStream i xs).replies = s.replies := rfl

/-! ### State.writeRunlen -/

@[simp] theorem writeRunlen_params (i : Nat) (xs : List Word) : (s.writeRunlen i xs).params = s.params := rfl
@[simp] theorem writeRunlen_pend (i : Nat) (xs : List Word) : (s.writeRunlen i xs).pend = s.pend := rfl
@[simp] theorem writeRunlen_status (i : Nat) (xs : List Word) : (s.writeRunlen i xs).status = s.status := rfl
@[simp] theorem writeRunlen_crcState (i : Nat) (xs : List Word) : (s.writeRunlen i xs).crcState = s.crcState := rfl
@[simp] theorem writeRunlen_crcStart (i : Nat) (xs : List Word) : (s.writeRunlen i xs).crcStart = s.crcStart := rfl
@[simp] theorem writeRunlen_crcLen (i : Nat) (xs : List Word) : (s.writeRunlen i xs).crcLen = s.crcLen := rfl
@[simp] theorem writeRunlen_vlqAcc (i : Nat) (xs : List Word) : (s.writeRunlen i xs).vlqAcc = s.vlqAcc := rfl
@[simp] theorem writeRunlen_vlqStat (i : Nat) (xs : List Word) : (s.writeRunlen i xs).vlqStat = s.vlqStat := rfl
@[simp] theorem writeRunlen_lutOut (i : Nat) (xs : List Word) : (s.writeRunlen i xs).lutOut = s.lutOut := rfl
@[simp] theorem writeRunlen_carrierLen (i : Nat) (xs : List Word) :
    (s.writeRunlen i xs).carrierLen = s.carrierLen := rfl
@[simp] theorem writeRunlen_streamLen (i : Nat) (xs : List Word) : (s.writeRunlen i xs).streamLen = s.streamLen := rfl
@[simp] theorem writeRunlen_coverLen (i : Nat) (xs : List Word) : (s.writeRunlen i xs).coverLen = s.coverLen := rfl
@[simp] theorem writeRunlen_runCount (i : Nat) (xs : List Word) : (s.writeRunlen i xs).runCount = s.runCount := rfl
@[simp] theorem writeRunlen_resultCount (i : Nat) (xs : List Word) :
    (s.writeRunlen i xs).resultCount = s.resultCount := rfl
@[simp] theorem writeRunlen_xtrHead (i : Nat) (xs : List Word) : (s.writeRunlen i xs).xtrHead = s.xtrHead := rfl
@[simp] theorem writeRunlen_xtrRunHead (i : Nat) (xs : List Word) :
    (s.writeRunlen i xs).xtrRunHead = s.xtrRunHead := rfl
@[simp] theorem writeRunlen_fr (i : Nat) (xs : List Word) : (s.writeRunlen i xs).fr = s.fr := rfl
@[simp] theorem writeRunlen_mem (i : Nat) (xs : List Word) :
    (s.writeRunlen i xs).mem = { s.mem with runlen := s.mem.runlen.write i xs } := rfl
@[simp] theorem writeRunlen_inputs (i : Nat) (xs : List Word) : (s.writeRunlen i xs).inputs = s.inputs := rfl
@[simp] theorem writeRunlen_replies (i : Nat) (xs : List Word) : (s.writeRunlen i xs).replies = s.replies := rfl

/-! ### State.writeResult -/

@[simp] theorem writeResult_params (i : Nat) (xs : List Record) : (s.writeResult i xs).params = s.params := rfl
@[simp] theorem writeResult_pend (i : Nat) (xs : List Record) : (s.writeResult i xs).pend = s.pend := rfl
@[simp] theorem writeResult_status (i : Nat) (xs : List Record) : (s.writeResult i xs).status = s.status := rfl
@[simp] theorem writeResult_crcState (i : Nat) (xs : List Record) : (s.writeResult i xs).crcState = s.crcState := rfl
@[simp] theorem writeResult_crcStart (i : Nat) (xs : List Record) : (s.writeResult i xs).crcStart = s.crcStart := rfl
@[simp] theorem writeResult_crcLen (i : Nat) (xs : List Record) : (s.writeResult i xs).crcLen = s.crcLen := rfl
@[simp] theorem writeResult_vlqAcc (i : Nat) (xs : List Record) : (s.writeResult i xs).vlqAcc = s.vlqAcc := rfl
@[simp] theorem writeResult_vlqStat (i : Nat) (xs : List Record) : (s.writeResult i xs).vlqStat = s.vlqStat := rfl
@[simp] theorem writeResult_lutOut (i : Nat) (xs : List Record) : (s.writeResult i xs).lutOut = s.lutOut := rfl
@[simp] theorem writeResult_carrierLen (i : Nat) (xs : List Record) :
    (s.writeResult i xs).carrierLen = s.carrierLen := rfl
@[simp] theorem writeResult_streamLen (i : Nat) (xs : List Record) :
    (s.writeResult i xs).streamLen = s.streamLen := rfl
@[simp] theorem writeResult_coverLen (i : Nat) (xs : List Record) : (s.writeResult i xs).coverLen = s.coverLen := rfl
@[simp] theorem writeResult_runCount (i : Nat) (xs : List Record) : (s.writeResult i xs).runCount = s.runCount := rfl
@[simp] theorem writeResult_resultCount (i : Nat) (xs : List Record) :
    (s.writeResult i xs).resultCount = s.resultCount := rfl
@[simp] theorem writeResult_xtrHead (i : Nat) (xs : List Record) : (s.writeResult i xs).xtrHead = s.xtrHead := rfl
@[simp] theorem writeResult_xtrRunHead (i : Nat) (xs : List Record) :
    (s.writeResult i xs).xtrRunHead = s.xtrRunHead := rfl
@[simp] theorem writeResult_fr (i : Nat) (xs : List Record) : (s.writeResult i xs).fr = s.fr := rfl
@[simp] theorem writeResult_mem (i : Nat) (xs : List Record) :
    (s.writeResult i xs).mem = { s.mem with result := s.mem.result.write i xs } := rfl
@[simp] theorem writeResult_inputs (i : Nat) (xs : List Record) : (s.writeResult i xs).inputs = s.inputs := rfl
@[simp] theorem writeResult_replies (i : Nat) (xs : List Record) : (s.writeResult i xs).replies = s.replies := rfl

/-! ### State.reply -/

@[simp] theorem reply_params (v : Word) : (s.reply v).params = s.params := rfl
@[simp] theorem reply_pend (v : Word) : (s.reply v).pend = s.pend := rfl
@[simp] theorem reply_status (v : Word) : (s.reply v).status = s.status := rfl
@[simp] theorem reply_crcState (v : Word) : (s.reply v).crcState = s.crcState := rfl
@[simp] theorem reply_crcStart (v : Word) : (s.reply v).crcStart = s.crcStart := rfl
@[simp] theorem reply_crcLen (v : Word) : (s.reply v).crcLen = s.crcLen := rfl
@[simp] theorem reply_vlqAcc (v : Word) : (s.reply v).vlqAcc = s.vlqAcc := rfl
@[simp] theorem reply_vlqStat (v : Word) : (s.reply v).vlqStat = s.vlqStat := rfl
@[simp] theorem reply_lutOut (v : Word) : (s.reply v).lutOut = s.lutOut := rfl
@[simp] theorem reply_carrierLen (v : Word) : (s.reply v).carrierLen = s.carrierLen := rfl
@[simp] theorem reply_streamLen (v : Word) : (s.reply v).streamLen = s.streamLen := rfl
@[simp] theorem reply_coverLen (v : Word) : (s.reply v).coverLen = s.coverLen := rfl
@[simp] theorem reply_runCount (v : Word) : (s.reply v).runCount = s.runCount := rfl
@[simp] theorem reply_resultCount (v : Word) : (s.reply v).resultCount = s.resultCount := rfl
@[simp] theorem reply_xtrHead (v : Word) : (s.reply v).xtrHead = s.xtrHead := rfl
@[simp] theorem reply_xtrRunHead (v : Word) : (s.reply v).xtrRunHead = s.xtrRunHead := rfl
@[simp] theorem reply_fr (v : Word) : (s.reply v).fr = s.fr := rfl
@[simp] theorem reply_mem (v : Word) : (s.reply v).mem = s.mem := rfl
@[simp] theorem reply_inputs (v : Word) : (s.reply v).inputs = s.inputs := rfl
@[simp] theorem reply_replies (v : Word) : (s.reply v).replies = v :: s.replies := rfl

/-! ### State.putCover -/

@[simp] theorem putCover_params (us : List CodeUnit) : (s.putCover us).params = s.params := rfl
@[simp] theorem putCover_pend (us : List CodeUnit) : (s.putCover us).pend = s.pend := rfl
@[simp] theorem putCover_status (us : List CodeUnit) : (s.putCover us).status = s.status := rfl
@[simp] theorem putCover_crcState (us : List CodeUnit) : (s.putCover us).crcState = s.crcState := rfl
@[simp] theorem putCover_crcStart (us : List CodeUnit) : (s.putCover us).crcStart = s.crcStart := rfl
@[simp] theorem putCover_crcLen (us : List CodeUnit) : (s.putCover us).crcLen = s.crcLen := rfl
@[simp] theorem putCover_vlqAcc (us : List CodeUnit) : (s.putCover us).vlqAcc = s.vlqAcc := rfl
@[simp] theorem putCover_vlqStat (us : List CodeUnit) : (s.putCover us).vlqStat = s.vlqStat := rfl
@[simp] theorem putCover_lutOut (us : List CodeUnit) : (s.putCover us).lutOut = s.lutOut := rfl
@[simp] theorem putCover_carrierLen (us : List CodeUnit) : (s.putCover us).carrierLen = s.carrierLen := rfl
@[simp] theorem putCover_streamLen (us : List CodeUnit) : (s.putCover us).streamLen = s.streamLen := rfl
@[simp] theorem putCover_coverLen (us : List CodeUnit) : (s.putCover us).coverLen = BitVec.ofNat 32 us.length := rfl
@[simp] theorem putCover_runCount (us : List CodeUnit) : (s.putCover us).runCount = s.runCount := rfl
@[simp] theorem putCover_resultCount (us : List CodeUnit) : (s.putCover us).resultCount = s.resultCount := rfl
@[simp] theorem putCover_xtrHead (us : List CodeUnit) : (s.putCover us).xtrHead = s.xtrHead := rfl
@[simp] theorem putCover_xtrRunHead (us : List CodeUnit) : (s.putCover us).xtrRunHead = s.xtrRunHead := rfl
@[simp] theorem putCover_fr (us : List CodeUnit) : (s.putCover us).fr = s.fr := rfl
@[simp] theorem putCover_mem (us : List CodeUnit) :
    (s.putCover us).mem = { s.mem with cover := s.mem.cover.write 0 us } := rfl
@[simp] theorem putCover_inputs (us : List CodeUnit) : (s.putCover us).inputs = s.inputs := rfl
@[simp] theorem putCover_replies (us : List CodeUnit) : (s.putCover us).replies = s.replies := rfl

/-! ### State.putStream -/

@[simp] theorem putStream_params (bs : List Byte) (rs : List Nat) : (s.putStream bs rs).params = s.params := rfl
@[simp] theorem putStream_pend (bs : List Byte) (rs : List Nat) : (s.putStream bs rs).pend = s.pend := rfl
@[simp] theorem putStream_status (bs : List Byte) (rs : List Nat) : (s.putStream bs rs).status = s.status := rfl
@[simp] theorem putStream_crcState (bs : List Byte) (rs : List Nat) : (s.putStream bs rs).crcState = s.crcState := rfl
@[simp] theorem putStream_crcStart (bs : List Byte) (rs : List Nat) : (s.putStream bs rs).crcStart = s.crcStart := rfl
@[simp] theorem putStream_crcLen (bs : List Byte) (rs : List Nat) : (s.putStream bs rs).crcLen = s.crcLen := rfl
@[simp] theorem putStream_vlqAcc (bs : List Byte) (rs : List Nat) : (s.putStream bs rs).vlqAcc = s.vlqAcc := rfl
@[simp] theorem putStream_vlqStat (bs : List Byte) (rs : List Nat) : (s.putStream bs rs).vlqStat = s.vlqStat := rfl
@[simp] theorem putStream_lutOut (bs : List Byte) (rs : List Nat) : (s.putStream bs rs).lutOut = s.lutOut := rfl
@[simp] theorem putStream_carrierLen (bs : List Byte) (rs : List Nat) :
    (s.putStream bs rs).carrierLen = s.carrierLen := rfl
@[simp] theorem putStream_streamLen (bs : List Byte) (rs : List Nat) :
    (s.putStream bs rs).streamLen = BitVec.ofNat 32 bs.length := rfl
@[simp] theorem putStream_coverLen (bs : List Byte) (rs : List Nat) : (s.putStream bs rs).coverLen = s.coverLen := rfl
@[simp] theorem putStream_runCount (bs : List Byte) (rs : List Nat) :
    (s.putStream bs rs).runCount = BitVec.ofNat 32 rs.length := rfl
@[simp] theorem putStream_resultCount (bs : List Byte) (rs : List Nat) :
    (s.putStream bs rs).resultCount = s.resultCount := rfl
@[simp] theorem putStream_xtrHead (bs : List Byte) (rs : List Nat) : (s.putStream bs rs).xtrHead = s.xtrHead := rfl
@[simp] theorem putStream_xtrRunHead (bs : List Byte) (rs : List Nat) :
    (s.putStream bs rs).xtrRunHead = s.xtrRunHead := rfl
@[simp] theorem putStream_fr (bs : List Byte) (rs : List Nat) : (s.putStream bs rs).fr = s.fr := rfl
@[simp] theorem putStream_mem (bs : List Byte) (rs : List Nat) :
    (s.putStream bs rs).mem = { s.mem with stream := s.mem.stream.write 0 bs, runlen := s.mem.runlen.write 0 (rs.map (BitVec.ofNat 32)) } := rfl
@[simp] theorem putStream_inputs (bs : List Byte) (rs : List Nat) : (s.putStream bs rs).inputs = s.inputs := rfl
@[simp] theorem putStream_replies (bs : List Byte) (rs : List Nat) : (s.putStream bs rs).replies = s.replies := rfl

/-! ### State.emit -/

@[simp] theorem emit_params (r : Record) : (s.emit r).params = s.params := rfl
@[simp] theorem emit_pend (r : Record) : (s.emit r).pend = s.pend := rfl
@[simp] theorem emit_status (r : Record) : (s.emit r).status = s.status := rfl
@[simp] theorem emit_crcState (r : Record) : (s.emit r).crcState = s.crcState := rfl
@[simp] theorem emit_crcStart (r : Record) : (s.emit r).crcStart = s.crcStart := rfl
@[simp] theorem emit_crcLen (r : Record) : (s.emit r).crcLen = s.crcLen := rfl
@[simp] theorem emit_vlqAcc (r : Record) : (s.emit r).vlqAcc = s.vlqAcc := rfl
@[simp] theorem emit_vlqStat (r : Record) : (s.emit r).vlqStat = s.vlqStat := rfl
@[simp] theorem emit_lutOut (r : Record) : (s.emit r).lutOut = s.lutOut := rfl
@[simp] theorem emit_carrierLen (r : Record) : (s.emit r).carrierLen = s.carrierLen := rfl
@[simp] theorem emit_streamLen (r : Record) : (s.emit r).streamLen = s.streamLen := rfl
@[simp] theorem emit_coverLen (r : Record) : (s.emit r).coverLen = s.coverLen := rfl
@[simp] theorem emit_runCount (r : Record) : (s.emit r).runCount = s.runCount := rfl
@[simp] theorem emit_resultCount (r : Record) : (s.emit r).resultCount = s.resultCount + 1#32 := rfl
@[simp] theorem emit_xtrHead (r : Record) : (s.emit r).xtrHead = s.xtrHead := rfl
@[simp] theorem emit_xtrRunHead (r : Record) : (s.emit r).xtrRunHead = s.xtrRunHead := rfl
@[simp] theorem emit_fr (r : Record) : (s.emit r).fr = s.fr := rfl
@[simp] theorem emit_mem (r : Record) :
    (s.emit r).mem = { s.mem with result := s.mem.result.write s.resultCount.toNat [r] } := rfl
@[simp] theorem emit_inputs (r : Record) : (s.emit r).inputs = s.inputs := rfl
@[simp] theorem emit_replies (r : Record) : (s.emit r).replies = s.replies := rfl

/-! ### State.stopFull -/

@[simp] theorem stopFull_params : (s.stopFull).params = s.params := rfl
@[simp] theorem stopFull_pend : (s.stopFull).pend = s.pend := rfl
@[simp] theorem stopFull_status : (s.stopFull).status = { s.status with errOvf := true, xstate := .done } := rfl
@[simp] theorem stopFull_crcState : (s.stopFull).crcState = s.crcState := rfl
@[simp] theorem stopFull_crcStart : (s.stopFull).crcStart = s.crcStart := rfl
@[simp] theorem stopFull_crcLen : (s.stopFull).crcLen = s.crcLen := rfl
@[simp] theorem stopFull_vlqAcc : (s.stopFull).vlqAcc = s.vlqAcc := rfl
@[simp] theorem stopFull_vlqStat : (s.stopFull).vlqStat = s.vlqStat := rfl
@[simp] theorem stopFull_lutOut : (s.stopFull).lutOut = s.lutOut := rfl
@[simp] theorem stopFull_carrierLen : (s.stopFull).carrierLen = s.carrierLen := rfl
@[simp] theorem stopFull_streamLen : (s.stopFull).streamLen = s.streamLen := rfl
@[simp] theorem stopFull_coverLen : (s.stopFull).coverLen = s.coverLen := rfl
@[simp] theorem stopFull_runCount : (s.stopFull).runCount = s.runCount := rfl
@[simp] theorem stopFull_resultCount : (s.stopFull).resultCount = s.resultCount := rfl
@[simp] theorem stopFull_xtrHead : (s.stopFull).xtrHead = s.xtrHead := rfl
@[simp] theorem stopFull_xtrRunHead : (s.stopFull).xtrRunHead = s.xtrRunHead := rfl
@[simp] theorem stopFull_fr : (s.stopFull).fr = s.fr := rfl
@[simp] theorem stopFull_mem : (s.stopFull).mem = s.mem := rfl
@[simp] theorem stopFull_inputs : (s.stopFull).inputs = s.inputs := rfl
@[simp] theorem stopFull_replies : (s.stopFull).replies = s.replies := rfl

/-! ### The fields of STATUS -/

@[simp] theorem raise_status_done (e : Err) : (s.raise e).status.done = s.status.done := by cases e <;> rfl
@[simp] theorem raise_status_xstate (e : Err) : (s.raise e).status.xstate = s.status.xstate := by cases e <;> rfl
@[simp] theorem raise_illegal_status :
    (s.raise .illegal).status = { s.status with errIllegal := true } := rfl
@[simp] theorem raise_busy_status : (s.raise .busy).status = { s.status with errBusy := true } := rfl
@[simp] theorem raise_ovf_status : (s.raise .ovf).status = { s.status with errOvf := true } := rfl
@[simp] theorem raise_bus_status : (s.raise .bus).status = { s.status with errBus := true } := rfl
@[simp] theorem clearStatus_status_done (v : Word) :
    (s.clearStatus v).status.done = (s.status.done && !v.getLsbD 1) := rfl
@[simp] theorem clearStatus_status_errIllegal (v : Word) :
    (s.clearStatus v).status.errIllegal = (s.status.errIllegal && !v.getLsbD 2) := rfl
@[simp] theorem clearStatus_status_errBusy (v : Word) :
    (s.clearStatus v).status.errBusy = (s.status.errBusy && !v.getLsbD 3) := rfl
@[simp] theorem clearStatus_status_errOvf (v : Word) :
    (s.clearStatus v).status.errOvf = (s.status.errOvf && !v.getLsbD 4) := rfl
@[simp] theorem clearStatus_status_errBus (v : Word) :
    (s.clearStatus v).status.errBus = (s.status.errBus && !v.getLsbD 5) := rfl
@[simp] theorem clearStatus_status_xstate (v : Word) : (s.clearStatus v).status.xstate = s.status.xstate := rfl

/-! ### Reset -/

@[simp] theorem applyReset_params : s.applyReset.params = s.params := rfl
@[simp] theorem applyReset_pend : s.applyReset.pend = none := rfl
@[simp] theorem applyReset_status : s.applyReset.status = ⟨false, false, false, false, false, .start⟩ := rfl
@[simp] theorem applyReset_crcState : s.applyReset.crcState = 0xFFFFFFFF#32 := rfl
@[simp] theorem applyReset_crcStart : s.applyReset.crcStart = 0#32 := rfl
@[simp] theorem applyReset_crcLen : s.applyReset.crcLen = 0#32 := rfl
@[simp] theorem applyReset_vlqAcc : s.applyReset.vlqAcc = 0#32 := rfl
@[simp] theorem applyReset_vlqStat : s.applyReset.vlqStat = ⟨0#8, false, false, false⟩ := rfl
@[simp] theorem applyReset_lutOut : s.applyReset.lutOut = ⟨0#16, false⟩ := rfl
@[simp] theorem applyReset_carrierLen : s.applyReset.carrierLen = 0#32 := rfl
@[simp] theorem applyReset_streamLen : s.applyReset.streamLen = 0#32 := rfl
@[simp] theorem applyReset_coverLen : s.applyReset.coverLen = 0#32 := rfl
@[simp] theorem applyReset_runCount : s.applyReset.runCount = 0#32 := rfl
@[simp] theorem applyReset_resultCount : s.applyReset.resultCount = 0#32 := rfl
@[simp] theorem applyReset_xtrHead : s.applyReset.xtrHead = 0#32 := rfl
@[simp] theorem applyReset_xtrRunHead : s.applyReset.xtrRunHead = 0#32 := rfl
@[simp] theorem applyReset_fr : s.applyReset.fr = Record.zero := rfl
@[simp] theorem applyReset_mem : s.applyReset.mem = Memory.unwritten (s.mem.epoch + 1) := rfl
@[simp] theorem applyReset_inputs : s.applyReset.inputs = s.inputs := rfl
@[simp] theorem applyReset_replies : s.applyReset.replies = s.replies := rfl

end Sys2Proof.Machine
end

