-- ==== Sys2Proof/Laws/Memory.lean ====
section
/-! SUPPORT. Buffers: what a read gives after a write, that every write keeps the canonical form and stays below a
capacity, and how the host's words and the engine's elements follow. -/

namespace Sys2Proof.Machine

/-! ### One buffer -/

variable {α : Type}

theorem entries_fst_ge (start : Nat) (xs : List α) : ∀ e ∈ Buf.entries start xs, start ≤ e.1 := by
  induction xs generalizing start with
  | nil => simp [Buf.entries]
  | cons x xs ih =>
    intro e he
    rcases List.mem_cons.mp he with rfl | h
    · simp
    · exact Nat.le_of_succ_le (ih (start + 1) e h)

theorem entries_fst_lt (start : Nat) (xs : List α) : ∀ e ∈ Buf.entries start xs, e.1 < start + xs.length := by
  induction xs generalizing start with
  | nil => simp [Buf.entries]
  | cons x xs ih =>
    intro e he
    rcases List.mem_cons.mp he with rfl | h
    · simp
    · have := ih (start + 1) e h
      simp only [List.length_cons]; omega

theorem entries_snd_mem (start : Nat) (xs : List α) : ∀ e ∈ Buf.entries start xs, e.2 ∈ xs := by
  induction xs generalizing start with
  | nil => simp [Buf.entries]
  | cons x xs ih =>
    intro e he
    rcases List.mem_cons.mp he with rfl | h
    · simp
    · exact List.mem_cons_of_mem _ (ih (start + 1) e h)

theorem entries_wf (start : Nat) (xs : List α) : Buf.wf (Buf.entries start xs) := by
  induction xs generalizing start with
  | nil => simp [Buf.entries, Buf.wf]
  | cons x xs ih =>
    simp only [Buf.wf, Buf.entries, List.map_cons, List.pairwise_cons]
    refine ⟨fun i hi => ?_, ih (start + 1)⟩
    obtain ⟨e, he, rfl⟩ := List.mem_map.mp hi
    exact entries_fst_ge (start + 1) xs e he

/-- Where every element of a written buffer comes from. -/
theorem mem_write {b : Buf α} {start : Nat} {xs : List α} {e : Nat × α} (h : e ∈ b.write start xs) :
    e ∈ b ∨ (start ≤ e.1 ∧ e.1 < start + xs.length ∧ e.2 ∈ xs) := by
  simp only [Buf.write, List.mem_append, List.mem_filter] at h
  rcases h with (h | h) | h
  · exact .inl h.1
  · exact .inr ⟨entries_fst_ge _ _ _ h, entries_fst_lt _ _ _ h, entries_snd_mem _ _ _ h⟩
  · exact .inl h.1

theorem filter_wf {b : Buf α} (h : b.wf) (q : Nat × α → Bool) : Buf.wf (b.filter q) :=
  List.Pairwise.sublist (List.Sublist.map _ List.filter_sublist) h

/-- A write keeps the canonical form. -/
theorem write_wf {b : Buf α} (h : b.wf) (start : Nat) (xs : List α) : (b.write start xs).wf := by
  have cross : ∀ (l r : Buf α), l.wf → r.wf → (∀ x ∈ l, ∀ y ∈ r, x.1 < y.1) → Buf.wf (l ++ r) := by
    intro l r hl hr hx
    simp only [Buf.wf, List.map_append, List.pairwise_append]
    refine ⟨hl, hr, ?_⟩
    intro i hi j hj
    obtain ⟨x, hx', rfl⟩ := List.mem_map.mp hi
    obtain ⟨y, hy', rfl⟩ := List.mem_map.mp hj
    exact hx x hx' y hy'
  refine cross _ _ (cross _ _ (filter_wf h _) (entries_wf start xs) ?_) (filter_wf h _) ?_
  · intro x hx y hy
    have h1 : x.1 < start := by simpa [Nat.blt] using (List.mem_filter.mp hx).2
    exact Nat.lt_of_lt_of_le h1 (entries_fst_ge _ _ _ hy)
  · intro x hx y hy
    have h2 : start + xs.length ≤ y.1 := by simpa using (List.mem_filter.mp hy).2
    rcases List.mem_append.mp hx with h | h
    · have h1 : x.1 < start := by simpa [Nat.blt] using (List.mem_filter.mp h).2
      omega
    · exact Nat.lt_of_lt_of_le (entries_fst_lt _ _ _ h) h2

/-- A write below a capacity stays below it. -/
theorem write_below {b : Buf α} {cap : Nat} (h : b.below cap) {start : Nat} {xs : List α}
    (hw : start + xs.length ≤ cap) : (b.write start xs).below cap := by
  intro e he
  rcases mem_write he with h' | h'
  · exact h e h'
  · omega

theorem at?_append (l r : Buf α) (i : Nat) : Buf.at? (l ++ r) i = (Buf.at? l i).or (Buf.at? r i) := by
  induction l with
  | nil => simp [Buf.at?]
  | cons e l ih =>
    obtain ⟨j, v⟩ := e
    simp only [List.cons_append, Buf.at?]
    split <;> simp [ih]

theorem at?_filter (b : Buf α) (q : Nat → Bool) (i : Nat) :
    Buf.at? (b.filter (fun e => q e.1)) i = if q i then b.at? i else none := by
  induction b with
  | nil => simp [Buf.at?]
  | cons e b ih =>
    obtain ⟨j, v⟩ := e
    by_cases hj : q j
    · by_cases hi : i = j
      · subst hi; simp [hj, Buf.at?]
      · simp [hj, Buf.at?, hi, ih]
    · by_cases hi : i = j
      · subst hi; simp [hj, ih]
      · simp [hj, Buf.at?, hi, ih]

theorem at?_entries (start : Nat) (xs : List α) (i : Nat) :
    Buf.at? (Buf.entries start xs) i = if start ≤ i then xs[i - start]? else none := by
  induction xs generalizing start with
  | nil => simp [Buf.entries, Buf.at?]
  | cons x xs ih =>
    simp only [Buf.entries, Buf.at?]
    by_cases h : i = start
    · subst h; simp
    · rw [if_neg h, ih]
      by_cases h1 : start + 1 ≤ i
      · rw [if_pos h1, if_pos (by omega), show i - start = (i - (start + 1)) + 1 by omega]
        simp
      · rw [if_neg h1, if_neg (by omega)]

/-- What a read gives after a write: the new element inside the range, the old one outside it. -/
theorem at?_write (b : Buf α) (start : Nat) (xs : List α) (i : Nat) :
    (b.write start xs).at? i = if start ≤ i ∧ i < start + xs.length then xs[i - start]? else b.at? i := by
  have f1 := at?_filter b (fun j => Nat.blt j start) i
  have f2 := at?_filter b (fun j => Nat.ble (start + xs.length) j) i
  simp only [Buf.write, at?_append, at?_entries]
  rw [f1, f2]
  by_cases h1 : i < start
  · have : ¬ start ≤ i := by omega
    have hb : Nat.blt i start = true := by simpa [Nat.blt] using h1
    have hc : Nat.ble (start + xs.length) i = false := by
      cases h : Nat.ble (start + xs.length) i with
      | false => rfl
      | true => have := Nat.le_of_ble_eq_true h; omega
    simp [hb, hc, this]
  · have hb : Nat.blt i start = false := by
      cases h : Nat.blt i start with
      | false => rfl
      | true => have : i < start := by simpa [Nat.blt] using h
                omega
    have hs : start ≤ i := by omega
    by_cases h2 : i < start + xs.length
    · have : xs[i - start]? = some (xs[i - start]'(by omega)) := List.getElem?_eq_getElem (by omega)
      simp [hb, hs, h2, this]
    · have hc : Nat.ble (start + xs.length) i = true := Nat.ble_eq_true_of_le (by omega)
      have hn : xs[i - start]? = none := List.getElem?_eq_none (by omega)
      simp [hb, hs, h2, hc, hn]

theorem at?_write_inside {b : Buf α} {start : Nat} {xs : List α} {k : Nat} (h : k < xs.length) :
    (b.write start xs).at? (start + k) = some xs[k] := by
  rw [at?_write, if_pos (by omega), show start + k - start = k by omega, List.getElem?_eq_getElem h]

theorem at?_write_outside {b : Buf α} {start : Nat} {xs : List α} {i : Nat}
    (h : i < start ∨ start + xs.length ≤ i) : (b.write start xs).at? i = b.at? i := by
  rw [at?_write, if_neg (by omega)]

theorem at?_write_one (b : Buf α) (j i : Nat) (x : α) :
    (b.write j [x]).at? i = if i = j then some x else b.at? i := by
  rw [at?_write]
  by_cases h : i = j
  · subst h; simp
  · rw [if_neg (by simp; omega), if_neg h]

/-! ### The elements of the five buffers after a write -/

@[simp] theorem carrierAt_write_inside {m : Memory} {xs : List CodeUnit} {start k : Nat} (h : k < xs.length) :
    Memory.carrierAt { m with carrier := m.carrier.write start xs } (start + k) = xs[k] := by
  simp [Memory.carrierAt, at?_write_inside h]

@[simp] theorem coverAt_write_inside {m : Memory} {xs : List CodeUnit} {start k : Nat} (h : k < xs.length) :
    Memory.coverAt { m with cover := m.cover.write start xs } (start + k) = xs[k] := by
  simp [Memory.coverAt, at?_write_inside h]

@[simp] theorem streamAt_write_inside {m : Memory} {xs : List Byte} {start k : Nat} (h : k < xs.length) :
    Memory.streamAt { m with stream := m.stream.write start xs } (start + k) = xs[k] := by
  simp [Memory.streamAt, at?_write_inside h]

@[simp] theorem runlenAt_write_inside {m : Memory} {xs : List Word} {start k : Nat} (h : k < xs.length) :
    Memory.runlenAt { m with runlen := m.runlen.write start xs } (start + k) = xs[k] := by
  simp [Memory.runlenAt, at?_write_inside h]

theorem runlenAt_write_one (m : Memory) (j i : Nat) (x : Word) :
    Memory.runlenAt { m with runlen := m.runlen.write j [x] } i = if i = j then x else m.runlenAt i := by
  simp only [Memory.runlenAt, at?_write_one]
  split <;> simp

theorem resultAt_write_one (m : Memory) (j i : Nat) (x : Record) :
    Memory.resultAt { m with result := m.result.write j [x] } i = if i = j then x else m.resultAt i := by
  simp only [Memory.resultAt, at?_write_one]
  split <;> simp

/-! ### The words outside a write, and inside other windows, stay -/

theorem carrier_write_same (m : Memory) (start : Nat) (xs : List CodeUnit) :
    MemorySameOutside (fun b i => b = .carrier ∧ start ≤ i ∧ i < start + xs.length) m
      { m with carrier := m.carrier.write start xs } := by
  intro b i h
  cases b <;> simp only [Memory.word, Memory.carrierAt, Memory.coverAt, Memory.streamAt, Memory.runlenAt,
    Memory.resultAt]
  rw [at?_write_outside]
  simp only [true_and] at h; omega

theorem cover_write_same (m : Memory) (start : Nat) (xs : List CodeUnit) :
    MemorySameOutside (fun b i => b = .cover ∧ start ≤ i ∧ i < start + xs.length) m
      { m with cover := m.cover.write start xs } := by
  intro b i h
  cases b <;> simp only [Memory.word, Memory.carrierAt, Memory.coverAt, Memory.streamAt, Memory.runlenAt,
    Memory.resultAt]
  rw [at?_write_outside]
  simp only [true_and] at h; omega

theorem stream_write_same (m : Memory) (start : Nat) (xs : List Byte) :
    MemorySameOutside (fun b i => b = .stream ∧ start ≤ i ∧ i < start + xs.length) m
      { m with stream := m.stream.write start xs } := by
  intro b i h
  cases b <;> simp only [Memory.word, Memory.carrierAt, Memory.coverAt, Memory.streamAt, Memory.runlenAt,
    Memory.resultAt]
  rw [at?_write_outside]
  simp only [true_and] at h; omega

theorem runlen_write_same (m : Memory) (start : Nat) (xs : List Word) :
    MemorySameOutside (fun b i => b = .runlen ∧ start ≤ i ∧ i < start + xs.length) m
      { m with runlen := m.runlen.write start xs } := by
  intro b i h
  cases b <;> simp only [Memory.word, Memory.carrierAt, Memory.coverAt, Memory.streamAt, Memory.runlenAt,
    Memory.resultAt]
  rw [at?_write_outside]
  simp only [true_and] at h; omega

theorem result_write_same (m : Memory) (start : Nat) (xs : List Record) :
    MemorySameOutside (fun b i => b = .result ∧ start ≤ i / 8 ∧ i / 8 < start + xs.length) m
      { m with result := m.result.write start xs } := by
  intro b i h
  cases b <;> simp only [Memory.word, Memory.carrierAt, Memory.coverAt, Memory.streamAt, Memory.runlenAt,
    Memory.resultAt]
  rw [at?_write_outside]
  simp only [true_and] at h; omega

theorem memorySame_refl (q : BufId → Nat → Prop) (m : Memory) : MemorySameOutside q m m := fun _ _ _ => rfl

theorem memorySame_trans {q r : BufId → Nat → Prop} {a b c : Memory} (h1 : MemorySameOutside q a b)
    (h2 : MemorySameOutside r b c) : MemorySameOutside (fun w i => q w i ∨ r w i) a c :=
  fun w i h => (h2 w i (fun hr => h (.inr hr))).trans (h1 w i (fun hq => h (.inl hq)))

theorem memorySame_weaken {q r : BufId → Nat → Prop} {a b : Memory} (h : MemorySameOutside q a b)
    (hq : ∀ w i, q w i → r w i) : MemorySameOutside r a b := fun w i hn => h w i (fun h' => hn (hq w i h'))

/-! ### The canonical form of the memory -/

theorem unwritten_wf (epoch : Nat) : (Memory.unwritten epoch).wf := by
  simp [Memory.wf, Memory.unwritten, Buf.wf]

theorem writeCarrier_wf {s : State} (h : s.mem.wf) (i : Nat) (xs : List CodeUnit) : (s.writeCarrier i xs).mem.wf :=
  ⟨write_wf h.1 i xs, h.2⟩

theorem writeCover_wf {s : State} (h : s.mem.wf) (i : Nat) (xs : List CodeUnit) : (s.writeCover i xs).mem.wf :=
  ⟨h.1, write_wf h.2.1 i xs, h.2.2⟩

theorem writeStream_wf {s : State} (h : s.mem.wf) (i : Nat) (xs : List Byte) : (s.writeStream i xs).mem.wf :=
  ⟨h.1, h.2.1, write_wf h.2.2.1 i xs, h.2.2.2⟩

theorem writeRunlen_wf {s : State} (h : s.mem.wf) (i : Nat) (xs : List Word) : (s.writeRunlen i xs).mem.wf :=
  ⟨h.1, h.2.1, h.2.2.1, write_wf h.2.2.2.1 i xs, h.2.2.2.2⟩

theorem writeResult_wf {s : State} (h : s.mem.wf) (i : Nat) (xs : List Record) : (s.writeResult i xs).mem.wf :=
  ⟨h.1, h.2.1, h.2.2.1, h.2.2.2.1, write_wf h.2.2.2.2 i xs⟩

end Sys2Proof.Machine
end

