-- ==== Sys2Proof/Laws/Bus.lean ====
section
/-! SUPPORT. Host accesses: which target an offset names, and what one access does, said once. -/

namespace Sys2Proof.Machine

/-! ### Targets -/

theorem mem_allRegs (r : Reg) : r ∈ allRegs := by cases r <;> decide

theorem regAt_offset (r : Reg) : regAt r.offset = some r := by cases r <;> decide +kernel

/-- A register is reached at its own offset. -/
@[simp] theorem decodeOffset_reg (p : Params) (r : Reg) : decodeOffset p r.offset = .reg r := by
  have h : r.offset.toNat < 0x100000 := by cases r <;> decide
  simp only [decodeOffset, h, if_true, regAt_offset]

/-- Only the 26 registers are mapped below the windows (R62). -/
theorem regAt_eq_none {off : Word} (h : 0x068 ≤ off.toNat) : regAt off = none := by
  unfold regAt
  rw [List.find?_eq_none]
  intro r _ hr
  have hle : r.offset.toNat < 0x068 := by cases r <;> decide
  rw [beq_iff_eq.mp hr] at hle
  omega

theorem wordOffset_toNat (b : BufId) {k : Nat} (h : k < 262144) :
    (wordOffset b k).toNat = windowBase b + 4 * k := by
  have hb : windowBase b ≤ 0x500000 := by cases b <;> decide
  simp only [wordOffset, BitVec.toNat_ofNat]
  exact Nat.mod_eq_of_lt (by omega)

/-- What the offset of a window word names (R63, R65). -/
theorem decodeOffset_word (p : Params) (b : BufId) {k : Nat} (h : k < 262144) :
    decodeOffset p (wordOffset b k) = if k < windowWords p b then .elem b k else .beyond := by
  have hn := wordOffset_toNat b h
  have hi : (windowBase b + 4 * k - windowBase b) / 4 = k := by omega
  cases b <;> simp only [windowBase] at hn hi <;>
    simp (disch := omega) only [decodeOffset, hn, windowTarget, windowBase, if_neg, if_pos, hi]

/-- Past the last register below the windows, and past the windows, nothing is mapped (R66). -/
theorem decodeOffset_unmapped (p : Params) {off : Word}
    (h : 0x068 ≤ off.toNat ∧ off.toNat < 0x100000 ∨ 0x600000 ≤ off.toNat) : decodeOffset p off = .unmapped := by
  unfold decodeOffset
  dsimp only
  rcases h with h | h
  · rw [if_pos h.2, regAt_eq_none h.1]
  · rw [if_neg (by omega), if_neg (by omega), if_neg (by omega), if_neg (by omega), if_neg (by omega),
      if_neg (by omega)]

/-- A legal configuration's windows are no longer than their 1 MiB. -/
theorem windowWords_le {p : Params} (h : p.legal = true) (b : BufId) : windowWords p b ≤ 262144 := by
  simp only [Params.legal, Bool.and_eq_true] at h
  have h1 := Nat.le_of_ble_eq_true h.1.1.2
  have h2 := Nat.le_of_ble_eq_true h.2
  cases b <;> simp only [windowWords, maxStream, maxRuns] <;> omega

/-! ### Alignment -/

theorem lowBits_zero {off : Word} : off.extractLsb' 0 2 = 0#2 ↔ off.toNat % 4 = 0 := by
  rw [← BitVec.toNat_inj]
  simp [BitVec.extractLsb'_toNat]

theorem aligned_iff (a : Access) : a.aligned = true ↔ a.size = 4 ∧ a.off.toNat % 4 = 0 := by
  simp only [Access.aligned, Bool.and_eq_true, beq_iff_eq, lowBits_zero]

theorem regOffset_aligned (r : Reg) : r.offset.toNat % 4 = 0 := by cases r <;> decide

theorem wordOffset_aligned (b : BufId) {k : Nat} (h : k < 262144) : (wordOffset b k).toNat % 4 = 0 := by
  rw [wordOffset_toNat b h]
  cases b <;> simp only [windowBase] <;> omega

/-- What an offset can name: a register, an existing word of a window, or nothing. -/
theorem decodeOffset_cases (p : Params) (off : Word) :
    (∃ r, decodeOffset p off = .reg r) ∨ (∃ b k, k < windowWords p b ∧ decodeOffset p off = .elem b k)
      ∨ decodeOffset p off = .beyond ∨ decodeOffset p off = .unmapped := by
  have win : ∀ b n, (∃ k, k < windowWords p b ∧ windowTarget p b n = .elem b k) ∨ windowTarget p b n = .beyond := by
    intro b n
    unfold windowTarget
    dsimp only
    by_cases h : (n - windowBase b) / 4 < windowWords p b
    · exact .inl ⟨_, h, if_pos h⟩
    · exact .inr (if_neg h)
  have lift : ∀ b n t, t = windowTarget p b n → (∃ r, t = .reg r)
      ∨ (∃ b k, k < windowWords p b ∧ t = .elem b k) ∨ t = .beyond ∨ t = .unmapped := by
    rintro b n t rfl
    rcases win b n with ⟨k, hk, h⟩ | h
    · exact .inr (.inl ⟨b, k, hk, h⟩)
    · exact .inr (.inr (.inl h))
  unfold decodeOffset
  dsimp only
  split
  · cases regAt off with
    | none => exact .inr (.inr (.inr rfl))
    | some r => exact .inl ⟨r, rfl⟩
  split
  · exact lift .carrier _ _ rfl
  split
  · exact lift .cover _ _ rfl
  split
  · exact lift .stream _ _ rfl
  split
  · exact lift .runlen _ _ rfl
  split
  · exact lift .result _ _ rfl
  · exact .inr (.inr (.inr rfl))

/-! ### One access -/

/-- A read of an aligned word (R69, R76). -/
theorem hostRead_word (s : State) {off : Word} (h : off.toNat % 4 = 0) (d : Word) :
    s.hostRead ⟨.read, off, 4, d⟩ = s.answerRead (s.readTarget (decodeOffset s.params off)) :=
  if_pos ((aligned_iff _).mpr ⟨rfl, h⟩)

/-- A read of another width or alignment (R67). -/
theorem hostRead_bad (s : State) {a : Access} (h : a.size ≠ 4 ∨ a.off.toNat % 4 ≠ 0) :
    s.hostRead a = s.answerRead none :=
  if_neg (fun ha => by have := (aligned_iff a).mp ha; omega)

/-- BUSY turns a write away unless it is to STATUS. -/
theorem busyDrops_iff (s : State) (off : Word) :
    (s.busy && off != Reg.status.offset) = true ↔ s.pend ≠ none ∧ off ≠ 0x004#32 := by
  simp [State.busy, Reg.offset, Option.isSome_iff_ne_none]

/-- A write of another width or alignment, BUSY or not (R67, R226). -/
theorem hostWrite_bad (s : State) {a : Access} (h : a.size ≠ 4 ∨ a.off.toNat % 4 ≠ 0) :
    s.hostWrite a = s.raise .bus :=
  if_neg (fun ha => by have := (aligned_iff a).mp ha; omega)

/-- A write of an aligned word, but to STATUS, while BUSY = 1 (R216). -/
theorem hostWrite_busy (s : State) {a : Access} (ha : a.aligned = true) (hb : s.pend ≠ none)
    (ho : a.off ≠ 0x004#32) : s.hostWrite a = s.raise .busy := by
  unfold State.hostWrite
  rw [if_pos ha, if_pos ((busyDrops_iff _ _).mpr ⟨hb, ho⟩)]

/-- A write of an aligned word while BUSY = 0, or to STATUS (R226). -/
theorem hostWrite_idle (s : State) {a : Access} (ha : a.aligned = true) (hb : s.pend = none ∨ a.off = 0x004#32) :
    s.hostWrite a = (s.writeTarget (decodeOffset s.params a.off) a.data).getD (s.raise .bus) := by
  unfold State.hostWrite
  rw [if_pos ha, if_neg]
  rw [busyDrops_iff]
  rintro ⟨h1, h2⟩
  exact hb.elim h1 h2

/-- Everything a host write can do to the state, case by case (R226). -/
theorem hostWrite_cases (s : State) (a : Access) :
    s.hostWrite a = s.raise .bus ∨ s.hostWrite a = s.raise .busy ∧ s.pend ≠ none
      ∨ s.hostWrite a = s.clearStatus a.data
      ∨ (∃ r, s.pend = none ∧ s.writeReg r a.data = some (s.hostWrite a))
      ∨ ∃ b k, s.pend = none ∧ k < windowWords s.params b ∧ s.writeElem b k a.data = some (s.hostWrite a) := by
  by_cases ha : a.aligned = true
  case neg => exact .inl (if_neg ha)
  by_cases hst : a.off = 0x004#32
  · refine .inr (.inr (.inl ?_))
    rw [hostWrite_idle s ha (.inr hst), hst, show (0x004#32) = Reg.status.offset from rfl, decodeOffset_reg]
    rfl
  by_cases hb : s.pend = none
  case neg => exact .inr (.inl ⟨hostWrite_busy s ha hb hst, hb⟩)
  rw [hostWrite_idle s ha (.inl hb)]
  rcases decodeOffset_cases s.params a.off with ⟨r, h⟩ | ⟨b, k, hk, h⟩ | h | h
  · rw [h]
    cases hw : s.writeReg r a.data with
    | none => exact .inl (by simp [State.writeTarget, hw])
    | some t => exact .inr (.inr (.inr (.inl ⟨r, hb, by simp [State.writeTarget, hw]⟩)))
  · rw [h]
    cases hw : s.writeElem b k a.data with
    | none => exact .inl (by simp [State.writeTarget, hw])
    | some t => exact .inr (.inr (.inr (.inr ⟨b, k, hb, hk, by simp [State.writeTarget, hw]⟩)))
  · exact .inl (by rw [h]; rfl)
  · exact .inl (by rw [h]; rfl)

/-- Everything a host read can do to the state: a reply, and ERR_BUS where the read is bad (R67, R69). -/
theorem hostRead_cases (s : State) (a : Access) :
    (∃ v, s.hostRead a = s.reply v) ∨ s.hostRead a = (s.raise .bus).reply 0#32 := by
  unfold State.hostRead
  split
  · cases s.readTarget (decodeOffset s.params a.off) with
    | none => exact .inr rfl
    | some v => exact .inl ⟨v, rfl⟩
  · exact .inr rfl

end Sys2Proof.Machine
end

