-- ==== Sys2Proof/Laws/Decode.lean ====
section
/-! SUPPORT. The fields of a word that is written as OPC and OPERAND, and of any word taken apart into the two. -/

namespace Sys2Proof

theorem opcodeField_append (o : BitVec 8) (x : BitVec 24) : opcodeField (o ++ x) = o :=
  BitVec.extractLsb'_append_eq_left

theorem operandField_append (o : BitVec 8) (x : BitVec 24) : operandField (o ++ x) = x :=
  BitVec.extractLsb'_append_eq_right

/-- A field that lies inside OPERAND is a field of the operand. -/
theorem extract_operand (o : BitVec 8) (x : BitVec 24) (i n : Nat) (h : i + n ≤ 24) :
    BitVec.extractLsb' i n (o ++ x : BitVec 32) = x.extractLsb' i n :=
  BitVec.extractLsb'_append_eq_of_add_le h

theorem operandI4_append (o : BitVec 8) (v : Nibble) : operandI4 (o ++ (0#20 ++ v : BitVec 24)) = some v := by
  unfold operandI4
  rw [extract_operand _ _ _ _ (by omega), extract_operand _ _ _ _ (by omega)]
  erw [BitVec.extractLsb'_append_eq_left, BitVec.extractLsb'_append_eq_right]
  simp

theorem operandI8_append (o : BitVec 8) (b : Byte) : operandI8 (o ++ (0#16 ++ b : BitVec 24)) = some b := by
  unfold operandI8
  rw [extract_operand _ _ _ _ (by omega), extract_operand _ _ _ _ (by omega)]
  erw [BitVec.extractLsb'_append_eq_left, BitVec.extractLsb'_append_eq_right]
  simp

theorem operandI16_append (o : BitVec 8) (c : CodeUnit) : operandI16 (o ++ (0#8 ++ c : BitVec 24)) = some c := by
  unfold operandI16
  rw [extract_operand _ _ _ _ (by omega), extract_operand _ _ _ _ (by omega)]
  erw [BitVec.extractLsb'_append_eq_left, BitVec.extractLsb'_append_eq_right]
  simp

theorem operandM1_append (o : BitVec 8) (f : BitVec 1) : operandM1 (o ++ (0#23 ++ f : BitVec 24)) = some f := by
  unfold operandM1
  rw [extract_operand _ _ _ _ (by omega), extract_operand _ _ _ _ (by omega)]
  erw [BitVec.extractLsb'_append_eq_left, BitVec.extractLsb'_append_eq_right]
  simp

/-- A word is its OPC and its OPERAND (R86). -/
theorem word_eq_fields (w : Word) : w = opcodeField w ++ operandField w := by
  apply BitVec.eq_of_getLsbD_eq
  intro i hi
  rw [BitVec.getLsbD_append]
  by_cases h : i < 24
  · simp [operandField, h]
  · simp only [opcodeField, h, if_false, BitVec.getLsbD_extractLsb']
    rw [show 24 + (i - 24) = i by omega]
    simp [show i - 24 < 8 by omega]

/-- An operand is its high and its low part. -/
theorem operand_eq_parts {n m : Nat} (x : BitVec (n + m)) : x = x.extractLsb' m n ++ x.extractLsb' 0 m := by
  apply BitVec.eq_of_getLsbD_eq
  intro i hi
  rw [BitVec.getLsbD_append]
  by_cases h : i < m
  · simp [h]
  · simp only [h, if_false, BitVec.getLsbD_extractLsb']
    rw [show m + (i - m) = i by omega]
    simp [show i - m < n by omega]

/-- A field of the operand is the field of the word at the same place. -/
theorem extract_operandField (w : Word) (i n : Nat) (h : i + n ≤ 24) :
    (operandField w).extractLsb' i n = w.extractLsb' i n := by
  apply BitVec.eq_of_getLsbD_eq
  intro j hj
  simp [operandField, hj, show i + j < 24 by omega]

/-- What a word whose I4 operand is read holds as its operand: zeros and the immediate. -/
theorem operandI4_some {w : Word} {v : Nibble} (h : operandI4 w = some v) :
    operandField w = (0#20 ++ v : BitVec 24) := by
  unfold operandI4 at h
  split at h
  case isFalse => cases h
  case isTrue hz =>
    cases h
    have parts := operand_eq_parts (n := 20) (m := 4) (operandField w)
    rw [extract_operandField _ _ _ (by omega), extract_operandField _ _ _ (by omega), hz] at parts
    exact parts

/-- What a word whose I8 operand is read holds as its operand: zeros and the immediate. -/
theorem operandI8_some {w : Word} {b : Byte} (h : operandI8 w = some b) :
    operandField w = (0#16 ++ b : BitVec 24) := by
  unfold operandI8 at h
  split at h
  case isFalse => cases h
  case isTrue hz =>
    cases h
    have parts := operand_eq_parts (n := 16) (m := 8) (operandField w)
    rw [extract_operandField _ _ _ (by omega), extract_operandField _ _ _ (by omega), hz] at parts
    exact parts

/-- What a word whose I16 operand is read holds as its operand: zeros and the immediate. -/
theorem operandI16_some {w : Word} {c : CodeUnit} (h : operandI16 w = some c) :
    operandField w = (0#8 ++ c : BitVec 24) := by
  unfold operandI16 at h
  split at h
  case isFalse => cases h
  case isTrue hz =>
    cases h
    have parts := operand_eq_parts (n := 8) (m := 16) (operandField w)
    rw [extract_operandField _ _ _ (by omega), extract_operandField _ _ _ (by omega), hz] at parts
    exact parts

/-- What a word whose M1 operand is read holds as its operand: zeros and the immediate. -/
theorem operandM1_some {w : Word} {f : BitVec 1} (h : operandM1 w = some f) :
    operandField w = (0#23 ++ f : BitVec 24) := by
  unfold operandM1 at h
  split at h
  case isFalse => cases h
  case isTrue hz =>
    cases h
    have parts := operand_eq_parts (n := 23) (m := 1) (operandField w)
    rw [extract_operandField _ _ _ (by omega), extract_operandField _ _ _ (by omega), hz] at parts
    exact parts

/-! ### The row that an opcode selects -/

theorem decode_01 {w : Word} (h : opcodeField w = 0x01#8) :
    decode w = formatN w .crcInit := by
  unfold decode; rw [h]; rfl

theorem decode_02 {w : Word} (h : opcodeField w = 0x02#8) :
    decode w = formatOperand w (operandI8 w) .crcByte := by
  unfold decode; rw [h]; rfl

theorem decode_03 {w : Word} (h : opcodeField w = 0x03#8) :
    decode w = formatN w .crcBlock := by
  unfold decode; rw [h]; rfl

theorem decode_10 {w : Word} (h : opcodeField w = 0x10#8) :
    decode w = formatN w .vlqInit := by
  unfold decode; rw [h]; rfl

theorem decode_11 {w : Word} (h : opcodeField w = 0x11#8) :
    decode w = formatOperand w (operandI8 w) .vlqByte := by
  unfold decode; rw [h]; rfl

theorem decode_20 {w : Word} (h : opcodeField w = 0x20#8) :
    decode w = formatOperand w (operandI4 w) .lutN2c := by
  unfold decode; rw [h]; rfl

theorem decode_21 {w : Word} (h : opcodeField w = 0x21#8) :
    decode w = formatOperand w (operandI16 w) .lutC2n := by
  unfold decode; rw [h]; rfl

theorem decode_30 {w : Word} (h : opcodeField w = 0x30#8) :
    decode w = .ok (.frameParse (operandField w)) := by
  unfold decode; rw [h]; rfl

theorem decode_40 {w : Word} (h : opcodeField w = 0x40#8) :
    decode w = formatOperand w (operandM1 w) (fun f => if f = 1#1 then .filter else .scan) := by
  unfold decode; rw [h]; rfl

theorem decode_50 {w : Word} (h : opcodeField w = 0x50#8) :
    decode w = formatN w .xtrReset := by
  unfold decode; rw [h]; rfl

theorem decode_51 {w : Word} (h : opcodeField w = 0x51#8) :
    decode w = formatN w .xtrStep := by
  unfold decode; rw [h]; rfl

theorem decode_52 {w : Word} (h : opcodeField w = 0x52#8) :
    decode w = formatN w .xtrRun := by
  unfold decode; rw [h]; rfl

/-- R90: every other opcode is reserved. -/
theorem decode_other {w : Word} (h01 : opcodeField w ≠ 0x01#8) (h02 : opcodeField w ≠ 0x02#8) (h03 : opcodeField w ≠ 0x03#8) (h10 :
    opcodeField w ≠ 0x10#8) (h11 : opcodeField w ≠ 0x11#8) (h20 : opcodeField w ≠ 0x20#8) (h21 :
    opcodeField w ≠ 0x21#8) (h30 : opcodeField w ≠ 0x30#8) (h40 : opcodeField w ≠ 0x40#8) (h50 :
    opcodeField w ≠ 0x50#8) (h51 : opcodeField w ≠ 0x51#8) (h52 : opcodeField w ≠ 0x52#8) :
    decode w = .error (.reservedOpcode (opcodeField w)) := by
  unfold decode
  dsimp only
  rw [if_neg h01, if_neg h02, if_neg h03, if_neg h10, if_neg h11, if_neg h20,
    if_neg h21, if_neg h30, if_neg h40, if_neg h50, if_neg h51, if_neg h52]

/-- What a decoded word is, one line per row of R89: the inversion of `decode`. -/
theorem decode_cases {w : Word} {i : Instr} (h : decode w = .ok i) :
    (opcodeField w = 0x01#8 ∧ operandField w = 0#24 ∧ i = .crcInit)
      ∨ (opcodeField w = 0x02#8 ∧ ∃ b, operandI8 w = some b ∧ i = .crcByte b)
      ∨ (opcodeField w = 0x03#8 ∧ operandField w = 0#24 ∧ i = .crcBlock)
      ∨ (opcodeField w = 0x10#8 ∧ operandField w = 0#24 ∧ i = .vlqInit)
      ∨ (opcodeField w = 0x11#8 ∧ ∃ b, operandI8 w = some b ∧ i = .vlqByte b)
      ∨ (opcodeField w = 0x20#8 ∧ ∃ v, operandI4 w = some v ∧ i = .lutN2c v)
      ∨ (opcodeField w = 0x21#8 ∧ ∃ c, operandI16 w = some c ∧ i = .lutC2n c)
      ∨ (opcodeField w = 0x30#8 ∧ i = .frameParse (operandField w))
      ∨ (opcodeField w = 0x40#8 ∧ operandM1 w = some 0#1 ∧ i = .scan)
      ∨ (opcodeField w = 0x40#8 ∧ operandM1 w = some 1#1 ∧ i = .filter)
      ∨ (opcodeField w = 0x50#8 ∧ operandField w = 0#24 ∧ i = .xtrReset)
      ∨ (opcodeField w = 0x51#8 ∧ operandField w = 0#24 ∧ i = .xtrStep)
      ∨ (opcodeField w = 0x52#8 ∧ operandField w = 0#24 ∧ i = .xtrRun) := by
  have hN : ∀ {j : Instr}, formatN w j = .ok i → operandField w = 0#24 ∧ i = j := by
    intro j hj
    unfold formatN at hj
    split at hj
    · cases hj; exact ⟨‹_›, rfl⟩
    · cases hj
  have hO : ∀ {α : Type} {o : Option α} {f : α → Instr}, formatOperand w o f = .ok i → ∃ v, o = some v ∧ i = f v := by
    intro α o f hj
    unfold formatOperand at hj
    split at hj
    · cases hj; exact ⟨_, rfl, rfl⟩
    · cases hj
  by_cases c01 : opcodeField w = 0x01#8
  · exact .inl ⟨c01, hN (decode_01 c01 ▸ h)⟩
  by_cases c02 : opcodeField w = 0x02#8
  · exact .inr (.inl ⟨c02, hO (decode_02 c02 ▸ h)⟩)
  by_cases c03 : opcodeField w = 0x03#8
  · exact .inr (.inr (.inl ⟨c03, hN (decode_03 c03 ▸ h)⟩))
  by_cases c10 : opcodeField w = 0x10#8
  · exact .inr (.inr (.inr (.inl ⟨c10, hN (decode_10 c10 ▸ h)⟩)))
  by_cases c11 : opcodeField w = 0x11#8
  · exact .inr (.inr (.inr (.inr (.inl ⟨c11, hO (decode_11 c11 ▸ h)⟩))))
  by_cases c20 : opcodeField w = 0x20#8
  · exact .inr (.inr (.inr (.inr (.inr (.inl ⟨c20, hO (decode_20 c20 ▸ h)⟩)))))
  by_cases c21 : opcodeField w = 0x21#8
  · exact .inr (.inr (.inr (.inr (.inr (.inr (.inl ⟨c21, hO (decode_21 c21 ▸ h)⟩))))))
  by_cases c30 : opcodeField w = 0x30#8
  · exact .inr (.inr (.inr (.inr (.inr (.inr (.inr (.inl ⟨c30, by cases (decode_30 c30 ▸ h); rfl⟩)))))))
  by_cases c40 : opcodeField w = 0x40#8
  · obtain ⟨f, hf, hi⟩ := hO (decode_40 c40 ▸ h)
    by_cases h1 : f = 1#1
    · exact .inr (.inr (.inr (.inr (.inr (.inr (.inr (.inr (.inr (.inl ⟨c40, h1 ▸ hf, by simp [hi, h1]⟩)))))))))
    · have h0 : f = 0#1 := by
        have hne : f.toNat ≠ 1 := fun hc => h1 (BitVec.eq_of_toNat_eq (by simpa using hc))
        have := f.isLt
        apply BitVec.eq_of_toNat_eq
        simp; omega
      exact .inr (.inr (.inr (.inr (.inr (.inr (.inr (.inr (.inl ⟨c40, h0 ▸ hf, by simp [hi, h1]⟩))))))))
  by_cases c50 : opcodeField w = 0x50#8
  · exact .inr (.inr (.inr (.inr (.inr (.inr (.inr (.inr (.inr (.inr (.inl ⟨c50, hN (decode_50 c50 ▸ h)⟩))))))))))
  by_cases c51 : opcodeField w = 0x51#8
  · exact .inr (.inr (.inr (.inr (.inr (.inr (.inr (.inr (.inr (.inr (.inr (.inl ⟨c51, hN (decode_51 c51 ▸ h)⟩)))))))))))
  by_cases c52 : opcodeField w = 0x52#8
  · exact .inr (.inr (.inr (.inr (.inr (.inr (.inr (.inr (.inr (.inr (.inr (.inr (⟨c52, hN (decode_52 c52 ▸ h)⟩))))))))))))
  rw [decode_other c01 c02 c03 c10 c11 c20 c21 c30 c40 c50 c51 c52] at h
  cases h

end Sys2Proof
end

