-- ==== Sys2Proof/Laws/Vlq.lean ====
section
/-! SUPPORT. The VLQ decoder: one accumulation in numbers, the scan for the terminator, decodeLength32 over an append. -/

namespace Sys2Proof.Machine

/-! ### One accumulation -/

/-- The accumulation in numbers: 7 bits further up, modulo 2^32, and the byte's low 7 bits below (R116, R118). -/
theorem vlqShift_toNat (acc : Word) (b : Byte) :
    (vlqShift acc b).toNat = acc.toNat * 128 % 4294967296 + b.toNat % 128 := by
  have hb : ((b.extractLsb' 0 7).setWidth 32).toNat = b.toNat % 128 := by
    simp only [BitVec.toNat_setWidth, BitVec.extractLsb'_toNat, Nat.shiftRight_zero]
    omega
  have ha : (acc <<< 7).toNat = acc.toNat * 128 % 4294967296 := by
    rw [BitVec.toNat_shiftLeft, Nat.shiftLeft_eq]
  have hm : acc.toNat * 128 % 4294967296 = 2 ^ 7 * (acc.toNat % 33554432) := by omega
  unfold vlqShift
  rw [BitVec.toNat_or, ha, hb, hm, ← Nat.two_pow_add_eq_or_of_lt (by omega)]

/-- An accumulation loses a bit when the accumulator does not fit 25 bits. -/
theorem vlqLoses_iff (acc : Word) : vlqLoses acc = true ↔ 33554432 ≤ acc.toNat := by
  have h : (acc.extractLsb' 25 7).toNat = acc.toNat / 33554432 := by
    simp only [BitVec.extractLsb'_toNat, Nat.shiftRight_eq_div_pow]
    omega
  unfold vlqLoses
  rw [bne_iff_ne, Ne, ← BitVec.toNat_inj, h]
  simp only [BitVec.toNat_ofNat]
  omega

theorem vlqTerminates_iff (b : Byte) : vlqTerminates b = true ↔ b.toNat < 128 := by
  have h : b.getLsbD 7 = decide (128 ≤ b.toNat) := by
    rw [BitVec.getLsbD, Nat.testBit_eq_decide_div_mod_eq]
    have := b.isLt
    by_cases hb : 128 ≤ b.toNat <;> simp [hb] <;> omega
  unfold vlqTerminates
  rw [h]
  simp

/-! ### decodeLength32 -/

theorem decodeLengthFrom_append (acc : Word) (ovf : Bool) (xs ys : List Byte) :
    decodeLengthFrom acc ovf (xs ++ ys)
      = decodeLengthFrom (decodeLengthFrom acc ovf xs).1 (decodeLengthFrom acc ovf xs).2 ys := by
  induction xs generalizing acc ovf with
  | nil => rfl
  | cons x xs ih => exact ih _ _

/-- decodeLength32 with one byte more. -/
theorem decodeLength32_concat (bs : List Byte) (b : Byte) :
    decodeLength32 (bs ++ [b])
      = (vlqShift (decodeLength32 bs).1 b, (decodeLength32 bs).2 || vlqLoses (decodeLength32 bs).1) :=
  decodeLengthFrom_append _ _ _ _

/-! ### The scan for the terminator (R120) -/

theorem vlqScan_le (bytes : Nat → Byte) (s left : Nat) : (vlqScan bytes s left).1 ≤ left := by
  induction left generalizing s with
  | zero => exact Nat.le_refl 0
  | succ left ih =>
    unfold vlqScan
    split
    · exact Nat.le_add_left 1 left
    · exact Nat.succ_le_succ (ih (s + 1))

theorem vlqScan_pos {bytes : Nat → Byte} {s left : Nat} (h : (vlqScan bytes s left).2 = true) :
    1 ≤ (vlqScan bytes s left).1 := by
  cases left with
  | zero => cases h
  | succ left =>
    unfold vlqScan
    split
    · exact Nat.le_refl 1
    · exact Nat.le_add_left 1 _

/-- The scan of a field whose first terminator is its byte `k`, and which lies within the bytes left. -/
theorem vlqScan_terminated {bytes : Nat → Byte} {s left k : Nat} (hk : k < left)
    (hc : ∀ j, j < k → vlqTerminates (bytes (s + j)) = false) (ht : vlqTerminates (bytes (s + k)) = true) :
    vlqScan bytes s left = (k + 1, true) := by
  induction k generalizing s left with
  | zero =>
    cases left with
    | zero => omega
    | succ left => unfold vlqScan; rw [if_pos (by simpa using ht)]
  | succ k ih =>
    cases left with
    | zero => omega
    | succ left =>
      unfold vlqScan
      have h0 : vlqTerminates (bytes s) = false := by simpa using hc 0 (by omega)
      have hc' : ∀ j, j < k → vlqTerminates (bytes (s + 1 + j)) = false := fun j hj => by
        have := hc (j + 1) (by omega)
        rwa [show s + (j + 1) = s + 1 + j by omega] at this
      have ht' : vlqTerminates (bytes (s + 1 + k)) = true := by rwa [show s + 1 + k = s + (k + 1) by omega]
      rw [if_neg (by simp [h0]), ih (by omega) hc' ht']

/-- The scan of bytes without a terminator examines them all. -/
theorem vlqScan_unterminated {bytes : Nat → Byte} {s left : Nat}
    (hc : ∀ j, j < left → vlqTerminates (bytes (s + j)) = false) : vlqScan bytes s left = (left, false) := by
  induction left generalizing s with
  | zero => rfl
  | succ left ih =>
    unfold vlqScan
    have h0 : vlqTerminates (bytes s) = false := by simpa using hc 0 (by omega)
    rw [if_neg (by simp [h0]), ih (fun j hj => ?_)]
    have := hc (j + 1) (by omega)
    rwa [show s + (j + 1) = s + 1 + j by omega] at this

/-- The scan reads only the bytes from `s` on. -/
theorem vlqScan_congr {bytes bytes' : Nat → Byte} {s : Nat} (h : ∀ j, s ≤ j → bytes' j = bytes j) (left : Nat) :
    vlqScan bytes' s left = vlqScan bytes s left := by
  induction left generalizing s with
  | zero => rfl
  | succ left ih =>
    unfold vlqScan
    rw [h s (Nat.le_refl s), ih (fun j hj => h j (by omega))]

end Sys2Proof.Machine
end

