-- ==== Sys2Proof/Laws/Frame.lean ====
section
/-! SUPPORT. The fields of a parsed record, the three outcomes of a parse, and what CHECKSUM_VALID says of it. -/

namespace Sys2Proof.Machine

/-! ### INFO (R42) -/

theorem infoWord_kind (k : Kind) (v t l : Bool) : (infoWord k v t l).extractLsb' 0 2 = k.code := by
  cases k <;> cases v <;> cases t <;> cases l <;> rfl

theorem infoWord_valid (k : Kind) (v t l : Bool) : (infoWord k v t l).getLsbD 2 = v := by
  cases k <;> cases v <;> cases t <;> cases l <;> rfl

theorem infoWord_trunc (k : Kind) (v t l : Bool) : (infoWord k v t l).getLsbD 3 = t := by
  cases k <;> cases v <;> cases t <;> cases l <;> rfl

theorem infoWord_lenOvf (k : Kind) (v t l : Bool) : (infoWord k v t l).getLsbD 4 = l := by
  cases k <;> cases v <;> cases t <;> cases l <;> rfl

theorem infoWord_reserved (k : Kind) (v t l : Bool) :
    (infoWord k v t l).extractLsb' 5 27 = 0#27 ∧ (infoWord k v t l).extractLsb' 0 2 ≠ 3#2 := by
  cases k <;> cases v <;> cases t <;> cases l <;> decide

/-- A record whose INFO is put together from its fields and whose TYPE is a byte has its reserved bits 0. -/
theorem wellFormed_of_fields {rec : Record} {k : Kind} {v t l : Bool} {b : Byte} (hi : rec.info = infoWord k v t l)
    (ht : rec.dataType = b.setWidth 32) : rec.wellFormed = true := by
  have hb : (b.setWidth 32 : Word).extractLsb' 8 24 = 0#24 := by
    apply BitVec.eq_of_getLsbD_eq
    intro i hlt
    simp
  obtain ⟨h5, h2⟩ := infoWord_reserved k v t l
  simp only [Record.wellFormed, Bool.and_eq_true, beq_iff_eq, bne_iff_ne]
  exact ⟨⟨hi ▸ h5, hi ▸ h2⟩, ht ▸ hb⟩

/-! ### The outcomes of a parse -/

/-- ParseFrame is one of three: nothing at all, no signature, or a decode attempt (R225). -/
theorem parseFrame_cases (bytes : Nat → Byte) (o len : Nat) :
    (len ≤ o ∧ parseFrame bytes o len = bareRecord .noMessage)
      ∨ (o < len ∧ signatureAt bytes o (len - o) = false ∧ parseFrame bytes o len = bareRecord .protocolMismatch)
      ∨ (o < len ∧ signatureAt bytes o (len - o) = true ∧ parseFrame bytes o len = frameRecord bytes o (len - o)) := by
  unfold parseFrame
  by_cases h : len ≤ o
  · exact .inl ⟨h, if_pos h⟩
  · rw [if_neg h]
    by_cases hs : signatureAt bytes o (len - o) = true
    · exact .inr (.inr ⟨by omega, hs, if_pos hs⟩)
    · exact .inr (.inl ⟨by omega, by simpa using hs, if_neg hs⟩)

theorem bareRecord_isKind (k k' : Kind) : (bareRecord k).isKind k' = decide (k = k') := by
  cases k <;> cases k' <;> rfl

theorem bareRecord_checksumValid (k : Kind) : (bareRecord k).checksumValid = false := by cases k <;> rfl

theorem frameRecord_isKind (bytes : Nat → Byte) (o n : Nat) (k : Kind) :
    (frameRecord bytes o n).isKind k = decide (k = .frame) := by
  unfold Record.isKind
  rw [show (frameRecord bytes o n).info = infoWord .frame _ _ _ from rfl, infoWord_kind]
  cases k <;> rfl

theorem frameRecord_checksumValid (bytes : Nat → Byte) (o n : Nat) :
    (frameRecord bytes o n).checksumValid = frameValid bytes o n := infoWord_valid _ _ _ _

theorem frameRecord_trunc (bytes : Nat → Byte) (o n : Nat) :
    (frameRecord bytes o n).trunc = frameTrunc bytes o n := infoWord_trunc _ _ _ _

theorem bareRecord_wellFormed (k : Kind) (start stop : Word) :
    Record.wellFormed { bareRecord k with dataStart := start, dataEnd := stop } = true :=
  wellFormed_of_fields (k := k) (b := 0#8) rfl rfl

theorem parseFrame_wellFormed (bytes : Nat → Byte) (o len : Nat) : (parseFrame bytes o len).wellFormed = true := by
  rcases parseFrame_cases bytes o len with ⟨_, h⟩ | ⟨_, _, h⟩ | ⟨_, _, h⟩ <;> rw [h]
  · exact bareRecord_wellFormed .noMessage _ _
  · exact bareRecord_wellFormed .protocolMismatch _ _
  · exact wellFormed_of_fields rfl rfl

/-- A parse of KIND PROTOCOL_MISMATCH is the bare record (R153). -/
theorem parseFrame_mismatch {bytes : Nat → Byte} {o len : Nat}
    (h : (parseFrame bytes o len).isKind .protocolMismatch = true) :
    parseFrame bytes o len = bareRecord .protocolMismatch := by
  rcases parseFrame_cases bytes o len with ⟨_, hp⟩ | ⟨_, _, hp⟩ | ⟨_, _, hp⟩
  · rw [hp] at h; cases h
  · exact hp
  · rw [hp, frameRecord_isKind] at h; cases h

/-! ### TRUNC and CHECKSUM_VALID -/

theorem headerCut_false {n : Nat} (h : 7 ≤ n) : headerCut n = false := by
  have hf : ∀ j, j < n → Nat.ble n j = false := fun j hj => by
    cases hb : Nat.ble n j with
    | false => rfl
    | true => have := Nat.le_of_ble_eq_true hb; omega
  simp only [headerCut, List.any_cons, List.any_nil, hf 2 (by omega), hf 3 (by omega), hf 4 (by omega),
    hf 5 (by omega), hf 6 (by omega), Bool.or_self]

theorem headerCut_true {n : Nat} (h : n < 7) : headerCut n = true := by
  have h6 : Nat.ble n 6 = true := Nat.ble_eq_true_of_le (by omega)
  simp only [headerCut, List.any_cons, h6, Bool.or_true, Bool.true_or]

/-- When TRUNC is 0: the header, a terminated length field and the payload lie within the stream. -/
theorem frameTrunc_false_iff (bytes : Nat → Byte) (o n : Nat) :
    frameTrunc bytes o n = false
      ↔ 7 ≤ n ∧ (lengthField bytes o n).2 = true ∧ payloadEnd bytes o n ≤ n := by
  have hblt : ∀ a b : Nat, Nat.blt a b = false ↔ b ≤ a := fun a b => by
    cases h : Nat.blt a b with
    | true => have : a < b := by simpa [Nat.blt] using h
              simp; omega
    | false =>
      have : ¬ a < b := fun hc => by
        rw [show Nat.blt a b = true from Nat.ble_eq_true_of_le hc] at h
        cases h
      simp; omega
  simp only [frameTrunc, Bool.or_eq_false_iff, hblt]
  constructor
  · rintro ⟨⟨h1, h2⟩, h3⟩
    refine ⟨Nat.le_of_not_lt (fun hc => ?_), by simpa using h2, h3⟩
    rw [headerCut_true hc] at h1
    cases h1
  · rintro ⟨h1, h2, h3⟩
    exact ⟨⟨headerCut_false h1, by simp [h2]⟩, h3⟩

/-- What CHECKSUM_VALID = 1 says of a parse (R160, R163): it is a decode attempt that is not truncated, whose length did
not overflow, and whose two checksums agree. -/
theorem parseFrame_valid {bytes : Nat → Byte} {o len : Nat} (h : (parseFrame bytes o len).checksumValid = true) :
    o < len ∧ parseFrame bytes o len = frameRecord bytes o (len - o)
      ∧ frameTrunc bytes o (len - o) = false ∧ (frameLength bytes o (len - o)).2 = false
      ∧ crc32 (framePayload bytes o (len - o)) = storedChecksum bytes o (len - o) := by
  rcases parseFrame_cases bytes o len with ⟨_, hp⟩ | ⟨_, _, hp⟩ | ⟨ho, _, hp⟩
  · rw [hp] at h; cases h
  · rw [hp] at h; cases h
  · rw [hp, frameRecord_checksumValid] at h
    simp only [frameValid, Bool.and_eq_true, Bool.not_eq_true', beq_iff_eq] at h
    exact ⟨ho, hp, h.1.1, h.1.2, h.2⟩

/-- Where a valid frame lies: its consumed length is the end of its payload, is at least 8, and is within the bytes
left (R163). -/
theorem consumed_of_valid {bytes : Nat → Byte} {o len : Nat} (hlen : len < 4294967296)
    (h : (parseFrame bytes o len).checksumValid = true) :
    (parseFrame bytes o len).consumed = payloadEnd bytes o (len - o) ∧ 8 ≤ payloadEnd bytes o (len - o)
      ∧ payloadEnd bytes o (len - o) ≤ len - o ∧ o < len := by
  obtain ⟨ho, hp, ht, _, _⟩ := parseFrame_valid h
  obtain ⟨h7, hterm, hend⟩ := (frameTrunc_false_iff _ _ _).mp ht
  have hpos : 1 ≤ (lengthField bytes o (len - o)).1 := vlqScan_pos hterm
  have hle : (lengthField bytes o (len - o)).1 ≤ len - o - 7 := vlqScan_le _ _ _
  have hc : (parseFrame bytes o len).consumed = payloadEnd bytes o (len - o) := by
    rw [hp]
    simp only [Record.consumed, frameRecord, payloadEnd, payloadStart, BitVec.toNat_ofNat]
    rw [Nat.mod_eq_of_lt (by omega)]
  refine ⟨hc, ?_, hend, ho⟩
  simp only [payloadEnd, payloadStart]
  omega

end Sys2Proof.Machine
end

