-- ==== Sys2Proof/Laws/Extractor.lean ====
section
/-! SUPPORT. The extractor: what one iteration of its loop can do, said once, and the loop of XTR.RUN as iterations of
the body. -/

namespace Sys2Proof.Machine

/-! ### What no part of the extractor touches (R200) -/

/-- Everything but XSTATE, ERR_OVF, the heads, RESULT_COUNT and the two buffers RUNLEN and RESULT is the same. -/
structure ExtractorSame (s t : State) : Prop where
  units : UnitsSame s t
  lengths : LengthsSame s t
  outside : OutsideSame s t
  pend : t.pend = s.pend
  done : t.status.done = s.status.done
  errIllegal : t.status.errIllegal = s.status.errIllegal
  errBusy : t.status.errBusy = s.status.errBusy
  errBus : t.status.errBus = s.status.errBus
  carrier : t.mem.carrier = s.mem.carrier
  cover : t.mem.cover = s.mem.cover
  stream : t.mem.stream = s.mem.stream
  epoch : t.mem.epoch = s.mem.epoch

theorem extractorSame_refl (s : State) : ExtractorSame s s := by
  exact ⟨⟨rfl, rfl, rfl, rfl, rfl, rfl, rfl⟩, ⟨rfl, rfl, rfl, rfl⟩, ⟨rfl, rfl, rfl⟩, rfl, rfl, rfl, rfl, rfl, rfl,
    rfl, rfl, rfl⟩

theorem ExtractorSame.trans {s t u : State} (h : ExtractorSame s t) (g : ExtractorSame t u) : ExtractorSame s u := by
  obtain ⟨⟨a1, a2, a3, a4, a5, a6, a7⟩, ⟨b1, b2, b3, b4⟩, ⟨c1, c2, c3⟩, d, e, f, i, j, k, l, m, n⟩ := h
  obtain ⟨⟨a1', a2', a3', a4', a5', a6', a7'⟩, ⟨b1', b2', b3', b4'⟩, ⟨c1', c2', c3'⟩, d', e', f', i', j', k', l', m',
    n'⟩ := g
  exact ⟨⟨a1'.trans a1, a2'.trans a2, a3'.trans a3, a4'.trans a4, a5'.trans a5, a6'.trans a6, a7'.trans a7⟩,
    ⟨b1'.trans b1, b2'.trans b2, b3'.trans b3, b4'.trans b4⟩, ⟨c1'.trans c1, c2'.trans c2, c3'.trans c3⟩,
    d'.trans d, e'.trans e, f'.trans f, i'.trans i, j'.trans j, k'.trans k, l'.trans l, m'.trans m, n'.trans n⟩

/-- A state made from `s` by changing only what the extractor may change. -/
theorem extractorSame_of_update (s : State) (x : XState) (o : Bool) (rc h rh : Word) (rl : Buf Word)
    (rs : Buf Record) : ExtractorSame s { s with
      status := { s.status with errOvf := o, xstate := x }
      resultCount := rc
      xtrHead := h
      xtrRunHead := rh
      mem := { s.mem with runlen := rl, result := rs } } := by
  exact ⟨⟨rfl, rfl, rfl, rfl, rfl, rfl, rfl⟩, ⟨rfl, rfl, rfl, rfl⟩, ⟨rfl, rfl, rfl⟩, rfl, rfl, rfl, rfl, rfl, rfl,
    rfl, rfl, rfl⟩

/-! ### The run queue -/

theorem frontEntry_some {s : State} {entry : Nat} (h : s.frontEntry = some entry) :
    s.xtrRunHead.toNat < s.runCount.toNat ∧ entry = (s.mem.runlenAt s.xtrRunHead.toNat).toNat := by
  unfold State.frontEntry at h
  split at h
  · exact ⟨‹_›, by injection h with h; exact h.symm⟩
  · cases h

theorem frontEntry_none {s : State} (h : s.frontEntry = none) : s.runCount.toNat ≤ s.xtrRunHead.toNat := by
  unfold State.frontEntry at h
  split at h
  · cases h
  · omega

/-- PopRun with a front entry moves to the next (R190). -/
theorem popRun_some {s : State} {entry : Nat} (h : s.frontEntry = some entry) :
    s.popRun = { s with xtrRunHead := s.xtrRunHead + 1#32 } := if_pos (frontEntry_some h).1

/-- PopRun with an empty queue does nothing (R190). -/
theorem popRun_none {s : State} (h : s.frontEntry = none) : s.popRun = s :=
  if_neg (by have := frontEntry_none h; omega)

/-- The next entry's index as a number: it does not wrap while there is a front entry. -/
theorem runHead_succ {s : State} {entry : Nat} (h : s.frontEntry = some entry) :
    (s.xtrRunHead + 1#32).toNat = s.xtrRunHead.toNat + 1 := by
  have h1 := (frontEntry_some h).1
  have h2 := s.runCount.isLt
  rw [BitVec.toNat_add]
  exact Nat.mod_eq_of_lt (by simp; omega)

theorem dropCount_le (s : State) (rem : Nat) : s.dropCount rem ≤ rem := by
  unfold State.dropCount
  split
  · exact Nat.min_le_right _ _
  · exact Nat.le_refl _

/-! ### One frame peeled -/

/-- The front entry, if any, is discarded, and the entries stay as they are. -/
structure Popped (s t : State) : Prop where
  runlen : t.mem.runlen = s.mem.runlen
  some : ∀ entry, s.frontEntry = some entry → t.xtrRunHead.toNat = s.xtrRunHead.toNat + 1
  none : s.frontEntry = none → t.xtrRunHead = s.xtrRunHead

/-- The front entry is longer than `c` and is decremented by it in place. -/
structure Decremented (s t : State) (c : Nat) : Prop where
  entry : ∃ entry, s.frontEntry = some entry ∧ c < entry
    ∧ t.mem.runlen = s.mem.runlen.write s.xtrRunHead.toNat [BitVec.ofNat 32 (entry - c)]
  runHead : t.xtrRunHead = s.xtrRunHead

/-- One record more in RESULT, and the head `d` bytes on. STATUS stays. -/
structure Peeled (s t : State) (rec : Record) (d : Nat) : Prop where
  same : ExtractorSame s t
  status : t.status = s.status
  result : t.mem.result = s.mem.result.write s.resultCount.toNat [rec]
  resultCount : t.resultCount = s.resultCount + 1#32
  head : t.xtrHead = BitVec.ofNat 32 (s.xtrHead.toNat + d)

theorem popRun_popped (s : State) : Popped s s.popRun := by
  cases h : s.frontEntry with
  | none => rw [popRun_none h]; exact ⟨rfl, by simp [h], fun _ => rfl⟩
  | some entry =>
    rw [popRun_some h]
    exact ⟨rfl, fun _ _ => runHead_succ h, by simp [h]⟩

/-- Emission, then a change of the queue, then the head: the parts of every peel. -/
theorem peeled_of_popRun (s : State) (rec : Record) (d : Nat) :
    Peeled s (((s.emit rec).popRun).setHead (s.xtrHead.toNat + d)) rec d
      ∧ Popped s (((s.emit rec).popRun).setHead (s.xtrHead.toNat + d)) := by
  have hf : (s.emit rec).frontEntry = s.frontEntry := rfl
  cases h : s.frontEntry with
  | none =>
    rw [popRun_none (hf.trans h)]
    exact ⟨⟨extractorSame_of_update s _ _ _ _ _ _ _, rfl, rfl, rfl, rfl⟩, ⟨rfl, by simp [h], fun _ => rfl⟩⟩
  | some entry =>
    rw [popRun_some (hf.trans h)]
    exact ⟨⟨extractorSame_of_update s _ _ _ _ _ _ _, rfl, rfl, rfl, rfl⟩,
      ⟨rfl, fun _ _ => runHead_succ h, by simp [h]⟩⟩

theorem peelValid_peeled (s : State) (rec : Record) :
    Peeled s (s.peelValid s.xtrHead.toNat rec) rec rec.consumed
      ∧ (Popped s (s.peelValid s.xtrHead.toNat rec) ∧ (∀ entry, s.frontEntry = some entry → entry ≤ rec.consumed)
        ∨ Decremented s (s.peelValid s.xtrHead.toNat rec) rec.consumed) := by
  have hf : (s.emit rec).frontEntry = s.frontEntry := rfl
  unfold State.peelValid State.accountFrame
  rw [hf]
  cases h : s.frontEntry with
  | none =>
    obtain ⟨h1, h2⟩ := peeled_of_popRun s rec rec.consumed
    exact ⟨h1, .inl ⟨h2, by simp⟩⟩
  | some entry =>
    dsimp only
    by_cases hc : rec.consumed < entry
    · rw [if_pos hc]
      exact ⟨⟨extractorSame_of_update s _ _ _ _ _ _ _, rfl, rfl, rfl, rfl⟩, .inr ⟨⟨entry, h, hc, rfl⟩, rfl⟩⟩
    · rw [if_neg hc]
      obtain ⟨h1, h2⟩ := peeled_of_popRun s rec rec.consumed
      exact ⟨h1, .inl ⟨h2, fun e he => by cases he; omega⟩⟩

/-- The record of a protocol mismatch at `h` that drops `d` bytes (R196). -/
abbrev mismatchRecord (h d : Nat) : Record :=
  ⟨1#32, 0#32, 0#32, 0#32, 0#32, BitVec.ofNat 32 h, BitVec.ofNat 32 (h + d), 0#32⟩

/-- What a peel does, by what it parses (R187, R191, R193, R196). -/
theorem peel_cases (s : State) :
    let rem := s.streamLen.toNat - s.xtrHead.toNat
    (s.nextParse.isKind .protocolMismatch = true ∧ Popped s s.peel
        ∧ Peeled s s.peel (mismatchRecord s.xtrHead.toNat (s.dropCount rem)) (s.dropCount rem))
      ∨ (s.nextParse.isKind .protocolMismatch = false ∧ s.nextParse.checksumValid = true
        ∧ Peeled s s.peel s.nextParse s.nextParse.consumed
        ∧ (Popped s s.peel ∧ (∀ entry, s.frontEntry = some entry → entry ≤ s.nextParse.consumed)
          ∨ Decremented s s.peel s.nextParse.consumed))
      ∨ (s.nextParse.isKind .protocolMismatch = false ∧ s.nextParse.checksumValid = false ∧ Popped s s.peel
        ∧ Peeled s s.peel s.nextParse (s.dropCount rem)) := by
  intro rem
  by_cases hk : s.nextParse.isKind .protocolMismatch = true
  · have he : s.peel = s.peelMismatch s.xtrHead.toNat rem s.nextParse := if_pos hk
    obtain ⟨h1, h2⟩ := peeled_of_popRun s (mismatchRecord s.xtrHead.toNat (s.dropCount rem)) (s.dropCount rem)
    rw [he, show s.nextParse = bareRecord .protocolMismatch from parseFrame_mismatch hk]
    exact .inl ⟨rfl, h2, h1⟩
  · have hk' : s.nextParse.isKind .protocolMismatch = false := by simpa using hk
    by_cases hv : s.nextParse.checksumValid = true
    · have he : s.peel = s.peelValid s.xtrHead.toNat s.nextParse := (if_neg hk).trans (if_pos hv)
      rw [he]
      obtain ⟨h1, h2⟩ := peelValid_peeled s s.nextParse
      exact .inr (.inl ⟨hk', hv, h1, h2⟩)
    · have he : s.peel = s.peelInvalid s.xtrHead.toNat rem s.nextParse := (if_neg hk).trans (if_neg hv)
      rw [he]
      obtain ⟨h1, h2⟩ := peeled_of_popRun s s.nextParse (s.dropCount rem)
      exact .inr (.inr ⟨hk', by simpa using hv, h2, h1⟩)

/-- A valid next frame lies within the bytes left. -/
theorem consumed_le {s : State} (h : s.nextParse.checksumValid = true) :
    8 ≤ s.nextParse.consumed ∧ s.nextParse.consumed ≤ s.streamLen.toNat - s.xtrHead.toNat := by
  obtain ⟨hc, h8, hle, _⟩ := consumed_of_valid s.streamLen.isLt h
  have hc' : s.nextParse.consumed = _ := hc
  omega

/-! ### One iteration -/

/-- Everything one iteration can do (R187 to R196). -/
theorem xtrIterate_cases (s : State) :
    (s.status.xstate = .done ∧ s.xtrIterate = s)
      ∨ (s.status.xstate = .start ∧ s.streamLen = 0#32 ∧ s.resultCount.toNat = s.params.maxResults
        ∧ s.xtrIterate = s.stopFull)
      ∨ (s.status.xstate = .start ∧ s.streamLen = 0#32 ∧ s.resultCount.toNat ≠ s.params.maxResults
        ∧ s.xtrIterate = (s.emit (bareRecord .noMessage)).setXState .done)
      ∨ (s.status.xstate ≠ .done ∧ ¬ (s.status.xstate = .start ∧ s.streamLen = 0#32)
        ∧ s.streamLen.toNat ≤ s.xtrHead.toNat ∧ s.xtrIterate = s.setXState .done)
      ∨ (s.status.xstate ≠ .done ∧ s.xtrHead.toNat < s.streamLen.toNat ∧ s.resultCount.toNat = s.params.maxResults
        ∧ s.xtrIterate = s.stopFull)
      ∨ (s.readyToPeel ∧ s.xtrIterate = ((s.setXState .loop).peel).closeIteration) := by
  have hfull : s.resultsFull = true ↔ s.resultCount.toNat = s.params.maxResults := by
    simp [State.resultsFull]
  unfold State.xtrIterate
  by_cases h1 : s.status.xstate = .done
  · exact .inl ⟨h1, if_pos h1⟩
  rw [if_neg h1]
  by_cases h2 : s.status.xstate = .start ∧ s.streamLen = 0#32
  · rw [if_pos h2]
    unfold State.noMessage
    by_cases h3 : s.resultsFull = true
    · exact .inr (.inl ⟨h2.1, h2.2, hfull.mp h3, if_pos h3⟩)
    · exact .inr (.inr (.inl ⟨h2.1, h2.2, fun h => h3 (hfull.mpr h), if_neg h3⟩))
  rw [if_neg h2]
  by_cases h3 : s.streamLen.toNat ≤ s.xtrHead.toNat
  · exact .inr (.inr (.inr (.inl ⟨h1, h2, h3, if_pos h3⟩)))
  rw [if_neg h3]
  by_cases h4 : s.resultsFull = true
  · exact .inr (.inr (.inr (.inr (.inl ⟨h1, by omega, hfull.mp h4, if_pos h4⟩))))
  · exact .inr (.inr (.inr (.inr (.inr ⟨⟨h1, by omega, fun h => h4 (hfull.mpr h)⟩, if_neg h4⟩))))

/-- What closing an iteration changes: XSTATE, when no byte remains (R195). -/
theorem closeIteration_eq (s : State) : s.closeIteration = s.setXState
    (if s.streamLen.toNat ≤ s.xtrHead.toNat then .done else s.status.xstate) := by
  unfold State.closeIteration
  split <;> rfl

theorem extractorSame_setXState (s : State) (x : XState) : ExtractorSame s (s.setXState x) :=
  extractorSame_of_update s x _ _ _ _ _ _

/-- An iteration touches nothing but the extractor (R200). -/
theorem xtrIterate_same (s : State) : ExtractorSame s s.xtrIterate := by
  rcases xtrIterate_cases s with ⟨_, h⟩ | ⟨_, _, _, h⟩ | ⟨_, _, _, h⟩ | ⟨_, _, _, h⟩ | ⟨_, _, _, h⟩ | ⟨_, h⟩ <;>
    rw [h]
  · exact extractorSame_refl s
  · exact extractorSame_of_update s _ _ _ _ _ _ _
  · exact extractorSame_of_update s _ _ _ _ _ _ _
  · exact extractorSame_setXState s _
  · exact extractorSame_of_update s _ _ _ _ _ _ _
  · rw [closeIteration_eq]
    refine (extractorSame_setXState s .loop).trans (ExtractorSame.trans ?_ (extractorSame_setXState _ _))
    rcases peel_cases (s.setXState .loop) with ⟨_, _, h⟩ | ⟨_, _, h, _⟩ | ⟨_, _, _, h⟩ <;> exact h.same

/-- An iteration that peels: the head moves on within the stream, one entry is popped, or the head moves at least 8
bytes; XSTATE is LOOP or, when no byte remains, DONE. -/
theorem xtrIterate_peels {s : State} (h : s.readyToPeel) : ∃ t d, t = (s.setXState .loop).peel
    ∧ s.xtrIterate = t.closeIteration ∧ t.xtrHead.toNat = s.xtrHead.toNat + d
    ∧ d ≤ s.streamLen.toNat - s.xtrHead.toNat ∧ t.status.xstate = .loop ∧ t.streamLen = s.streamLen
    ∧ t.runCount = s.runCount ∧ t.resultCount = s.resultCount + 1#32
    ∧ (8 ≤ d ∧ t.xtrRunHead = s.xtrRunHead
      ∨ (s.frontEntry = none ∧ t.xtrRunHead = s.xtrRunHead ∧ d = s.streamLen.toNat - s.xtrHead.toNat)
      ∨ (∃ entry, s.frontEntry = some entry) ∧ t.xtrRunHead.toNat = s.xtrRunHead.toNat + 1) := by
  have hlt := s.streamLen.isLt
  obtain ⟨hx, hh, hr⟩ := h
  have he : s.xtrIterate = ((s.setXState .loop).peel).closeIteration := by
    rcases xtrIterate_cases s with ⟨h, _⟩ | ⟨_, h, _, _⟩ | ⟨_, h, _, _⟩ | ⟨_, _, h, _⟩ | ⟨_, _, h, _⟩ | ⟨_, h⟩
    · exact absurd h hx
    · rw [h] at hh; simp at hh
    · rw [h] at hh; simp at hh
    · omega
    · exact absurd h hr
    · exact h
  have hd : (s.setXState .loop).dropCount (s.streamLen.toNat - s.xtrHead.toNat) ≤ _ := dropCount_le _ _
  have head : ∀ {rec : Record} {d : Nat}, Peeled (s.setXState .loop) (s.setXState .loop).peel rec d →
      d ≤ s.streamLen.toNat - s.xtrHead.toNat →
      (s.setXState .loop).peel.xtrHead.toNat = s.xtrHead.toNat + d := by
    intro rec d hp hle
    rw [hp.head, BitVec.toNat_ofNat]
    exact Nat.mod_eq_of_lt (by simp only [setXState_xtrHead]; omega)
  have dropped : Popped (s.setXState .loop) (s.setXState .loop).peel → ∀ d,
      d = (s.setXState .loop).dropCount (s.streamLen.toNat - s.xtrHead.toNat) →
      (8 ≤ d ∧ (s.setXState .loop).peel.xtrRunHead = s.xtrRunHead
      ∨ (s.frontEntry = none ∧ (s.setXState .loop).peel.xtrRunHead = s.xtrRunHead
        ∧ d = s.streamLen.toNat - s.xtrHead.toNat)
      ∨ (∃ entry, s.frontEntry = some entry)
        ∧ (s.setXState .loop).peel.xtrRunHead.toNat = s.xtrRunHead.toNat + 1) := by
    intro hp d hdd
    cases hf : s.frontEntry with
    | none =>
      refine .inr (.inl ⟨rfl, hp.none hf, ?_⟩)
      rw [hdd]
      show (match s.frontEntry with | some entry => min entry _ | none => _) = _
      rw [hf]
    | some entry => exact .inr (.inr ⟨⟨entry, rfl⟩, hp.some entry hf⟩)
  rcases peel_cases (s.setXState .loop) with ⟨_, hp, hq⟩ | ⟨_, hv, hq, hc⟩ | ⟨_, _, hp, hq⟩
  · exact ⟨_, _, rfl, he, head hq hd, hd, congrArg Status.xstate hq.status, hq.same.lengths.2.1,
      hq.same.lengths.2.2.2, hq.resultCount, dropped hp _ rfl⟩
  · obtain ⟨h8, hle⟩ := consumed_le hv
    refine ⟨_, _, rfl, he, head hq hle, hle, congrArg Status.xstate hq.status, hq.same.lengths.2.1,
      hq.same.lengths.2.2.2, hq.resultCount, ?_⟩
    rcases hc with ⟨hp, _⟩ | hp
    · cases hf : s.frontEntry with
      | none => exact .inl ⟨h8, hp.none hf⟩
      | some entry => exact .inr (.inr ⟨⟨entry, rfl⟩, hp.some entry hf⟩)
    · exact .inl ⟨h8, hp.runHead⟩
  · exact ⟨_, _, rfl, he, head hq hd, hd, congrArg Status.xstate hq.status, hq.same.lengths.2.1,
      hq.same.lengths.2.2.2, hq.resultCount, dropped hp _ rfl⟩

/-- R198: an iteration that does not end in DONE decreases the measure. -/
theorem xtrIterate_measure {s : State} (h : s.xtrIterate.status.xstate ≠ .done) :
    s.xtrIterate.xtrMeasure < s.xtrMeasure := by
  rcases xtrIterate_cases s with ⟨hd, he⟩ | ⟨_, _, _, he⟩ | ⟨_, _, _, he⟩ | ⟨_, _, _, he⟩ | ⟨_, _, _, he⟩ | ⟨hr, _⟩
  · rw [he] at h; exact absurd hd h
  · rw [he] at h; exact absurd rfl h
  · rw [he] at h; exact absurd rfl h
  · rw [he] at h; exact absurd rfl h
  · rw [he] at h; exact absurd rfl h
  · obtain ⟨t, d, _, he, hh, hd, hx, hs, hc, _, hq⟩ := xtrIterate_peels hr
    obtain ⟨_, hlt, _⟩ := hr
    rw [he, closeIteration_eq] at h ⊢
    by_cases hle : t.streamLen.toNat ≤ t.xtrHead.toNat
    · rw [if_pos hle] at h; exact absurd rfl h
    simp only [State.xtrMeasure, setXState_streamLen, setXState_xtrHead, setXState_runCount, setXState_xtrRunHead]
    rw [hs, hc, hh]
    rw [hs, hh] at hle
    rcases hq with ⟨h8, hrun⟩ | ⟨_, hrun, hall⟩ | ⟨⟨entry, hf⟩, hrun⟩
    · rw [hrun]; omega
    · omega
    · rw [hrun]; have := (frontEntry_some hf).1; omega

/-! ### The loop of XTR.RUN -/

/-- The loop with enough fuel ends in DONE (R198). -/
theorem xtrLoop_done {fuel : Nat} {s : State} (h : s.xtrMeasure < fuel) : (xtrLoop fuel s).status.xstate = .done := by
  induction fuel generalizing s with
  | zero => omega
  | succ fuel ih =>
    unfold xtrLoop
    dsimp only
    by_cases hd : s.xtrIterate.status.xstate = .done
    · rw [if_pos hd]; exact hd
    · rw [if_neg hd]
      exact ih (by have := xtrIterate_measure hd; omega)

theorem xtrRunAll_done (s : State) : s.xtrRunAll.status.xstate = .done := xtrLoop_done (Nat.lt_succ_self _)

/-- What every iteration keeps, from a state that has it, the whole loop keeps. -/
theorem xtrLoop_induction {motive : State → State → Prop} (hrefl : ∀ s, motive s s)
    (hstep : ∀ s, motive s s.xtrIterate) (htrans : ∀ s t u, motive s t → motive t u → motive s u) (fuel : Nat)
    (s : State) : motive s (xtrLoop fuel s) := by
  induction fuel generalizing s with
  | zero => exact hrefl s
  | succ fuel ih =>
    unfold xtrLoop
    dsimp only
    split
    · exact hstep s
    · exact htrans _ _ _ (hstep s) (ih _)

/-- XTR.RUN touches nothing but the extractor (R200). -/
theorem xtrRunAll_same (s : State) : ExtractorSame s s.xtrRunAll :=
  xtrLoop_induction extractorSame_refl xtrIterate_same (fun _ _ _ h g => h.trans g) _ s

/-- The loop's result does not change with more fuel than it needs. -/
theorem xtrLoop_succ {fuel : Nat} {s : State} (h : (xtrLoop fuel s).status.xstate = .done) (hpos : 0 < fuel) :
    xtrLoop (fuel + 1) s = xtrLoop fuel s := by
  induction fuel generalizing s with
  | zero => omega
  | succ fuel ih =>
    conv_lhs => unfold xtrLoop
    conv_rhs => unfold xtrLoop
    unfold xtrLoop at h
    dsimp only at h ⊢
    by_cases hd : s.xtrIterate.status.xstate = .done
    · rw [if_pos hd, if_pos hd]
    · rw [if_neg hd] at h ⊢
      rw [if_neg hd]
      cases fuel with
      | zero => exact absurd h hd
      | succ fuel => exact ih h (by omega)

end Sys2Proof.Machine
end

