-- ==== Sys2Proof/Laws/Step.lean ====
section
/-! SUPPORT. One step by what stands at the head of the inputs, and a run of steps put together from its parts. -/

namespace Sys2Proof.Machine

theorem step_access {s : State} {a : Access} {rest : List Event} (h : s.inputs = .access a :: rest) :
    step s = .next ({ s with inputs := rest }.hostAccess a) := by
  unfold step; rw [h]

theorem step_engine {s : State} {rest : List Event} (h : s.inputs = .engine :: rest) :
    step s = engineTurn { s with inputs := rest } := by
  unfold step; rw [h]

theorem step_rst {s : State} {rest : List Event} (h : s.inputs = .rst :: rest) :
    step s = .next { s with inputs := rest }.applyReset := by
  unfold step; rw [h]

theorem step_nil {s : State} (h : s.inputs = []) : step s = engineTurn s := by
  unfold step; rw [h]

theorem engineTurn_idle {s : State} (h : s.pend = none) : engineTurn s = .next s := by
  unfold engineTurn State.fetch; rw [h]; rfl

theorem engineTurn_command {s : State} {w : Word} {i : Instr} (h : s.pend = some w) (hd : decode w = .ok i) :
    engineTurn s = exec i s := by
  unfold engineTurn State.fetch; rw [h]; simp only [Option.map_some, hd]

/-- A write access at the head of the inputs. -/
theorem step_write {s : State} {off v : Word} {rest : List Event} (h : s.inputs = memWrite off v :: rest) :
    step s = .next ({ s with inputs := rest }.hostWrite ⟨.write, off, 4, v⟩) := step_access h

/-- A read access at the head of the inputs. -/
theorem step_read {s : State} {off : Word} {rest : List Event} (h : s.inputs = memRead off :: rest) :
    step s = .next ({ s with inputs := rest }.hostRead ⟨.read, off, 4, 0#32⟩) := step_access h

/-- A write to a register while BUSY = 0, or to STATUS. -/
theorem step_writeReg {s : State} {r : Reg} {v : Word} {rest : List Event} (hb : s.pend = none ∨ r = .status)
    (h : s.inputs = memWrite r.offset v :: rest) : step s = .next
      (({ s with inputs := rest }.writeReg r v).getD ({ s with inputs := rest }.raise .bus)) := by
  rw [step_write h, hostWrite_idle _ ((aligned_iff _).mpr ⟨rfl, regOffset_aligned r⟩)]
  · dsimp only
    rw [decodeOffset_reg]
    rfl
  · rcases hb with hb | rfl
    · exact .inl hb
    · exact .inr rfl

/-- A write to a word of a window while BUSY = 0. -/
theorem step_writeElem {s : State} {b : BufId} {k : Nat} {v : Word} {rest : List Event} (hk : k < 262144)
    (hb : s.pend = none) (h : s.inputs = memWrite (wordOffset b k) v :: rest) : step s = .next
      (if k < windowWords s.params b then
        ({ s with inputs := rest }.writeElem b k v).getD ({ s with inputs := rest }.raise .bus)
      else { s with inputs := rest }.raise .bus) := by
  rw [step_write h, hostWrite_idle { s with inputs := rest } ((aligned_iff _).mpr ⟨rfl, wordOffset_aligned b hk⟩) (.inl hb)]
  dsimp only
  rw [decodeOffset_word _ _ hk]
  split <;> rfl

/-- A read of a register, BUSY or not. -/
theorem step_readReg {s : State} {r : Reg} {rest : List Event} (h : s.inputs = memRead r.offset :: rest) :
    step s = .next ({ s with inputs := rest }.reply (s.readReg r)) := by
  rw [step_read h, hostRead_word _ (regOffset_aligned r)]
  dsimp only
  rw [decodeOffset_reg]
  cases r <;> rfl

/-- A read of a word of a window, BUSY or not. -/
theorem step_readElem {s : State} {b : BufId} {k : Nat} {rest : List Event} (hk : k < 262144)
    (h : s.inputs = memRead (wordOffset b k) :: rest) : step s = .next
      (if k < windowWords s.params b then { s with inputs := rest }.reply (s.mem.word b k)
      else ({ s with inputs := rest }.raise .bus).reply 0#32) := by
  rw [step_read h, hostRead_word _ (wordOffset_aligned b hk)]
  dsimp only
  rw [decodeOffset_word _ _ hk]
  split <;> rfl

/-! ### Runs -/

theorem runFor_zero (s : State) : runFor 0 s = .next s := rfl

/-- A run of one step more. -/
theorem runFor_succ {n : Nat} {s t : State} (h : step s = .next t) : runFor (n + 1) s = runFor n t := by
  have hc : Sys2Proof.core.step s = .next t := h
  simp only [runFor, Host.Core.run, hc]
  rfl

/-- A run of one step more that ends well begins with a step. -/
theorem runFor_succ_next {n : Nat} {s u : State} (h : runFor (n + 1) s = .next u) :
    ∃ t, step s = .next t ∧ runFor n t = .next u := by
  cases hst : step s with
  | next t => exact ⟨t, rfl, runFor_succ hst ▸ h⟩
  | fault r =>
    have hc : Sys2Proof.core.step s = .fault r := hst
    simp only [runFor, Host.Core.run, hc] at h
    cases h
  | refused r =>
    have hc : Sys2Proof.core.step s = .refused r := hst
    simp only [runFor, Host.Core.run, hc] at h
    cases h

/-- A run cut in two. -/
theorem runFor_add {m n : Nat} {s t : State} (h : runFor m s = .next t) : runFor (m + n) s = runFor n t := by
  induction m generalizing s with
  | zero => cases h; rw [Nat.zero_add]
  | succ m ih =>
    obtain ⟨s', h1, h2⟩ := runFor_succ_next h
    rw [show m + 1 + n = (m + n) + 1 by omega, runFor_succ h1, ih h2]

/-! ### Commands one after another -/

theorem execAll_nil (s : State) : execAll [] s = .next s := rfl

theorem execAll_cons {i : Instr} {rest : List Instr} {s t : State} (h : exec i s = .next t) :
    execAll (i :: rest) s = execAll rest t := by
  show (match exec i s with | .next t => execAll rest t | .fault f => .fault f | .refused r => .refused r) = _
  rw [h]

end Sys2Proof.Machine
end

