-- ==== Sys2Proof/Laws/Host.lean ====
section
/-! SUPPORT. A host at the block: one event, one access, and what its two loops end with (R95, R96). -/

namespace Sys2Proof.Machine

/-! ### Events and accesses -/

@[simp] theorem HostRun.event_access (h : HostRun) (a : Access) :
    h.event (.access a) = some { h with block := h.block.hostAccess a } := rfl

/-- The engine's turn at a host: the block moves as the engine moves it, the schedule stays. -/
theorem HostRun.event_engine {h : HostRun} {t : State} (ht : engineTurn h.block = .next t) :
    h.event .engine = some { h with block := t } := by
  have hs : step { h.block with inputs := .engine :: h.block.inputs } = .next t := ht
  simp only [HostRun.event, hs]

/-- With BUSY = 0 the engine's turn changes nothing. -/
theorem HostRun.event_engine_idle {h : HostRun} (hp : h.block.pend = none) : h.event .engine = some h :=
  HostRun.event_engine (engineTurn_idle hp)

/-- An access is the event at the block itself, or at the block after the engine's turn; one entry of the schedule is
used, if there is one. -/
theorem HostRun.access_cases {h u : HostRun} {e : Event} (ha : h.access e = some u) :
    ∃ v : HostRun, v.event e = some u ∧
      (v = { h with turns := h.turns.tail } ∧ h.turns.head? = some false
        ∨ { h with turns := h.turns.tail }.event .engine = some v ∧ h.turns.head? ≠ some false) := by
  obtain ⟨s, turns⟩ := h
  cases turns with
  | nil =>
    obtain ⟨v, hv, hu⟩ := Option.bind_eq_some_iff.mp ha
    exact ⟨v, hu, .inr ⟨hv, by simp⟩⟩
  | cons turn rest =>
    cases turn with
    | false => exact ⟨_, ha, .inl ⟨rfl, rfl⟩⟩
    | true =>
      obtain ⟨v, hv, hu⟩ := Option.bind_eq_some_iff.mp ha
      exact ⟨v, hu, .inr ⟨hv, by simp⟩⟩

/-- No event changes the schedule. -/
theorem HostRun.event_turns {h u : HostRun} {e : Event} (hu : h.event e = some u) : u.turns = h.turns := by
  unfold HostRun.event at hu
  split at hu
  · cases hu; rfl
  · cases hu
  · cases hu

/-! ### Actions -/

theorem HostRun.actions_append (as bs : List HostAction) (h : HostRun) :
    HostRun.actions (as ++ bs) h = (HostRun.actions as h).bind (HostRun.actions bs) := by
  induction as generalizing h with
  | nil => rfl
  | cons a as ih =>
    simp only [List.cons_append, HostRun.actions, Option.bind_assoc]
    exact congrArg _ (funext ih)

/-! ### The two loops -/

/-- One read of WAIT. -/
theorem waitLoop_succ {h u : HostRun} (reads : Nat) (hu : h.access (memRead Reg.status.offset) = some u) :
    waitLoop (reads + 1) h = if u.lastRead.getLsbD 0 then waitLoop reads u else some u := by
  simp only [waitLoop, hu]

/-- WAIT ends with a read that returned BUSY = 0. -/
theorem waitLoop_busy_clear {reads : Nat} {h u : HostRun} (hw : waitLoop reads h = some u) :
    u.lastRead.getLsbD 0 = false := by
  induction reads generalizing h with
  | zero => cases hw
  | succ reads ih =>
    simp only [waitLoop] at hw
    split at hw
    · split at hw
      · exact ih hw
      · cases hw; simp_all
    · cases hw

/-- One round of REPEAT and its test. -/
theorem untilLoop_succ {body : HostRun → Option HostRun} {r : Reg} {h u : HostRun} (m v : Word) (rounds : Nat)
    (hu : HostRun.round body r h = some u) : untilLoop body r m v (rounds + 1) h
      = if u.lastRead &&& m = v then some u else untilLoop body r m v rounds u := by
  simp only [untilLoop, hu]

/-- REPEAT ends after at least one round, with a read that passes the test of UNTIL. -/
theorem untilLoop_ends {body : HostRun → Option HostRun} {r : Reg} {m v : Word} {rounds : Nat} {h u : HostRun}
    (hl : untilLoop body r m v rounds h = some u) :
    u.lastRead &&& m = v ∧ ∃ w, HostRun.round body r w = some u := by
  induction rounds generalizing h with
  | zero => cases hl
  | succ rounds ih =>
    simp only [untilLoop] at hl
    split at hl
    · rename_i w hw
      split at hl
      · cases hl; exact ⟨‹_›, h, hw⟩
      · exact ih hl
    · cases hl

end Sys2Proof.Machine
end

