-- ==== Sys2Proof/Laws/PerInstr.lean ====
section
/-! SUPPORT. Statements about every command, one lemma for each. -/

namespace Sys2Proof.Laws.EncodeMatchesRow

open Sys2Proof

/-- The encoding of a command is a word of its own row of R89: under the row's mask it has the row's match value. -/
def Statement (i : Instr) : Prop := ∃ row ∈ opcodeMap, row.mnemonic = i.mnemonic ∧ row.encodes (encode i) = true

theorem crcInit : Statement .crcInit :=
  ⟨⟨.crcInit, 0x01000000#32, 0xFFFFFFFF#32⟩, by simp [opcodeMap], rfl, rfl⟩

theorem crcByte (b : Byte) : Statement (.crcByte b) := by
  refine ⟨⟨.crcByte, 0x02000000#32, 0xFFFFFF00#32⟩, by simp [opcodeMap], rfl, ?_⟩
  apply beq_iff_eq.mpr
  show (0x02#8 ++ (0#16 ++ b : BitVec 24) : BitVec 32) &&& (0xFF#8 ++ (0xFFFF#16 ++ 0#8 : BitVec 24))
    = 0x02#8 ++ (0#16 ++ 0#8 : BitVec 24)
  rw [BitVec.and_append, BitVec.and_append, BitVec.and_zero]
  rfl

theorem crcBlock : Statement .crcBlock :=
  ⟨⟨.crcBlock, 0x03000000#32, 0xFFFFFFFF#32⟩, by simp [opcodeMap], rfl, rfl⟩

theorem vlqInit : Statement .vlqInit :=
  ⟨⟨.vlqInit, 0x10000000#32, 0xFFFFFFFF#32⟩, by simp [opcodeMap], rfl, rfl⟩

theorem vlqByte (b : Byte) : Statement (.vlqByte b) := by
  refine ⟨⟨.vlqByte, 0x11000000#32, 0xFFFFFF00#32⟩, by simp [opcodeMap], rfl, ?_⟩
  apply beq_iff_eq.mpr
  show (0x11#8 ++ (0#16 ++ b : BitVec 24) : BitVec 32) &&& (0xFF#8 ++ (0xFFFF#16 ++ 0#8 : BitVec 24))
    = 0x11#8 ++ (0#16 ++ 0#8 : BitVec 24)
  rw [BitVec.and_append, BitVec.and_append, BitVec.and_zero]
  rfl

theorem lutN2c (v : Nibble) : Statement (.lutN2c v) := by
  refine ⟨⟨.lutN2c, 0x20000000#32, 0xFFFFFFF0#32⟩, by simp [opcodeMap], rfl, ?_⟩
  apply beq_iff_eq.mpr
  show (0x20#8 ++ (0#20 ++ v : BitVec 24) : BitVec 32) &&& (0xFF#8 ++ (0xFFFFF#20 ++ 0#4 : BitVec 24))
    = 0x20#8 ++ (0#20 ++ 0#4 : BitVec 24)
  rw [BitVec.and_append, BitVec.and_append, BitVec.and_zero]
  rfl

theorem lutC2n (c : CodeUnit) : Statement (.lutC2n c) := by
  refine ⟨⟨.lutC2n, 0x21000000#32, 0xFFFF0000#32⟩, by simp [opcodeMap], rfl, ?_⟩
  apply beq_iff_eq.mpr
  show (0x21#8 ++ (0#8 ++ c : BitVec 24) : BitVec 32) &&& (0xFF#8 ++ (0xFF#8 ++ 0#16 : BitVec 24))
    = 0x21#8 ++ (0#8 ++ 0#16 : BitVec 24)
  rw [BitVec.and_append, BitVec.and_append, BitVec.and_zero]
  rfl

theorem frameParse (off : BitVec 24) : Statement (.frameParse off) := by
  refine ⟨⟨.frameParse, 0x30000000#32, 0xFF000000#32⟩, by simp [opcodeMap], rfl, ?_⟩
  apply beq_iff_eq.mpr
  show (0x30#8 ++ off : BitVec 32) &&& (0xFF#8 ++ 0#24) = 0x30#8 ++ 0#24
  rw [BitVec.and_append, BitVec.and_zero]
  rfl

theorem scan : Statement .scan :=
  ⟨⟨.scan, 0x40000000#32, 0xFFFFFFFF#32⟩, by simp [opcodeMap], rfl, rfl⟩

theorem filter : Statement .filter :=
  ⟨⟨.filter, 0x40000001#32, 0xFFFFFFFF#32⟩, by simp [opcodeMap], rfl, rfl⟩

theorem xtrReset : Statement .xtrReset :=
  ⟨⟨.xtrReset, 0x50000000#32, 0xFFFFFFFF#32⟩, by simp [opcodeMap], rfl, rfl⟩

theorem xtrStep : Statement .xtrStep :=
  ⟨⟨.xtrStep, 0x51000000#32, 0xFFFFFFFF#32⟩, by simp [opcodeMap], rfl, rfl⟩

theorem xtrRun : Statement .xtrRun :=
  ⟨⟨.xtrRun, 0x52000000#32, 0xFFFFFFFF#32⟩, by simp [opcodeMap], rfl, rfl⟩

end Sys2Proof.Laws.EncodeMatchesRow
end

