-- ==== Sys2Proof/Laws/Scanner.lean ====
section
/-! SUPPORT. The scan: how it splits at a unit outside the alphabet, what one run yields, and the sizes of its outputs. -/

namespace Sys2Proof.Machine

/-! ### Putting outputs together -/

theorem scanAppend_assoc (a b c : ScanOut) : (a.append b).append c = a.append (b.append c) := by
  simp only [ScanOut.append, List.append_assoc]

@[simp] theorem scanAppend_empty (a : ScanOut) : a.append ⟨[], [], []⟩ = a := by
  simp only [ScanOut.append, List.append_nil]

@[simp] theorem scanEmpty_append (a : ScanOut) : ScanOut.append ⟨[], [], []⟩ a = a := rfl

/-! ### Where a scan can be cut -/

@[simp] theorem runOut_nil (p : Params) : runOut p [] = ⟨[], [], []⟩ := rfl

@[simp] theorem scanUnits_nil (p : Params) : scanUnits p [] = ⟨[], [], []⟩ := rfl

/-- Alphabet units join the run read so far. -/
theorem scanFrom_alpha (p : Params) (run xs rest : List CodeUnit) (h : ∀ c ∈ xs, isAlpha p c = true) :
    scanFrom p run (xs ++ rest) = scanFrom p (run ++ xs) rest := by
  induction xs generalizing run with
  | nil => simp
  | cons c xs ih =>
    have hc : isAlpha p c = true := h c (by simp)
    show scanFrom p run (c :: (xs ++ rest)) = _
    rw [scanFrom, if_pos hc, ih _ (fun d hd => h d (by simp [hd])), List.append_assoc]
    rfl

/-- A unit outside the alphabet ends the run (R175). -/
theorem scanFrom_stop (p : Params) (run rest : List CodeUnit) {c : CodeUnit} (h : isAlpha p c = false) :
    scanFrom p run (c :: rest) = (runOut p run).append (ScanOut.append ⟨[c], [], []⟩ (scanUnits p rest)) := by
  rw [scanFrom, if_neg (by simp [h])]
  rfl

/-- A unit outside the alphabet is cover text (R175). -/
theorem scanUnits_stop (p : Params) (rest : List CodeUnit) {c : CodeUnit} (h : isAlpha p c = false) :
    scanUnits p (c :: rest) = ScanOut.append ⟨[c], [], []⟩ (scanUnits p rest) := scanFrom_stop p [] rest h

/-- The carrier can be cut before a unit outside the alphabet, or at its end. -/
theorem scanFrom_cut (p : Params) (run xs after : List CodeUnit)
    (h : ∀ c, after.head? = some c → isAlpha p c = false) :
    scanFrom p run (xs ++ after) = (scanFrom p run xs).append (scanUnits p after) := by
  induction xs generalizing run with
  | nil =>
    cases after with
    | nil => simp [scanFrom]
    | cons c rest =>
      have hc := h c rfl
      rw [List.nil_append, scanFrom_stop p run rest hc, scanUnits_stop p rest hc]
      rfl
  | cons d xs ih =>
    show scanFrom p run (d :: (xs ++ after)) = _
    by_cases hd : isAlpha p d = true
    · rw [scanFrom, if_pos hd, ih, scanFrom, if_pos hd]
    · have hd' : isAlpha p d = false := by simpa using hd
      rw [scanFrom_stop p run _ hd', scanFrom_stop p run _ hd', scanUnits, ih, scanAppend_assoc, scanAppend_assoc]
      rfl

/-- The carrier can be cut after a unit outside the alphabet, or at its beginning. -/
theorem scanUnits_cut (p : Params) (before rest : List CodeUnit)
    (h : ∀ c, before.getLast? = some c → isAlpha p c = false) :
    scanUnits p (before ++ rest) = (scanUnits p before).append (scanUnits p rest) := by
  rcases List.eq_nil_or_concat before with rfl | ⟨xs, c, rfl⟩
  · simp
  · have hc : isAlpha p c = false := h c (by simp)
    have hhead : ∀ (l : List CodeUnit) d, (c :: l).head? = some d → isAlpha p d = false := by
      intro l d hd; cases hd; exact hc
    rw [List.concat_eq_append, List.append_assoc, List.singleton_append]
    unfold scanUnits
    rw [scanFrom_cut p [] xs (c :: rest) (hhead rest), scanFrom_cut p [] xs [c] (hhead []),
      scanUnits_stop p rest hc, scanUnits_stop p [] hc, scanAppend_assoc]
    rfl

/-- A whole carrier of alphabet units is one run (R170). -/
theorem scanUnits_run (p : Params) {run : List CodeUnit} (h : ∀ c ∈ run, isAlpha p c = true) :
    scanUnits p run = runOut p run := by
  have := scanFrom_alpha p [] run [] h
  rwa [List.append_nil, List.nil_append] at this

/-- What a scan yields around one maximal run (R170). -/
theorem scanUnits_around (p : Params) {before run after : List CodeUnit} (hr : ∀ c ∈ run, isAlpha p c = true)
    (hb : ∀ c, before.getLast? = some c → isAlpha p c = false)
    (ha : ∀ c, after.head? = some c → isAlpha p c = false) :
    scanUnits p (before ++ run ++ after)
      = ((scanUnits p before).append (runOut p run)).append (scanUnits p after) := by
  rw [List.append_assoc, scanUnits_cut p before _ hb, scanAppend_assoc]
  congr 1
  unfold scanUnits
  rw [scanFrom_cut p [] run after ha]
  congr 1
  exact scanUnits_run p hr

/-! ### One run -/

theorem pairBytes_length (p : Params) : ∀ run : List CodeUnit, (pairBytes p run).length = run.length / 2
  | [] => rfl
  | [_] => by simp [pairBytes]
  | _ :: _ :: rest => by
    simp only [pairBytes, List.length_cons, pairBytes_length p rest]
    omega

theorem runOut_noise (p : Params) {run : List CodeUnit} (h : run.length < 16) : runOut p run = ⟨run, [], []⟩ :=
  if_pos h

theorem runOut_retained (p : Params) {run : List CodeUnit} (h : 16 ≤ run.length) :
    runOut p run = ⟨[], pairBytes p run, [run.length / 2]⟩ := by
  unfold runOut
  rw [if_neg (by omega), show (run.length - run.length % 2) / 2 = run.length / 2 by omega]

/-! ### Induction over a scan -/

/-- A property of outputs that every run has, that every unit outside the alphabet has, and that appending keeps, holds
of every scan. `size` is how many units the output was read from. -/
theorem scan_induction (p : Params) {motive : Nat → ScanOut → Prop} (hrun : ∀ run, motive run.length (runOut p run))
    (hunit : ∀ c, isAlpha p c = false → motive 1 ⟨[c], [], []⟩)
    (happ : ∀ m n a b, motive m a → motive n b → motive (m + n) (a.append b)) (units : List CodeUnit) :
    motive units.length (scanUnits p units) := by
  suffices h : ∀ units run, motive (run.length + units.length) (scanFrom p run units) by
    simpa [scanUnits] using h units []
  intro units
  induction units with
  | nil => intro run; simpa [scanFrom] using hrun run
  | cons c rest ih =>
    intro run
    by_cases hc : isAlpha p c = true
    · rw [scanFrom, if_pos hc]
      have := ih (run ++ [c])
      rwa [show (run ++ [c]).length + rest.length = run.length + (c :: rest).length by simp; omega] at this
    · have hc' : isAlpha p c = false := by simpa using hc
      rw [scanFrom_stop p run rest hc']
      have := happ _ _ _ _ (hrun run) (happ _ _ _ _ (hunit c hc') (by simpa using ih []))
      rwa [show run.length + (1 + rest.length) = run.length + (c :: rest).length by simp; omega] at this

/-- The sizes of the three outputs against the carrier (R177). -/
theorem scanUnits_sizes (p : Params) (units : List CodeUnit) :
    (scanUnits p units).cover.length + 2 * (scanUnits p units).stream.length ≤ units.length
      ∧ 16 * (scanUnits p units).runs.length ≤ units.length := by
  refine scan_induction p (motive := fun n o => o.cover.length + 2 * o.stream.length ≤ n ∧ 16 * o.runs.length ≤ n)
    ?_ ?_ ?_ units
  · intro run
    by_cases h : run.length < 16
    · rw [runOut_noise p h]; simp
    · rw [runOut_retained p (by omega)]
      simp only [List.length_nil, pairBytes_length, List.length_singleton]
      omega
  · intro c _; simp
  · intro m n a b h1 h2
    simp only [ScanOut.append, List.length_append]
    omega

/-- The entries of a scan are at least 8 and sum to the length of its stream (R54). -/
theorem scanUnits_runs (p : Params) (units : List CodeUnit) :
    (scanUnits p units).runs.sum = (scanUnits p units).stream.length ∧ ∀ r ∈ (scanUnits p units).runs, 8 ≤ r := by
  refine scan_induction p (motive := fun _ o => o.runs.sum = o.stream.length ∧ ∀ r ∈ o.runs, 8 ≤ r) ?_ ?_ ?_ units
  · intro run
    by_cases h : run.length < 16
    · rw [runOut_noise p h]; simp
    · rw [runOut_retained p (by omega)]
      simp [pairBytes_length]
      omega
  · intro c _; simp
  · rintro m n a b ⟨h1, h2⟩ ⟨h3, h4⟩
    refine ⟨by simp [ScanOut.append, h1, h3], fun r hr => ?_⟩
    simp only [ScanOut.append, List.mem_append] at hr
    exact hr.elim (h2 r) (h4 r)

/-! ### The carrier of a state -/

theorem carrierUnits_length (s : State) : s.carrierUnits.length = s.carrierLen.toNat := by
  simp [State.carrierUnits]

/-- The sizes of a scan of the machine's carrier, and that they fit the 32-bit length registers. -/
theorem scanOut_sizes (s : State) :
    s.scanOut.cover.length ≤ s.carrierLen.toNat ∧ s.scanOut.stream.length ≤ s.carrierLen.toNat / 2
      ∧ s.scanOut.runs.length ≤ s.carrierLen.toNat / 16 ∧ s.scanOut.cover.length < 4294967296
      ∧ s.scanOut.stream.length < 4294967296 ∧ s.scanOut.runs.length < 4294967296 := by
  have h := scanUnits_sizes s.params s.carrierUnits
  rw [carrierUnits_length] at h
  have hc := s.carrierLen.isLt
  unfold State.scanOut
  omega

end Sys2Proof.Machine
end

