-- ==== Sys2Proof/Tests/Slice0.lean ====
section
/-! SUPPORT. Tests: the checks of WellFormed, words of R89 written out bit by bit, one step of each command on the
examples the rules print, and for every statement with hypotheses a state and operands that meet them. -/

namespace Sys2Proof.Tests

open Sys2Proof Sys2Proof.Machine

/- The theorems are checked one after another, so that a check needs few threads. -/
set_option Elab.async false

/-! ### Well-formedness of command lines (R95) -/

theorem test_line_accepts_the_examples : CommandLine.check ⟨.lutN2c, some 10⟩ = .ok (.lutN2c 10#4)
    ∧ CommandLine.check ⟨.crcByte, some 0x31⟩ = .ok (.crcByte 0x31#8)
    ∧ CommandLine.check ⟨.lutC2n, some 0x0041⟩ = .ok (.lutC2n 0x0041#16)
    ∧ CommandLine.check ⟨.frameParse, some 0⟩ = .ok (.frameParse 0#24)
    ∧ CommandLine.check ⟨.scan, none⟩ = .ok .scan ∧ CommandLine.check ⟨.filter, none⟩ = .ok .filter := by
  decide +kernel

theorem test_line_operandMissing : CommandLine.check ⟨.crcByte, none⟩ = .error .operandMissing
    ∧ CommandLine.wellFormed ⟨.crcByte, none⟩ = false := by decide +kernel

theorem test_line_operandUnexpected : CommandLine.check ⟨.scan, some 1⟩ = .error .operandUnexpected
    ∧ CommandLine.check ⟨.crcInit, some 0⟩ = .error .operandUnexpected := by decide +kernel

theorem test_line_operandTooWide : CommandLine.check ⟨.lutN2c, some 16⟩ = .error (.operandTooWide 4)
    ∧ CommandLine.check ⟨.crcByte, some 256⟩ = .error (.operandTooWide 8)
    ∧ CommandLine.check ⟨.vlqByte, some 256⟩ = .error (.operandTooWide 8)
    ∧ CommandLine.check ⟨.lutC2n, some 65536⟩ = .error (.operandTooWide 16)
    ∧ CommandLine.check ⟨.frameParse, some 16777216⟩ = .error (.operandTooWide 24) := by decide +kernel

/-! ### Words of R89, bits 31 down to 0: OPC, then the format of R87 -/

theorem test_decode_crcInit : decode 0b00000001000000000000000000000000#32 = .ok .crcInit := by decide +kernel
theorem test_decode_crcByte : decode 0b00000010000000000000000010110001#32 = .ok (.crcByte 0xB1#8) := by
  decide +kernel
theorem test_decode_crcBlock : decode 0b00000011000000000000000000000000#32 = .ok .crcBlock := by decide +kernel
theorem test_decode_vlqInit : decode 0b00010000000000000000000000000000#32 = .ok .vlqInit := by decide +kernel
theorem test_decode_vlqByte : decode 0b00010001000000000000000010000001#32 = .ok (.vlqByte 0x81#8) := by
  decide +kernel
theorem test_decode_lutN2c : decode 0b00100000000000000000000000001010#32 = .ok (.lutN2c 10#4) := by decide +kernel
theorem test_decode_lutC2n : decode 0b00100001000000001111111000000011#32 = .ok (.lutC2n 0xFE03#16) := by
  decide +kernel
theorem test_decode_frameParse : decode 0b00110000100000010000001000000100#32 = .ok (.frameParse 0x810204#24) := by
  decide +kernel
theorem test_decode_scan : decode 0b01000000000000000000000000000000#32 = .ok .scan := by decide +kernel
theorem test_decode_filter : decode 0b01000000000000000000000000000001#32 = .ok .filter := by decide +kernel
theorem test_decode_xtrReset : decode 0b01010000000000000000000000000000#32 = .ok .xtrReset := by decide +kernel
theorem test_decode_xtrStep : decode 0b01010001000000000000000000000000#32 = .ok .xtrStep := by decide +kernel
theorem test_decode_xtrRun : decode 0b01010010000000000000000000000000#32 = .ok .xtrRun := by decide +kernel

/-- R90, R91: a reserved opcode beside each listed range, and the two examples of reserved operand bits. -/
theorem test_decode_reserved : decode 0#32 = .error (.reservedOpcode 0x00#8)
    ∧ decode 0x04000000#32 = .error (.reservedOpcode 0x04#8) ∧ decode 0x53000000#32 = .error (.reservedOpcode 0x53#8)
    ∧ decode 0x20000010#32 = .error (.reservedOperandBits 0x20#8)
    ∧ decode 0x40000002#32 = .error (.reservedOperandBits 0x40#8)
    ∧ decode 0x01000001#32 = .error (.reservedOperandBits 0x01#8) := by decide +kernel

theorem test_decodeTableWord : decodeTableWord 32 0x2000000A = some (.lutN2c 10#4)
    ∧ decodeTableWord 32 0x20000010 = none := by decide +kernel

/-! ### Small states -/

/-- A legal configuration: an alphabet of code units outside ASCII and the surrogates, and small capacities. -/
def params : Params where
  alphabet := #v[0xFE00, 0xFE01, 0xFE02, 0xFE03, 0xFE04, 0xFE05, 0xFE06, 0xFE07, 0xFE08, 0xFE09, 0xFE0A, 0xFE0B,
    0xFE0C, 0xFE0D, 0xFE0E, 0xFE0F]
  maxCarrier := 96
  maxResults := 2

/-- Right after a reset under `params`. -/
def base : State := State.afterReset params 0 [] []

/-- A stream and its run lengths, as LOADS and LOADR leave them. -/
def loaded (bytes : List Byte) (runs : List Word) : State :=
  { (base.writeStream 0 bytes).writeRunlen 0 runs with
    streamLen := BitVec.ofNat 32 bytes.length
    runCount := BitVec.ofNat 32 runs.length }

/-- A carrier, as LOADC leaves it. -/
def carrying (units : List CodeUnit) : State :=
  { base.writeCarrier 0 units with carrierLen := BitVec.ofNat 32 units.length }

/-- The state a command leaves. -/
def after (i : Instr) (s : State) : State :=
  match exec i s with
  | .next t => t
  | _ => s

/-- The state a step leaves. -/
def stepped (s : State) : State :=
  match step s with
  | .next t => t
  | _ => s

/-- The nine bytes of the check value (R133). -/
def digits : List Byte := [0x31, 0x32, 0x33, 0x34, 0x35, 0x36, 0x37, 0x38, 0x39]

/-- The frames of the examples of R162 and R197. -/
def frame1 : List Byte := [0x44, 0x00, 0xD8, 0x93, 0x2A, 0xAC, 0x01, 0x02, 0x68, 0x69]
def frame2 : List Byte := [0x44, 0x00, 0xE8, 0xB7, 0xBE, 0x43, 0x02, 0x01, 0x61]

/-- `n` copies of the alphabet unit N(3). -/
def threes (n : Nat) : List CodeUnit := List.replicate n 0xFE03#16

/-! ### One step of each command, on the examples of its rule -/

/-- R135. -/
theorem test_crcInit : (after .crcInit { base with crcState := 5#32 }).readReg .crcResult = 0#32 := by decide +kernel

/-- R136: CRC.BYTE 0x31 from all ones. -/
theorem test_crcByte : (after (.crcByte 0x31#8) base).crcState = 0x7C231048#32 := by decide +kernel

/-- R137: the range of nine bytes, and one byte more than the stream holds. -/
theorem test_crcBlock : (after .crcBlock { loaded digits [] with crcLen := 9#32 }).crcState = 0x340BC6D9#32 := by
  decide +kernel
theorem test_crcBlock_range : (after .crcBlock { loaded digits [] with crcStart := 1#32, crcLen := 9#32 }).status
    = ⟨true, true, false, false, false, .start⟩ := by decide +kernel

/-- R133: the check value. -/
theorem test_crc32_check : crc32 digits = 0xCBF43926#32 := by decide +kernel

/-- R117. -/
theorem test_vlqInit : (after .vlqInit { base with vlqAcc := 9#32, vlqStat := ⟨3#8, true, true, true⟩ }).readReg
    .vlqStat = 0#32 := by decide +kernel

/-- R118: 0x00 after 0x81 gives VLQ_STAT = 0x00000102; a byte after the terminator sets EXTRA. -/
theorem test_vlqByte : let t := after (.vlqByte 0x00#8) (after (.vlqByte 0x81#8) base)
    t.vlqAcc = 128#32 ∧ t.readReg .vlqStat = 0x00000102#32 := by decide +kernel
theorem test_vlqByte_extra : (after (.vlqByte 0x05#8) { base with vlqStat := ⟨255#8, true, false, false⟩ }).readReg
    .vlqStat = 0x000005FF#32 := by decide +kernel

/-- R107. -/
theorem test_lutN2c : (after (.lutN2c 10#4) base).readReg .lutOut = 0x0001FE0A#32 := by decide +kernel

/-- R108: a member, and 'A'. -/
theorem test_lutC2n : (after (.lutC2n 0xFE0F#16) base).readReg .lutOut = 0x0001000F#32 := by decide +kernel
theorem test_lutC2n_none : (after (.lutC2n 0x0041#16) base).readReg .lutOut = 0#32 := by decide +kernel

/-- R162: the example, and its second byte, which is no signature. -/
theorem test_frameParse : (after (.frameParse 0#24) (loaded frame1 [])).fr
    = ⟨0x4#32, 0xD8932AAC#32, 0xD8932AAC#32, 1#32, 2#32, 8#32, 10#32, 1#32⟩ := by decide +kernel
theorem test_frameParse_mismatch : (after (.frameParse 1#24) (loaded frame1 [])).fr
    = ⟨1#32, 0#32, 0#32, 0#32, 0#32, 0#32, 0#32, 0#32⟩ := by decide +kernel

/-- R176: the example's carrier. -/
theorem test_scan : let t := after .scan (carrying (0x41#16 :: encodeChars params frame1 ++ [0x42#16]))
    (List.range 10).map t.mem.streamAt = frame1 ∧ t.streamLen = 10#32 ∧ t.coverLen = 2#32 ∧ t.runCount = 1#32
      ∧ (List.range 2).map t.mem.coverAt = [0x41#16, 0x42#16] ∧ t.mem.runlenAt 0 = 10#32 := by decide +kernel

/-- R172: a run of 17 drops one unit. -/
theorem test_scan_odd : let t := after .scan (carrying (threes 17))
    t.streamLen = 8#32 ∧ t.coverLen = 0#32 ∧ t.mem.runlenAt 0 = 8#32 := by decide +kernel

/-- R178: the example's carrier. -/
theorem test_filter : let t := after .filter (carrying (0x41#16 :: threes 10 ++ [0x42#16]))
    t.coverLen = 12#32 ∧ t.streamLen = 0#32 ∧ (List.range 12).map t.mem.coverAt = 0x41#16 :: threes 10 ++ [0x42#16] :=
  by decide +kernel

/-- R186. -/
theorem test_xtrReset : let t := after .xtrReset { loaded frame1 [10#32] with
      xtrHead := 10#32, xtrRunHead := 1#32, resultCount := 1#32, status := ⟨false, false, false, false, false, .done⟩ }
    t.xtrHead = 0#32 ∧ t.xtrRunHead = 0#32 ∧ t.resultCount = 0#32 ∧ t.status.xstate = .start
      ∧ t.mem.runlenAt 0 = 10#32 := by decide +kernel

/-- R187: the example after the SCAN of R176. -/
theorem test_xtrStep : let t := after .xtrStep (loaded frame1 [10#32])
    t.mem.resultAt 0 = ⟨4#32, 0xD8932AAC#32, 0xD8932AAC#32, 1#32, 2#32, 8#32, 10#32, 1#32⟩ ∧ t.xtrHead = 10#32
      ∧ t.xtrRunHead = 1#32 ∧ t.status.xstate = .done := by decide +kernel

/-- R196: a front run of three bytes that is no frame. -/
theorem test_xtrStep_mismatch : let t := after .xtrStep (loaded (digits.take 3 ++ frame1) [3#32, 10#32])
    t.mem.resultAt 0 = ⟨1#32, 0#32, 0#32, 0#32, 0#32, 0#32, 3#32, 0#32⟩ ∧ t.xtrHead = 3#32 ∧ t.xtrRunHead = 1#32
      ∧ t.status.xstate = .loop := by decide +kernel

/-- R197: the example, two frames packed in one run. -/
theorem test_xtrRun : let t := after .xtrRun (loaded (frame1 ++ frame2) [19#32])
    t.resultCount = 2#32 ∧ t.xtrRunHead = 1#32 ∧ t.xtrHead = 19#32 ∧ t.mem.runlenAt 0 = 9#32
      ∧ (t.mem.resultAt 1).stored = 0xE8B7BE43#32 ∧ (t.mem.resultAt 1).dataStart = 18#32 := by decide +kernel

/-- R192: with room for two records, three bad runs leave ERR_OVF. -/
theorem test_xtrRun_full : let t := after .xtrRun (loaded (digits.take 3) [1#32, 1#32, 1#32])
    t.status.errOvf = true ∧ t.resultCount = 2#32 ∧ t.xtrHead = 2#32 ∧ t.xtrRunHead = 2#32 := by decide +kernel

/-! ### For every statement with hypotheses, a state and operands that meet them -/

/-- A state with BUSY = 1: CRC.BYTE 0x31 is pending. -/
def waiting : State := { base with pend := some 0x02000031#32 }

/-- A frame with a bad checksum and a good one, each in its own run (V-XTR-4). -/
def badThenGood : State := loaded (frame1.dropLast ++ [0x68#8] ++ frame2) [10#32, 9#32]

/-- The line XTR.STEP, and no more. -/
def stepLine : HostProgram := .ofLines [.command .xtrStep]

/-- `s` with these events to come. -/
def given (s : State) (events : List Event) : State := { s with inputs := events }

/-- A state with every length, head and count at the end of its range, entries at the last index of each buffer, and a
command pending. -/
def edge : State :=
  { ((((waiting.writeCarrier 95 [0xFFFF#16]).writeCover 95 [0x41#16]).writeStream 47 [0xFF#8]).writeRunlen 5
      [48#32]).writeResult 1 [bareRecord .noMessage] with
    carrierLen := 96#32, coverLen := 96#32, streamLen := 48#32, runCount := 6#32, resultCount := 2#32
    xtrHead := 48#32, xtrRunHead := 6#32 }

theorem test_witness_Inv : edge.Inv := by
  constructor <;> decide +kernel

/-- StepKeepsInv, StepKeepsParams: `edge` under each kind of event takes a step. -/
theorem test_witness_StepKeepsInv : (∃ t, step edge = .next t)
    ∧ (∃ t, step (given edge [.engine]) = .next t) ∧ (∃ t, step (given edge [.rst]) = .next t)
    ∧ ∃ t, step (given edge [memWrite 0x100000#32 7#32]) = .next t := ⟨⟨_, rfl⟩, ⟨_, rfl⟩, ⟨_, rfl⟩, ⟨_, rfl⟩⟩

/-- RunsNeverStop: a run of `edge`. -/
theorem test_witness_RunsNeverStop : edge.Inv ∧ ∃ t, runFor 2 edge = .next t := ⟨test_witness_Inv, ⟨_, rfl⟩⟩

/-- ResetEventRestoresEveryRegister: with a command pending. -/
theorem test_witness_ResetEvent : (given waiting [.rst, .engine]).inputs = .rst :: [.engine] := rfl

/-- EngineTurnRunsThePendingCommand: a command pending and none, with no input left and with the turn next. -/
theorem test_witness_EngineTurn : waiting.pend = some 0x02000031#32 ∧ decode 0x02000031#32 = .ok (.crcByte 0x31#8)
    ∧ waiting.inputs = [] ∧ (given waiting [.engine]).inputs = .engine :: [] ∧ base.pend = none ∧ base.inputs = []
    ∧ (given base [.engine, .rst]).inputs = .engine :: [.rst] := by decide +kernel

/-- HostLinesRunTheirCommands: the turn at once, and after two reads; a REPEAT of two rounds, within its bound. -/
theorem test_witness_HostLines : base.pend = none
    ∧ (given base (commandEvents 0 .scan)).inputs = commandEvents 0 .scan ++ []
    ∧ (given base (commandEvents 2 .scan ++ [.rst])).inputs = commandEvents 2 .scan ++ [.rst]
    ∧ (1 : Nat) ≤ 2 ∧ (HostRun.rounds (stepLine.perform 2) .status 2 ⟨badThenGood, []⟩).isSome = true := by
  decide +kernel

/-- A command line whose engine turn comes after two reads of STATUS, the schedule's next entry left. -/
theorem test_commandLine : ((HostRun.actions (HostLine.command .crcInit).actions
      ⟨base, [true, false, false, true, false]⟩).map (fun u => (u.block.replies, u.turns)))
    = some ([2#32, 1#32, 1#32], [false]) := by decide +kernel

/-- R96 (program P4): REPEAT, XTR.STEP, UNTIL (STATUS & 0x300) = 0x200 ends after the second frame, and a bound of one round is too
small. -/
theorem test_repeat : let program := HostProgram.repeatUntil stepLine .status 0x300#32 0x200#32 .done
    ((program.perform 2 ⟨badThenGood, [true, false]⟩).map (fun u => (u.lastRead, u.block.resultCount)))
        = some (0x202#32, 2#32)
      ∧ (program.perform 1 ⟨badThenGood, []⟩).isNone = true := by decide +kernel

/-- EncodeDecodeRoundTrip, DecodeAgreesWithTheOpcodeMap: a word of a row, at the ends of its operand. -/
theorem test_witness_rows : decode 0x30FFFFFF#32 = .ok (.frameParse 0xFFFFFF#24)
    ∧ (⟨.frameParse, 0x30000000#32, 0xFF000000#32⟩ : OpcodeRow).encodes 0x30FFFFFF#32 = true
    ∧ (⟨.frameParse, 0x30000000#32, 0xFF000000#32⟩ : OpcodeRow) ∈ opcodeMap := by decide +kernel

/-- ReservedWordsAreRejectedAtIssue: one word for each clause, its lowest reserved bit 1, issued while idle. -/
theorem test_witness_reserved : opcodeField 0x54000000#32 = 0x54#8
    ∧ (0x52000001#32).extractLsb' 0 24 ≠ 0#24 ∧ (0x02000100#32).extractLsb' 8 16 ≠ 0#16
    ∧ (0x20000010#32).extractLsb' 4 20 ≠ 0#20 ∧ (0x21010000#32).extractLsb' 16 8 ≠ 0#8
    ∧ (0x40000002#32).extractLsb' 1 23 ≠ 0#23 ∧ base.pend = none
    ∧ (given base [memWrite 0x000#32 0#32]).inputs = memWrite 0x000#32 0#32 :: [] := by decide +kernel

/-- CmdWriteIssuesOrRejects: a command and no command while idle, and a write while busy. -/
theorem test_witness_CmdWrite : base.pend = none ∧ decode 0x01000000#32 = .ok .crcInit
    ∧ decode 0#32 = .error (.reservedOpcode 0#8) ∧ waiting.pend ≠ none
    ∧ (given waiting [memWrite 0x000#32 0#32]).inputs = memWrite 0x000#32 0#32 :: [] := by decide +kernel

/-- BusyBlockDropsWrites, StatusWriteClearsTheSelectedBits: writes beside STATUS and to it, and a read of it. -/
theorem test_witness_busy : waiting.pend ≠ none ∧ (0x008#32).toNat % 4 = 0 ∧ (0x008#32) ≠ 0x004#32
    ∧ (0xFFFFFFFC#32).toNat % 4 = 0 ∧ (given waiting [memWrite 0x008#32 1#32]).inputs = memWrite 0x008#32 1#32 :: []
    ∧ (given waiting [memWrite 0x004#32 0x3E#32]).inputs = memWrite 0x004#32 0x3E#32 :: []
    ∧ (given waiting [memRead 0x004#32]).inputs = memRead 0x004#32 :: [] := by decide +kernel

/-- IllegalWidthOrAlignmentIsRefused: another width, and the nearest misaligned offset, reads and writes. -/
theorem test_witness_width : (given base [.access ⟨.read, 0x004#32, 2, 0#32⟩]).inputs
      = .access ⟨.read, 0x004#32, 2, 0#32⟩ :: [] ∧ (2 : Nat) ≠ 4 ∧ (0x003#32).toNat % 4 ≠ 0
    ∧ (given base [.access ⟨.write, 0x003#32, 4, 0#32⟩]).inputs = .access ⟨.write, 0x003#32, 4, 0#32⟩ :: [] := by
  decide +kernel

/-- OffsetsThatNameNothingAreRefused: the ends of the unmapped ranges, and the first and last word beyond each window's
capacity. -/
theorem test_witness_offsets : ([0x068#32, 0xFFFFC#32].all (fun off => decide (off.toNat % 4 = 0 ∧ 0x068 ≤ off.toNat
        ∧ off.toNat < 0x100000))) = true
    ∧ 0x100000 + 4 * params.maxCarrier ≤ (0x100180#32).toNat ∧ (0x1FFFFC#32).toNat < 0x200000
    ∧ 0x200000 + 4 * params.maxCarrier ≤ (0x200180#32).toNat ∧ (0x2FFFFC#32).toNat < 0x300000
    ∧ 0x300000 + 4 * (params.maxCarrier / 2) ≤ (0x3000C0#32).toNat ∧ (0x3FFFFC#32).toNat < 0x400000
    ∧ 0x400000 + 4 * (params.maxCarrier / 16) ≤ (0x400018#32).toNat ∧ (0x4FFFFC#32).toNat < 0x500000
    ∧ 0x500000 + 32 * params.maxResults ≤ (0x500040#32).toNat ∧ (0x5FFFFC#32).toNat < 0x600000
    ∧ 0x600000 ≤ (0x600000#32).toNat ∧ 0x600000 ≤ (0xFFFFFFFC#32).toNat ∧ base.pend = none
    ∧ (given base [memRead 0x500040#32]).inputs = memRead 0x500040#32 :: [] := by decide +kernel

/-- BufferWriteStoresTheElement, HostReadsReturnTheCurrentValue: the last word of each window, and of a record. -/
theorem test_witness_buffers : params.legal = true ∧ base.pend = none ∧ 95 < params.maxCarrier
    ∧ 47 < params.maxCarrier / 2 ∧ 5 < params.maxCarrier / 16 ∧ 1 < params.maxResults
    ∧ (given base [memWrite (BitVec.ofNat 32 (0x100000 + 4 * 95)) 0x12345#32]).inputs
      = memWrite (BitVec.ofNat 32 (0x100000 + 4 * 95)) 0x12345#32 :: []
    ∧ (given base [memRead (BitVec.ofNat 32 (0x500000 + 32 * 1 + 4 * 7))]).inputs
      = memRead (BitVec.ofNat 32 (0x500000 + 32 * 1 + 4 * 7)) :: [] := by decide +kernel

/-- A write of a CARRIER word keeps its low 16 bits (R64). -/
theorem test_buffer_write : (stepped (given base [memWrite (wordOffset .carrier 95) 0x12345#32])).mem.word .carrier 95
    = 0x2345#32 := by decide +kernel

/-- RightsViolationsAreRefused, RegisterWritesSetTheRegister: the last legal and the first illegal value of each length
register, a read-only register, and the ends of the read-only windows. -/
theorem test_witness_rights : params.maxCarrier < (97#32).toNat ∧ params.maxCarrier / 2 < (49#32).toNat
    ∧ params.maxCarrier / 16 < (7#32).toNat ∧ (96#32).toNat ≤ params.maxCarrier
    ∧ (48#32).toNat ≤ params.maxCarrier / 2 ∧ (6#32).toNat ≤ params.maxCarrier / 16 ∧ base.pend = none
    ∧ (given base [memWrite 0x030#32 7#32]).inputs = memWrite 0x030#32 7#32 :: []
    ∧ (given base [memWrite 0x064#32 7#32]).inputs = memWrite 0x064#32 7#32 :: []
    ∧ ([0x200000#32, 0x2FFFFC#32].all (fun off => decide (off.toNat % 4 = 0 ∧ 0x200000 ≤ off.toNat
        ∧ off.toNat < 0x300000))) = true
    ∧ ([0x500000#32, 0x5FFFFC#32].all (fun off => decide (off.toNat % 4 = 0 ∧ 0x500000 ≤ off.toNat
        ∧ off.toNat < 0x600000))) = true := by
  decide +kernel

/-- AccessRaisesAtMostOneError: an access that raises one. -/
theorem test_witness_oneError : (stepped (given waiting [memWrite 0#32 0#32])).status
    = ⟨false, false, true, false, false, .start⟩ := by decide +kernel

/-- CrcTableHasTheListedContents: the last entry. -/
theorem test_witness_crcTable : (255 : Nat) < 256 ∧ crcListed[255]? = some 0x2D02EF8D#32 := by decide +kernel

/-- CrcBlockFeedsTheRange: a range that ends at STREAM_LEN, one byte more, and an empty range. -/
theorem test_witness_CrcBlock : let s := { loaded digits [] with crcStart := 1#32, crcLen := 8#32 }
    s.crcStart.toNat + s.crcLen.toNat ≤ s.streamLen.toNat
      ∧ { s with crcLen := 9#32 }.crcStart.toNat + { s with crcLen := 9#32 }.crcLen.toNat > s.streamLen.toNat
      ∧ { s with crcStart := 9#32, crcLen := 0#32 }.crcLen = 0#32
      ∧ { s with crcStart := 9#32, crcLen := 0#32 }.crcStart.toNat ≤ s.streamLen.toNat := by decide +kernel

/-- VlqBytesComputeDecodeLength, EncodeLengthIsMinimalAndInvertible: the most bytes, and the ends of the range of n. -/
theorem test_witness_vlq : (List.replicate 255 0x80#8).length ≤ 255 ∧ 4294967295 < 4294967296
    ∧ encodeLength 4294967295 = [0x8F#8, 0xFF#8, 0xFF#8, 0xFF#8, 0x7F#8] ∧ encodeLength 0 = [0#8] := by decide +kernel

/-- LutC2nLooksUpTheNibble, NibbleLookupIsABijection: a member, a unit beside the alphabet, and the surrogate range. -/
theorem test_witness_lut : nibbleFor params 0xFE0F#16 = some 15#4 ∧ nibbleFor params 0xFE10#16 = none
    ∧ params.legal = true ∧ 0xD800 ≤ (0xD800#16).toNat ∧ (0xDFFF#16).toNat ≤ 0xDFFF := by decide +kernel

/-- The bytes of a list as a sequence, 0 past its end. -/
def seq (bytes : List Byte) (i : Nat) : Byte := bytes.getD i 0#8

/-- ParseOfNoFrame: an offset at the end, one byte left, a bad second byte, and a signature. -/
theorem test_witness_noFrame : (10 : Nat) ≤ 10 ∧ (9 : Nat) < 10 ∧ (10 : Nat) < 9 + 2 ∧ seq frame1 0 = 0x44#8
    ∧ seq frame1 1 = 0#8 ∧ seq digits 1 ≠ 0#8 := by decide +kernel

/-- V-FP-10, whose length field overflows. -/
def overflowing : List Byte := [0x44, 0x00, 0x00, 0x00, 0x00, 0x00, 0x01, 0x90, 0x80, 0x80, 0x80, 0x00]

/-- A frame whose length field overflows and whose payload is cut. -/
def overflowingCut : List Byte := frame1.take 7 ++ [0x90#8, 0x80#8, 0x80#8, 0x80#8, 0x02#8, 0x68#8]

/-- ParseOfADecodeAttempt, complete (the example of R162) and overflowed: the hypotheses with `term` true. -/
theorem test_witness_decodeAttempt : 0 + 2 ≤ 10 ∧ seq frame1 0 = 0x44#8 ∧ seq frame1 1 = 0x00#8 ∧ 1 ≤ 10 - (0 + 7)
    ∧ (seq frame1 (0 + 7 + (1 - 1))).getLsbD 7 = false
    ∧ seq overflowing 0 = 0x44#8 ∧ seq overflowing 1 = 0x00#8 ∧ 5 ≤ 12 - (0 + 7)
    ∧ ((List.range 4).all (fun j => (seq overflowing (0 + 7 + j)).getLsbD 7)) = true
    ∧ (seq overflowing (0 + 7 + (5 - 1))).getLsbD 7 = false := by decide +kernel

/-- ParseOfADecodeAttempt with `term` false: a header cut after 4 and after 6 bytes and just before the length field,
where no length byte is left, and a field of one byte that does not end. -/
theorem test_witness_decodeAttempt_cut : ([4, 6, 7].all (fun len => decide (0 + 2 ≤ len ∧ 0 = len - (0 + 7)))) = true
    ∧ 1 = 8 - (0 + 7) ∧ (seq (frame1.take 7 ++ [0x82]) (0 + 7 + 0)).getLsbD 7 = true := by decide +kernel

/-- ParsePassesTheFlagsByteThrough: the example of R162. -/
theorem test_witness_flagsByte : (parseFrame (seq frame1) 0 10).info.extractLsb' 0 2 = 0#2 ∧ 0 + 6 < 10 := by
  decide +kernel

/-- TruncatedOrOverflowedFrameIsNeverValid: a header cut by one byte, a length field that does not end, a payload cut by
one, and a field that overflows, alone and with its payload cut. -/
theorem test_witness_truncated : (6 : Nat) < 0 + 7 ∧ (seq (frame1.take 7 ++ [0x82]) 7).getLsbD 7 = true
    ∧ 9 < 0 + 7 + (parseFrame (seq frame1) 0 9).vlqCount.toNat + (parseFrame (seq frame1) 0 9).length.toNat
    ∧ (parseFrame (seq overflowing) 0 12).vlqCount = 5#32 ∧ (parseFrame (seq overflowingCut) 0 13).vlqCount = 5#32
    ∧ (decodeLength32 ((List.range 5).map (fun j => seq overflowing (0 + 7 + j)))).2 = true
    ∧ (decodeLength32 ((List.range 5).map (fun j => seq overflowingCut (0 + 7 + j)))).2 = true
    ∧ 13 < 0 + 7 + 5 + (parseFrame (seq overflowingCut) 0 13).length.toNat := by
  decide +kernel

/-- V-FP-10 (LEN_OVF alone, CALC = STORED), LEN_OVF and TRUNC together, and V-FP-9 (a header cut in its checksum). -/
theorem test_frameParse_overflow : parseFrame (seq overflowing) 0 12
      = ⟨0x10#32, 0#32, 0#32, 1#32, 0#32, 12#32, 12#32, 5#32⟩
    ∧ (parseFrame (seq overflowingCut) 0 13).info = 0x18#32
    ∧ parseFrame (seq (frame1.take 4)) 0 4 = ⟨8#32, 0xD8930000#32, 0#32, 0#32, 0#32, 7#32, 7#32, 0#32⟩ := by
  decide +kernel

/-- ValidFrameLiesWithinTheStream. -/
theorem test_witness_validFrame : (10 : Nat) < 4294967296
    ∧ (parseFrame (seq frame1) 0 10).info.getLsbD 2 = true := by decide +kernel

/-- FrameParseFillsTheFrRegisters: the first offset past the stream. -/
theorem test_witness_frameParse : (loaded frame1 []).streamLen.toNat ≤ (10#24).toNat := by decide +kernel

/-- ScanWritesItsThreeOutputs, FilterWritesTheCoverTextOnly: the units of a carrier, and of an empty one. -/
theorem test_witness_scan : ([0x41#16] ++ threes 17).length = (carrying ([0x41#16] ++ threes 17)).carrierLen.toNat
    ∧ (List.range 18).map (carrying ([0x41#16] ++ threes 17)).mem.carrierAt = [0x41#16] ++ threes 17
    ∧ ([] : List CodeUnit).length = base.carrierLen.toNat := by decide +kernel

/-- ScanTreatsEachMaximalRunByItsLength: runs of 15, 16 and 17 between cover units, and a carrier without a run. -/
theorem test_witness_scanRuns : threes 15 ≠ [] ∧ (threes 17).all (fun c => isAlpha params c) = true
    ∧ (threes 15).length < 16 ∧ 16 ≤ (threes 16).length ∧ isAlpha params 0x41#16 = false
    ∧ [0x41#16].getLast? = some 0x41#16 ∧ [0x41#16].head? = some 0x41#16 := by decide +kernel

/-- ScanFitsItsBuffers, ScanRunLengthsSumToTheStream: a carrier as long as it may be, all one run. -/
theorem test_witness_scanFits : (carrying (threes 96)).carrierLen.toNat ≤ (carrying (threes 96)).params.maxCarrier
    ∧ (after .scan (carrying (threes 96))).runCount = 1#32 ∧ (after .scan (carrying (threes 96))).streamLen = 48#32 := by
  decide +kernel

/-- XtrWithNothingLeftEmitsNothing: DONE, and a head at the end of the stream in START and in LOOP. -/
theorem test_witness_nothingLeft : ((loaded frame1 []).setXState .done).status.xstate = .done
    ∧ ((loaded frame1 []).setHead 10).status.xstate = .start ∧ (loaded frame1 []).streamLen ≠ 0#32
    ∧ ((loaded frame1 []).setXState .loop).status.xstate = .loop
    ∧ (loaded frame1 []).streamLen.toNat ≤ ((loaded frame1 []).setHead 10).xtrHead.toNat := by decide +kernel

/-- XtrStepOnAnEmptyStreamEmitsNoMessage, XtrStepOnFullResultsStops: an empty stream at START, with room for a record
and without; a stream left, without. -/
theorem test_witness_full : base.status.xstate = .start ∧ base.streamLen = 0#32
    ∧ base.resultCount.toNat ≠ base.params.maxResults
    ∧ { base with resultCount := 2#32 }.resultCount.toNat = base.params.maxResults
    ∧ (loaded frame1 [10#32]).xtrHead.toNat < (loaded frame1 [10#32]).streamLen.toNat := by decide +kernel

/-- The record XTR.STEP meets at the head of a stream. -/
def front (bytes : List Byte) : Record := parseFrame (loaded bytes []).mem.streamAt 0 bytes.length

/-- XtrStepPeelsAValidFrame: a frame of 10 bytes under an entry longer than it, one as long, and none. -/
theorem test_witness_peelsValid : (loaded (frame1 ++ frame2) [19#32]).readyToPeel
    ∧ (front (frame1 ++ frame2)).info.getLsbD 2 = true
    ∧ 7 + (front (frame1 ++ frame2)).vlqCount.toNat + (front (frame1 ++ frame2)).length.toNat = 10
    ∧ 10 < ((loaded (frame1 ++ frame2) [19#32]).mem.runlenAt 0).toNat
    ∧ ((loaded (frame1 ++ frame2) [10#32, 9#32]).mem.runlenAt 0).toNat ≤ 10
    ∧ (loaded (frame1 ++ frame2) [10#32, 9#32]).readyToPeel
    ∧ (loaded frame1 []).readyToPeel ∧ (loaded frame1 []).runCount.toNat ≤ (loaded frame1 []).xtrRunHead.toNat := by
  decide +kernel

/-- XtrStepDropsTheFrontRunOtherwise: a mismatch and a truncated frame, an entry longer than the stream, an entry of 0,
and none. -/
theorem test_witness_drops : (loaded digits [10#32]).readyToPeel ∧ (front digits).info.getLsbD 2 = false
    ∧ (front digits).info.extractLsb' 0 2 = 1#2
    ∧ digits.length < ((loaded digits [10#32]).mem.runlenAt 0).toNat
    ∧ (loaded (frame1.take 9) [0#32]).readyToPeel ∧ (front (frame1.take 9)).info.getLsbD 2 = false
    ∧ (front (frame1.take 9)).info.extractLsb' 0 2 ≠ 1#2 ∧ (loaded digits []).readyToPeel
    ∧ (loaded digits []).runCount.toNat ≤ (loaded digits []).xtrRunHead.toNat := by decide +kernel

/-- CommandsKeepTheHeadsInside, XtrRunTouchesOnlyTheExtractor: heads and count at their ends. -/
theorem test_witness_heads : edge.headsInside ∧ edge.params.legal = true
    ∧ (loaded (frame1 ++ frame2) [19#32]).headsInside := by decide +kernel

/-- XtrRunIsXtrStepUntilDone: a run of two iterations, the first of which leaves LOOP. -/
theorem test_witness_untilDone :
    (after .xtrStep (loaded (frame1 ++ frame2) [19#32])).status.xstate = .loop
    ∧ (after .xtrStep (after .xtrStep (loaded (frame1 ++ frame2) [19#32]))).status.xstate = .done
    ∧ after .xtrStep (after .xtrStep (loaded (frame1 ++ frame2) [19#32]))
      = after .xtrRun (loaded (frame1 ++ frame2) [19#32]) := by decide +kernel

/-- The units of a carrier, as EncodedMessageRoundTrips and PackedFramesDecodeInOrder read them. -/
def unitsOf (s : State) : List CodeUnit := (List.range s.carrierLen.toNat).map s.mem.carrierAt

/-- EncodedMessageRoundTrips, PackedFramesDecodeInOrder: the messages of R162 and R197 between cover texts, with room for
two records and for one. -/
theorem test_witness_roundTrip : encodeFrameBytes [0x68, 0x69] 0x01#8 = frame1
    ∧ encodeFrameBytes [0x61] 0x02#8 = frame2 ∧ params.legal = true ∧ 2 ≤ params.maxResults
    ∧ { params with maxResults := 1 }.legal = true
    ∧ isAlpha params 0x41#16 = false ∧ isAlpha params 0x42#16 = false
    ∧ unitsOf (carrying ([0x41#16] ++ encodeChars params frame1 ++ [0x42#16]))
      = [0x41#16] ++ encodeChars params frame1 ++ [0x42#16]
    ∧ unitsOf (carrying ([0x41#16] ++ encodeChars params frame1 ++ encodeChars params frame2 ++ [0x42#16]))
      = [0x41#16] ++ encodeChars params frame1 ++ encodeChars params frame2 ++ [0x42#16] := by decide +kernel

/-- R192 (V-XTR-22): two packed frames with room for one record. -/
theorem test_xtrRun_one : let t := after .xtrRun { loaded (frame1 ++ frame2) [19#32] with
      params := { params with maxResults := 1 } }
    t.resultCount = 1#32 ∧ t.xtrHead = 10#32 ∧ t.xtrRunHead = 0#32 ∧ t.mem.runlenAt 0 = 9#32
      ∧ t.status.errOvf = true := by decide +kernel

end Sys2Proof.Tests
end

section
/-! SUPPORT. What reset leaves, the bits of the flag words, and what a host access, a command and a step can do: said
once each, for the statements about the state (10_state.md). -/

namespace Sys2Proof.Machine

/-! ### Reset (R52) -/

/-- Word `k` of an unwritten record is the draw of its own window word (R52, R61). -/
theorem drawn_word (epoch r : Nat) {k : Nat} (hk : k < 8) :
    (Record.drawn epoch r).word k = Config.bufferDraw epoch .result (8 * r + k) := by
  match k, hk with
  | 0, _ | 1, _ | 2, _ | 3, _ | 4, _ | 5, _ | 6, _ | 7, _ => rfl

/-- A window word of RESULT that nothing has written since reset reads as its draw (R52, R83). -/
theorem unwritten_result_word (epoch i : Nat) :
    (Memory.unwritten epoch).word .result i = Config.bufferDraw epoch .result i := by
  show (Record.drawn epoch (i / 8)).word (i % 8) = _
  rw [drawn_word epoch _ (Nat.mod_lt i (by omega)), Nat.div_add_mod]

/-- The state after any reset satisfies the invariant when its parameters are legal. -/
theorem afterReset_inv {p : Params} (hp : p.legal = true) (epoch : Nat) (inputs : List Event) (replies : List Word) :
    (State.afterReset p epoch inputs replies).Inv where
  paramsLegal := hp
  memWf := unwritten_wf epoch
  carrierBelow _ he := nomatch he
  coverBelow _ he := nomatch he
  streamBelow _ he := nomatch he
  runlenBelow _ he := nomatch he
  resultBelow _ he := nomatch he
  carrierLen := Nat.zero_le _
  coverLen := Nat.zero_le _
  streamLen := Nat.zero_le _
  runCount := Nat.zero_le _
  resultCount := Nat.zero_le _
  xtrHead := Nat.zero_le _
  xtrRunHead := Nat.zero_le _
  recordsWf _ he := nomatch he
  frWf := bareRecord_wellFormed .frame _ _
  pendLegal := rfl

/-! ### The flag words (R25, R31, R32) -/

theorem statusWord_flags (s : State) :
    s.statusWord.getLsbD 0 = s.pend.isSome ∧ s.statusWord.getLsbD 1 = s.status.done
      ∧ s.statusWord.getLsbD 2 = s.status.errIllegal ∧ s.statusWord.getLsbD 3 = s.status.errBusy
      ∧ s.statusWord.getLsbD 4 = s.status.errOvf ∧ s.statusWord.getLsbD 5 = s.status.errBus := by
  simp only [State.statusWord, BitVec.getLsbD_append, BitVec.getLsbD_ofBool]
  simp [State.busy]

theorem statusWord_reserved (s : State) :
    s.statusWord.extractLsb' 6 2 = 0#2 ∧ s.statusWord.extractLsb' 10 22 = 0#22 := by
  simp (disch := omega) only [State.statusWord, BitVec.extractLsb'_append_eq_of_le,
    BitVec.extractLsb'_append_eq_of_add_le]
  simp

theorem statusWord_xstate (s : State) : s.statusWord.extractLsb' 8 2 = s.status.xstate.code := by
  simp (disch := omega) only [State.statusWord, BitVec.extractLsb'_append_eq_of_le,
    BitVec.extractLsb'_append_eq_of_add_le]
  simp

theorem vlqStat_word_fields (v : VlqStat) :
    v.word.extractLsb' 0 8 = v.count ∧ v.word.getLsbD 8 = v.done ∧ v.word.getLsbD 9 = v.ovf
      ∧ v.word.getLsbD 10 = v.extra ∧ v.word.extractLsb' 11 21 = 0#21 := by
  simp (disch := omega) only [VlqStat.word, BitVec.getLsbD_append, BitVec.extractLsb'_append_eq_of_le,
    BitVec.extractLsb'_append_eq_of_add_le]
  simp

theorem lutOut_word_fields (l : LutOut) :
    l.word.extractLsb' 0 16 = l.value ∧ l.word.getLsbD 16 = l.valid ∧ l.word.extractLsb' 17 15 = 0#15 := by
  simp (disch := omega) only [LutOut.word, BitVec.getLsbD_append, BitVec.extractLsb'_append_eq_of_le,
    BitVec.extractLsb'_append_eq_of_add_le]
  simp

/-! ### One host access -/

@[simp] theorem issue_params (s : State) (w : Word) : (s.issue w).params = s.params := by
  unfold State.issue
  split
  · rfl
  · simp

/-- The writable registers and what an accepted write does to each (R23, R26 to R36, R93): the inversion of
`State.writeReg`. -/
theorem writeReg_some {s t : State} {r : Reg} {v : Word} (h : s.writeReg r v = some t) :
    (r = .cmd ∧ t = s.issue v) ∨ (r = .status ∧ t = s.clearStatus v)
      ∨ (r = .crcState ∧ t = { s with crcState := v }) ∨ (r = .crcStart ∧ t = { s with crcStart := v })
      ∨ (r = .crcLen ∧ t = { s with crcLen := v })
      ∨ (r = .carrierLen ∧ v.toNat ≤ s.params.maxCarrier ∧ t = { s with carrierLen := v })
      ∨ (r = .streamLen ∧ v.toNat ≤ maxStream s.params ∧ t = { s with streamLen := v })
      ∨ (r = .runCount ∧ v.toNat ≤ maxRuns s.params ∧ t = { s with runCount := v }) := by
  cases r <;> simp_all [State.writeReg, eq_comm]

/-- The writable buffers and what an accepted write does to each (R63, R64): the inversion of `State.writeElem`. -/
theorem writeElem_some {s t : State} {b : BufId} {k : Nat} {v : Word} (h : s.writeElem b k v = some t) :
    (b = .carrier ∧ t = s.writeCarrier k [v.setWidth 16]) ∨ (b = .stream ∧ t = s.writeStream k [v.setWidth 8])
      ∨ (b = .runlen ∧ t = s.writeRunlen k [v]) := by
  cases b <;> simp_all [State.writeElem, eq_comm]

theorem writeReg_params {s t : State} {r : Reg} {v : Word} (h : s.writeReg r v = some t) : t.params = s.params := by
  rcases writeReg_some h with ⟨_, rfl⟩ | ⟨_, rfl⟩ | ⟨_, rfl⟩ | ⟨_, rfl⟩ | ⟨_, rfl⟩ | ⟨_, _, rfl⟩ | ⟨_, _, rfl⟩
    | ⟨_, _, rfl⟩ <;> simp

theorem writeElem_params {s t : State} {b : BufId} {k : Nat} {v : Word} (h : s.writeElem b k v = some t) :
    t.params = s.params := by
  rcases writeElem_some h with ⟨_, rfl⟩ | ⟨_, rfl⟩ | ⟨_, rfl⟩ <;> rfl

theorem hostRead_params (s : State) (a : Access) : (s.hostRead a).params = s.params := by
  rcases hostRead_cases s a with ⟨v, h⟩ | h <;> rw [h] <;> simp

theorem hostWrite_params (s : State) (a : Access) : (s.hostWrite a).params = s.params := by
  rcases hostWrite_cases s a with h | ⟨h, _⟩ | h | ⟨r, _, h⟩ | ⟨b, k, _, _, h⟩
  · simp [h]
  · simp [h]
  · simp [h]
  · exact writeReg_params h
  · exact writeElem_params h

theorem hostAccess_params (s : State) (a : Access) : (s.hostAccess a).params = s.params := by
  unfold State.hostAccess
  split
  · exact hostRead_params s a
  · exact hostWrite_params s a

/-- What an accepted write to STATUS leaves of a W1C field: 0 where the bit is 1, the field elsewhere (R26). -/
theorem clearStatus_eq (s : State) (v : Word) : s.clearStatus v = { s with
    status := { s.status with
      done := if v.getLsbD 1 then false else s.status.done
      errIllegal := if v.getLsbD 2 then false else s.status.errIllegal
      errBusy := if v.getLsbD 3 then false else s.status.errBusy
      errOvf := if v.getLsbD 4 then false else s.status.errOvf
      errBus := if v.getLsbD 5 then false else s.status.errBus } } := by
  have w1c : ∀ field bit : Bool, (field && !bit) = if bit then false else field := by decide
  simp only [State.clearStatus, w1c]

/-- An aligned write while BUSY = 1, but to STATUS, only raises ERR_BUSY (R216). -/
theorem step_write_busy {s : State} {off v : Word} {rest : List Event} (hb : s.pend ≠ none)
    (ha : off.toNat % 4 = 0) (ho : off ≠ 0x004#32) (h : s.inputs = memWrite off v :: rest) :
    step s = .next ({ s with inputs := rest }.raise .busy) := by
  rw [step_write h, hostWrite_busy { s with inputs := rest } ((aligned_iff _).mpr ⟨rfl, ha⟩) hb ho]

/-- A read of an existing window word, of a legal configuration, at its offset from the block base (R61, R63). -/
theorem step_readElem_existing {s : State} {b : BufId} {k : Nat} {rest : List Event} (hp : s.params.legal = true)
    (hk : k < windowWords s.params b) (h : s.inputs = memRead (BitVec.ofNat 32 (windowBase b + 4 * k)) :: rest) :
    step s = .next { s with inputs := rest, replies := s.mem.word b k :: s.replies } := by
  rw [step_readElem (Nat.lt_of_lt_of_le hk (windowWords_le hp b)) h, if_pos hk]
  rfl

/-! ### One command -/

/-- The lengths, the heads and RESULT_COUNT are the same. -/
abbrev ExtractorRegsSame (s t : State) : Prop :=
  t.streamLen = s.streamLen ∧ t.runCount = s.runCount ∧ t.xtrHead = s.xtrHead ∧ t.xtrRunHead = s.xtrRunHead
    ∧ t.resultCount = s.resultCount

/-- The heads and RESULT_COUNT are 0 (R179, R186). -/
abbrev ExtractorRestarted (t : State) : Prop := t.xtrHead = 0#32 ∧ t.xtrRunHead = 0#32 ∧ t.resultCount = 0#32

/-- What a command does to the extractor, and that it touches nothing outside the block: it leaves the extractor alone,
restarts it, or runs it. -/
theorem exec_cases {i : Instr} {s t : State} (h : exec i s = .next t) : OutsideSame s t
    ∧ (ExtractorRegsSame s t ∨ ExtractorRestarted t ∨ t = s.xtrIterate.complete ∨ t = s.xtrRunAll.complete) := by
  cases i with
  | crcInit | crcByte b | vlqInit | vlqByte b | lutN2c v | lutC2n c | frameParse off =>
    cases h
    exact ⟨⟨rfl, rfl, rfl⟩, .inl ⟨rfl, rfl, rfl, rfl, rfl⟩⟩
  | crcBlock =>
    cases h
    split <;> exact ⟨⟨rfl, rfl, rfl⟩, .inl ⟨rfl, rfl, rfl, rfl, rfl⟩⟩
  | scan | filter | xtrReset =>
    cases h
    exact ⟨by simp [OutsideSame], .inr (.inl (by simp [ExtractorRestarted]))⟩
  | xtrStep =>
    cases h
    exact ⟨(xtrIterate_same s).outside, .inr (.inr (.inl rfl))⟩
  | xtrRun =>
    cases h
    exact ⟨(xtrRunAll_same s).outside, .inr (.inr (.inr rfl))⟩

/-- One iteration of the extractor keeps the heads inside (R53, R195): each of its cases moves them at most to the
ends. -/
theorem xtrIterate_headsInside {s : State} (h : s.headsInside) : s.xtrIterate.headsInside := by
  obtain ⟨hhead, hrun, hcount⟩ := h
  have count_succ : s.resultCount.toNat ≠ s.params.maxResults →
      (s.resultCount + 1#32).toNat ≤ s.params.maxResults := fun hne => by
    have := Nat.mod_le (s.resultCount.toNat + 1) (2 ^ 32)
    rw [BitVec.toNat_add, BitVec.toNat_ofNat, Nat.mod_eq_of_lt (a := 1) (by omega)]
    omega
  rcases xtrIterate_cases s with
    ⟨_, he⟩ | ⟨_, _, _, he⟩ | ⟨_, _, hne, he⟩ | ⟨_, _, _, he⟩ | ⟨_, _, _, he⟩ | ⟨hready, _⟩
  · rw [he]; exact ⟨hhead, hrun, hcount⟩
  · rw [he]; exact ⟨hhead, hrun, hcount⟩
  · rw [he]; exact ⟨hhead, hrun, count_succ hne⟩
  · rw [he]; exact ⟨hhead, hrun, hcount⟩
  · rw [he]; exact ⟨hhead, hrun, hcount⟩
  · obtain ⟨t, d, _, he, hhead', hd, _, hstream, hruns, hcount', hqueue⟩ := xtrIterate_peels hready
    have hparams := (xtrIterate_same s).outside.1
    obtain ⟨_, hlt, hne⟩ := hready
    rw [he, closeIteration_eq] at hparams ⊢
    simp only [State.headsInside, setXState_xtrHead, setXState_streamLen, setXState_xtrRunHead, setXState_runCount,
      setXState_resultCount, setXState_params] at hparams ⊢
    rw [hhead', hstream, hruns, hcount', hparams]
    refine ⟨by omega, ?_, count_succ hne⟩
    rcases hqueue with ⟨_, hsame⟩ | ⟨_, hsame, _⟩ | ⟨⟨entry, hentry⟩, hnext⟩
    · rwa [hsame]
    · rwa [hsame]
    · rw [hnext]; exact (frontEntry_some hentry).1

theorem xtrRunAll_headsInside {s : State} (h : s.headsInside) : s.xtrRunAll.headsInside :=
  xtrLoop_induction (motive := fun s t => s.headsInside → t.headsInside) (fun _ h => h)
    (fun _ => xtrIterate_headsInside) (fun _ _ _ hst htu h => htu (hst h)) _ s h

/-- The entries of a scan of the machine's carrier are at least 8 and sum to its stream's length (R54). -/
theorem scanOut_runs (s : State) :
    s.scanOut.runs.sum = s.scanOut.stream.length ∧ ∀ r ∈ s.scanOut.runs, 8 ≤ r :=
  scanUnits_runs s.params s.carrierUnits

/-- What SCAN stores as the entries of RUNLEN: each fits its word, since they sum to the length of the stream. -/
theorem scan_entry_toNat (s : State) {r : Nat} (hr : r ∈ s.scanOut.runs) : (BitVec.ofNat 32 r).toNat = r := by
  obtain ⟨hsum, _⟩ := scanOut_runs s
  obtain ⟨_, _, _, _, hlt, _⟩ := scanOut_sizes s
  have hle : r ≤ s.scanOut.runs.sum := List.le_sum_of_mem hr
  rw [BitVec.toNat_ofNat]
  exact Nat.mod_eq_of_lt (by omega)

/-- RUNLEN, RUN_COUNT and STREAM_LEN right after SCAN, as numbers (R176). -/
theorem execScan_queue (s : State) : ∃ t, exec .scan s = .next t
    ∧ t.streamLen.toNat = s.scanOut.stream.length ∧ t.runCount.toNat = s.scanOut.runs.length
    ∧ ∀ k (hk : k < s.scanOut.runs.length), (t.mem.runlenAt k).toNat = s.scanOut.runs[k] := by
  obtain ⟨_, _, _, _, hstream, hruns⟩ := scanOut_sizes s
  refine ⟨_, rfl, ?_, ?_, fun k hk => ?_⟩
  · simpa using Nat.mod_eq_of_lt hstream
  · simpa using Nat.mod_eq_of_lt hruns
  · have hwritten := runlenAt_write_inside (m := (s.putCover s.scanOut.cover).mem)
      (xs := s.scanOut.runs.map (BitVec.ofNat 32)) (start := 0) (k := k) (by simpa using hk)
    rw [Nat.zero_add, List.getElem_map] at hwritten
    exact (congrArg BitVec.toNat hwritten).trans (scan_entry_toNat s (List.getElem_mem hk))

/-! ### One step -/

/-- What a turn of the engine that answers next did: nothing when idle, or the pending command (R75). -/
theorem engineTurn_cases {s t : State} (h : engineTurn s = .next t) :
    (s.pend = none ∧ t = s) ∨ ∃ w i, s.pend = some w ∧ decode w = .ok i ∧ exec i s = .next t := by
  cases hp : s.pend with
  | none =>
    rw [engineTurn_idle hp] at h
    cases h
    exact .inl ⟨rfl, rfl⟩
  | some w =>
    cases hd : decode w with
    | ok i => exact .inr ⟨w, i, rfl, hd, engineTurn_command hp hd ▸ h⟩
    | error e => simp [engineTurn, State.fetch, hp, hd] at h

/-- What a step that answers next did: an access, a turn of the engine, or the reset event (R75, R240). -/
theorem step_cases {s t : State} (h : step s = .next t) : ∃ rest,
    (∃ a, s.inputs = .access a :: rest ∧ t = { s with inputs := rest }.hostAccess a)
      ∨ engineTurn { s with inputs := rest } = .next t
      ∨ (s.inputs = .rst :: rest ∧ t = { s with inputs := rest }.applyReset) := by
  match hi : s.inputs with
  | [] =>
    have hs : { s with inputs := [] } = s := by rw [← hi]
    exact ⟨[], .inr (.inl (by rw [hs, ← step_nil hi, h]))⟩
  | .access a :: rest =>
    rw [step_access hi] at h
    cases h
    exact ⟨rest, .inl ⟨a, rfl, rfl⟩⟩
  | .engine :: rest => exact ⟨rest, .inr (.inl (step_engine hi ▸ h))⟩
  | .rst :: rest =>
    rw [step_rst hi] at h
    cases h
    exact ⟨rest, .inr (.inr ⟨rfl, rfl⟩)⟩

theorem engineTurn_params {s t : State} (h : engineTurn s = .next t) : t.params = s.params := by
  rcases engineTurn_cases h with ⟨_, rfl⟩ | ⟨w, i, _, _, he⟩
  · rfl
  · obtain ⟨⟨hparams, _⟩, _⟩ := exec_cases he
    exact hparams

end Sys2Proof.Machine
end

section
/-! PROOFS. The statements about the state (10_state.md), each put together from the laws above. -/

namespace Sys2Proof.Machine

/-- Settles O6, by what a step can do: no access, no command and no reset event writes the parameters. -/
theorem stepKeepsParams : Obligations.StepKeepsParams := by
  intro s t h
  obtain ⟨rest, ⟨a, _, rfl⟩ | hturn | ⟨_, rfl⟩⟩ := step_cases h
  · exact hostAccess_params _ a
  · have hparams := engineTurn_params hturn
    exact hparams
  · rfl

/-- Settles O17: STATUS is the one register whose write BUSY does not drop (R26, R216). -/
theorem statusWriteClearsTheSelectedBits : Obligations.StatusWriteClearsTheSelectedBits := by
  intro s v rest
  refine ⟨fun hi => ?_, fun hi => step_readReg (r := .status) hi, fun off hi hbusy hoff hne => ?_⟩
  · rw [step_writeReg (r := .status) (.inr rfl) hi]
    exact congrArg Host.Outcome.next (clearStatus_eq { s with inputs := rest } v)
  · exact ⟨_, step_write_busy hbusy hoff hne hi, rfl, rfl⟩

/-- Settles O18, from the fields of the three flag words. -/
theorem flagWordsHaveTheListedFields : Obligations.FlagWordsHaveTheListedFields := by
  intro s
  obtain ⟨hbusy, hdone, hillegal, hbusyErr, hovf, hbus⟩ := statusWord_flags s
  obtain ⟨hres6, hres10⟩ := statusWord_reserved s
  refine ⟨⟨hbusy, hdone, hillegal, hbusyErr, hovf, hbus, hres6, hres10, ?_⟩, vlqStat_word_fields s.vlqStat,
    lutOut_word_fields s.lutOut⟩
  have hcode : (s.readReg .status).extractLsb' 8 2 = s.status.xstate.code := statusWord_xstate s
  rw [hcode]
  cases s.status.xstate <;> rfl

/-- Settles O23: each of the six registers is written at its own offset, while BUSY = 0. -/
theorem registerWritesSetTheRegister : Obligations.RegisterWritesSetTheRegister := by
  intro s v rest hidle
  have accepted : ∀ {r : Reg} {t : State}, s.inputs = memWrite r.offset v :: rest →
      { s with inputs := rest }.writeReg r v = some t → step s = .next t := fun hi hw => by
    rw [step_writeReg (.inl hidle) hi, hw]
    rfl
  exact ⟨fun hi => accepted (r := .crcState) hi rfl, fun hi => accepted (r := .crcStart) hi rfl,
    fun hi => accepted (r := .crcLen) hi rfl, fun hi hv => accepted (r := .carrierLen) hi (if_pos hv),
    fun hi hv => accepted (r := .streamLen) hi (if_pos hv), fun hi hv => accepted (r := .runCount) hi (if_pos hv)⟩

/-- Settles O24: the register list is `allRegs` with each register's offset and value, a RESULT word is word 8r + e of
its window, and the other windows hold one element per word. -/
theorem hostReadsReturnTheCurrentValue : Obligations.HostReadsReturnTheCurrentValue := by
  intro s rest hlegal reads
  have element : ∀ (b : BufId) (k : Nat), k < windowWords s.params b →
      reads (BitVec.ofNat 32 (windowBase b + 4 * k)) (s.mem.word b k) :=
    fun b k hk hi => step_readElem_existing hlegal hk hi
  refine ⟨fun e he => ?_, element .carrier, element .cover, element .stream, element .runlen, fun r hr e he => ?_⟩
  · change e ∈ allRegs.map (fun r => (r.offset, s.readReg r)) at he
    obtain ⟨r, _, rfl⟩ := List.mem_map.mp he
    exact fun hi => step_readReg hi
  · change e ∈ (List.range 8).map (fun k => (k, (s.mem.resultAt r).word k)) at he
    obtain ⟨k, hk, rfl⟩ := List.mem_map.mp he
    have hk8 : k < 8 := List.mem_range.mp hk
    have hword : s.mem.word .result (8 * r + k) = (s.mem.resultAt r).word k := by
      show (s.mem.resultAt ((8 * r + k) / 8)).word ((8 * r + k) % 8) = _
      rw [show (8 * r + k) / 8 = r by omega, show (8 * r + k) % 8 = k by omega]
    have hoff : 0x500000 + 32 * r + 4 * k = windowBase .result + 4 * (8 * r + k) := by
      show _ = 0x500000 + 4 * (8 * r + k)
      omega
    have hread := element .result (8 * r + k) (show 8 * r + k < 8 * s.params.maxResults by omega)
    rwa [hword, ← hoff] at hread

/-- Settles O48, from what SCAN stores and what a scan yields (R54). -/
theorem scanRunLengthsSumToTheStream : Obligations.ScanRunLengthsSumToTheStream := by
  intro s
  obtain ⟨t, hexec, hstream, hcount, hentry⟩ := execScan_queue s
  obtain ⟨hsum, hmin⟩ := scanOut_runs s
  have hruns : (List.range t.runCount.toNat).map (fun k => (t.mem.runlenAt k).toNat) = s.scanOut.runs := by
    apply List.ext_getElem
    · simpa using hcount
    · intro k _ hk
      simpa using hentry k hk
  refine ⟨t, hexec, ?_, fun k hk => ?_⟩
  · rw [hruns, hstream, hsum]
  · rw [hcount] at hk
    rw [hentry k hk]
    exact hmin _ (List.getElem_mem hk)

/-- Settles O56, by what a command does to the extractor. -/
theorem commandsKeepTheHeadsInside : Obligations.CommandsKeepTheHeadsInside := by
  intro i s t h hexec
  obtain ⟨⟨hparams, _⟩, ⟨hstream, hruns, hhead, hrun, hcount⟩ | ⟨hhead, hrun, hcount⟩ | rfl | rfl⟩ := exec_cases hexec
  · rwa [State.headsInside, hstream, hruns, hhead, hrun, hcount, hparams]
  · rw [State.headsInside, hhead, hrun, hcount]
    exact ⟨Nat.zero_le _, Nat.zero_le _, Nat.zero_le _⟩
  · exact xtrIterate_headsInside h
  · exact xtrRunAll_headsInside h

/-- Settles O1: the registers by evaluation of each, the buffers as memory that nothing has written. -/
theorem resetReadsTheListedValues : Obligations.ResetReadsTheListedValues := by
  refine ⟨rfl, fun r => ?_, fun i => ⟨rfl, rfl, rfl, rfl, unwritten_result_word _ i⟩⟩
  cases r <;> rfl

/-- Settles O3: `Config.params` is legal, and nothing else is stored at reset. -/
theorem resetSatisfiesInv : Obligations.ResetSatisfiesInv := afterReset_inv Config.params_legal 0 [] []

end Sys2Proof.Machine
end

section
/-! SUPPORT. The bus and the engine (20_memory.md): which accesses are refused, what every command keeps, and that
each operation of the machine keeps the invariant. -/

namespace Sys2Proof.Machine

/-! ### Offsets of a window -/

/-- Every aligned offset of a window's 1 MiB is the offset of one of its words (R61). -/
theorem exists_wordOffset {b : BufId} {off : Word} (ha : off.toNat % 4 = 0) (hlo : windowBase b ≤ off.toNat)
    (hhi : off.toNat < windowBase b + 0x100000) :
    ∃ k, k < 262144 ∧ off = wordOffset b k ∧ off.toNat = windowBase b + 4 * k := by
  have hbase : windowBase b % 4 = 0 := by cases b <;> rfl
  have hk : (off.toNat - windowBase b) / 4 < 262144 := by omega
  have hoff : off.toNat = windowBase b + 4 * ((off.toNat - windowBase b) / 4) := by omega
  exact ⟨_, hk, BitVec.eq_of_toNat_eq (hoff.trans (wordOffset_toNat b hk).symm), hoff⟩

/-- A window offset at or past the buffer's capacity is beyond it (R65). -/
theorem decodeOffset_beyond {p : Params} {b : BufId} {off : Word} (ha : off.toNat % 4 = 0)
    (hlo : windowBase b + 4 * windowWords p b ≤ off.toNat) (hhi : off.toNat < windowBase b + 0x100000) :
    decodeOffset p off = .beyond := by
  obtain ⟨k, hk, rfl, hoff⟩ := exists_wordOffset ha (Nat.le_of_add_right_le hlo) hhi
  rw [decodeOffset_word p b hk, if_neg (by omega)]

/-! ### Refused accesses (R65 to R68) -/

/-- A write that its target does not take, while BUSY = 0, only raises ERR_BUS. -/
theorem step_write_refused {s : State} {off v : Word} {rest : List Event} (hidle : s.pend = none)
    (ha : off.toNat % 4 = 0) (h : s.inputs = memWrite off v :: rest)
    (hnone : { s with inputs := rest }.writeTarget (decodeOffset s.params off) v = none) :
    step s = .next ({ s with inputs := rest }.raise .bus) := by
  rw [step_write h, hostWrite_idle { s with inputs := rest } ((aligned_iff _).mpr ⟨rfl, ha⟩) (.inl hidle)]
  dsimp only
  rw [hnone]
  rfl

/-- A read that its target does not answer raises ERR_BUS and returns 0, BUSY or not. -/
theorem step_read_refused {s : State} {off : Word} {rest : List Event} (ha : off.toNat % 4 = 0)
    (h : s.inputs = memRead off :: rest)
    (hnone : { s with inputs := rest }.readTarget (decodeOffset s.params off) = none) :
    step s = .next (({ s with inputs := rest }.raise .bus).reply 0#32) := by
  rw [step_read h, hostRead_word _ ha]
  dsimp only
  rw [hnone]
  rfl

/-- The registers whose access right is RO, in the order of R23. -/
def readOnlyRegs : List Reg :=
  [.crcResult, .vlqAcc, .vlqStat, .lutOut, .coverLen, .resultCount, .xtrHead, .xtrRunHead, .frInfo, .frStored, .frCalc,
    .frType, .frLength, .frDataStart, .frDataEnd, .frVlqCount, .capCarrier, .capResults]

/-- No read-only register takes a write (R68). -/
theorem writeReg_readOnly (s : State) {r : Reg} (v : Word) (hr : r ∈ readOnlyRegs) : s.writeReg r v = none := by
  revert r
  simp [readOnlyRegs, State.writeReg]

/-- No word of a read-only buffer's window takes a write, existing or not (R63, R68). -/
theorem writeTarget_readOnlyBuffer (s : State) {p : Params} {b : BufId} {off : Word} (v : Word)
    (hb : b = .cover ∨ b = .result) (ha : off.toNat % 4 = 0) (hlo : windowBase b ≤ off.toNat)
    (hhi : off.toNat < windowBase b + 0x100000) : s.writeTarget (decodeOffset p off) v = none := by
  obtain ⟨k, hk, rfl, _⟩ := exists_wordOffset ha hlo hhi
  rw [decodeOffset_word p b hk]
  split
  · rcases hb with rfl | rfl <;> rfl
  · rfl

/-! ### An accepted write to a buffer (R63, R64) -/

/-- A write that an existing window word of a legal configuration takes, at its offset from the block base. -/
theorem step_writeElem_existing {s t : State} {b : BufId} {k : Nat} {v : Word} {rest : List Event}
    (hlegal : s.params.legal = true) (hidle : s.pend = none) (hk : k < windowWords s.params b)
    (h : s.inputs = memWrite (BitVec.ofNat 32 (windowBase b + 4 * k)) v :: rest)
    (hw : { s with inputs := rest }.writeElem b k v = some t) : step s = .next t := by
  rw [step_writeElem (Nat.lt_of_lt_of_le hk (windowWords_le hlegal b)) hidle h, if_pos hk, hw]
  rfl

/-- A write of one element is a change of that element's word at most. -/
theorem memorySame_one {m m' : Memory} {b : BufId} {k : Nat}
    (h : MemorySameOutside (fun w i => w = b ∧ k ≤ i ∧ i < k + 1) m m') :
    MemorySameOutside (fun w i => w = b ∧ i = k) m m' :=
  memorySame_weaken h fun _ _ ⟨hw, _, _⟩ => ⟨hw, by omega⟩

/-! ### What every command keeps -/

/-- What no command touches, whatever it does: the world outside the block, the carrier and its length, the range of
CRC.BLOCK, and the errors that host accesses alone raise. -/
structure CommandSame (s t : State) : Prop where
  outside : OutsideSame s t
  carrierLen : t.carrierLen = s.carrierLen
  carrier : t.mem.carrier = s.mem.carrier
  epoch : t.mem.epoch = s.mem.epoch
  crcStart : t.crcStart = s.crcStart
  crcLen : t.crcLen = s.crcLen
  errBusy : t.status.errBusy = s.status.errBusy
  errBus : t.status.errBus = s.status.errBus

theorem ExtractorSame.commandSame {s t : State} (h : ExtractorSame s t) : CommandSame s t := by
  obtain ⟨_, hstart, hlen, _⟩ := h.units
  obtain ⟨hcarrierLen, _⟩ := h.lengths
  exact ⟨h.outside, hcarrierLen, h.carrier, h.epoch, hstart, hlen, h.errBusy, h.errBus⟩

theorem CommandSame.carrier_word {s t : State} (h : CommandSame s t) (k : Nat) :
    t.mem.word .carrier k = s.mem.word .carrier k := by
  simp only [Memory.word, Memory.carrierAt, h.carrier, h.epoch]

/-- Every command ends with its completion (R75). -/
theorem exec_completes (i : Instr) (s : State) : ∃ t, exec i s = .next t.complete ∧ CommandSame s t := by
  cases i with
  | crcInit | crcByte b | vlqInit | vlqByte b | lutN2c v | lutC2n c | frameParse off | filter | xtrReset =>
    exact ⟨_, rfl, ⟨⟨rfl, rfl, rfl⟩, rfl, rfl, rfl, rfl, rfl, rfl, rfl⟩⟩
  | scan =>
    refine ⟨State.restartExtractor _, rfl, ?_⟩
    constructor <;> simp [OutsideSame]
  | crcBlock =>
    refine ⟨_, rfl, ?_⟩
    split <;> exact ⟨⟨rfl, rfl, rfl⟩, rfl, rfl, rfl, rfl, rfl, rfl, rfl⟩
  | xtrStep => exact ⟨s.xtrIterate, rfl, (xtrIterate_same s).commandSame⟩
  | xtrRun => exact ⟨s.xtrRunAll, rfl, (xtrRunAll_same s).commandSame⟩

/-! ### The run queue keeps the parameters (R45) -/

@[simp] theorem popRun_params (s : State) : s.popRun.params = s.params := by
  unfold State.popRun
  split <;> rfl

@[simp] theorem accountFrame_params (s : State) (c : Nat) : (s.accountFrame c).params = s.params := by
  unfold State.accountFrame
  split
  · split
    · rfl
    · exact popRun_params s
  · exact popRun_params s

/-! ### The invariant: the operations over the state -/

section Operations

variable {s : State}

/-- The invariant does not speak of STATUS, of the CRC, VLQ and lookup units, or of the world outside. -/
theorem State.Inv.update_free (h : s.Inv) (status : Status) (crcState crcStart crcLen vlqAcc : Word)
    (vlqStat : VlqStat) (lutOut : LutOut) (inputs : List Event) (replies : List Word) :
    State.Inv { s with
      status := status, crcState := crcState, crcStart := crcStart, crcLen := crcLen, vlqAcc := vlqAcc
      vlqStat := vlqStat, lutOut := lutOut, inputs := inputs, replies := replies } := { h with }

theorem State.Inv.raise (h : s.Inv) (e : Err) : (s.raise e).Inv := by
  cases e <;> exact h.update_free _ _ _ _ _ _ _ _ _

theorem State.Inv.setXState (h : s.Inv) (x : XState) : (s.setXState x).Inv := h.update_free _ _ _ _ _ _ _ _ _

theorem State.Inv.reply (h : s.Inv) (v : Word) : (s.reply v).Inv := h.update_free _ _ _ _ _ _ _ _ _

theorem State.Inv.clearStatus (h : s.Inv) (v : Word) : (s.clearStatus v).Inv := h.update_free _ _ _ _ _ _ _ _ _

theorem State.Inv.complete (h : s.Inv) : s.complete.Inv :=
  { h with pendLegal := rfl }

theorem State.Inv.applyReset (h : s.Inv) : s.applyReset.Inv := afterReset_inv h.paramsLegal _ _ _

theorem State.Inv.restartExtractor (h : s.Inv) : s.restartExtractor.Inv :=
  { h.setXState .start with resultCount := Nat.zero_le _, xtrHead := Nat.zero_le _, xtrRunHead := Nat.zero_le _ }

/-- Issue puts only a word that decodes into PEND (R93). -/
theorem State.Inv.issue (h : s.Inv) (w : Word) : (s.issue w).Inv := by
  unfold State.issue
  cases hd : decode w with
  | ok i => exact { h with pendLegal := by simp [State.pendLegal, State.fetch, hd] }
  | error e => exact h.update_free _ _ _ _ _ _ _ _ _

theorem State.Inv.writeCarrier (h : s.Inv) {i : Nat} {xs : List CodeUnit} (hi : i + xs.length ≤ s.params.maxCarrier) :
    (s.writeCarrier i xs).Inv :=
  { h with memWf := writeCarrier_wf h.memWf i xs, carrierBelow := write_below h.carrierBelow hi }

theorem State.Inv.writeCover (h : s.Inv) {i : Nat} {xs : List CodeUnit} (hi : i + xs.length ≤ s.params.maxCarrier) :
    (s.writeCover i xs).Inv :=
  { h with memWf := writeCover_wf h.memWf i xs, coverBelow := write_below h.coverBelow hi }

theorem State.Inv.writeStream (h : s.Inv) {i : Nat} {xs : List Byte} (hi : i + xs.length ≤ maxStream s.params) :
    (s.writeStream i xs).Inv :=
  { h with memWf := writeStream_wf h.memWf i xs, streamBelow := write_below h.streamBelow hi }

theorem State.Inv.writeRunlen (h : s.Inv) {i : Nat} {xs : List Word} (hi : i + xs.length ≤ maxRuns s.params) :
    (s.writeRunlen i xs).Inv :=
  { h with memWf := writeRunlen_wf h.memWf i xs, runlenBelow := write_below h.runlenBelow hi }

theorem State.Inv.writeResult (h : s.Inv) {i : Nat} {rec : Record} (hi : i < s.params.maxResults)
    (hrec : rec.wellFormed = true) : (s.writeResult i [rec]).Inv :=
  { h with
    memWf := writeResult_wf h.memWf i [rec]
    resultBelow := write_below h.resultBelow hi
    recordsWf := fun e he => by
      rcases mem_write he with hold | ⟨_, _, hnew⟩
      · exact h.recordsWf e hold
      · rw [List.mem_singleton.mp hnew]; exact hrec }

/-! ### The invariant: host accesses -/

/-- Each writable register takes only values within its range (R33, R34, R36, R93). -/
theorem State.Inv.writeReg {t : State} {r : Reg} {v : Word} (h : s.Inv) (hw : s.writeReg r v = some t) : t.Inv := by
  rcases writeReg_some hw with ⟨_, rfl⟩ | ⟨_, rfl⟩ | ⟨_, rfl⟩ | ⟨_, rfl⟩ | ⟨_, rfl⟩ | ⟨_, hv, rfl⟩ | ⟨_, hv, rfl⟩
    | ⟨_, hv, rfl⟩
  · exact h.issue v
  · exact h.clearStatus v
  · exact h.update_free _ _ _ _ _ _ _ _ _
  · exact h.update_free _ _ _ _ _ _ _ _ _
  · exact h.update_free _ _ _ _ _ _ _ _ _
  · exact { h with carrierLen := hv }
  · exact { h with streamLen := hv }
  · exact { h with runCount := hv }

theorem State.Inv.writeElem {t : State} {b : BufId} {k : Nat} {v : Word} (h : s.Inv)
    (hk : k < windowWords s.params b) (hw : s.writeElem b k v = some t) : t.Inv := by
  rcases writeElem_some hw with ⟨rfl, rfl⟩ | ⟨rfl, rfl⟩ | ⟨rfl, rfl⟩
  · exact h.writeCarrier hk
  · exact h.writeStream hk
  · exact h.writeRunlen hk

theorem State.Inv.hostRead (h : s.Inv) (a : Access) : (s.hostRead a).Inv := by
  rcases hostRead_cases s a with ⟨v, he⟩ | he <;> rw [he]
  · exact h.reply v
  · exact (h.raise .bus).reply _

theorem State.Inv.hostWrite (h : s.Inv) (a : Access) : (s.hostWrite a).Inv := by
  rcases hostWrite_cases s a with he | ⟨he, _⟩ | he | ⟨r, _, hw⟩ | ⟨b, k, _, hk, hw⟩
  · rw [he]; exact h.raise .bus
  · rw [he]; exact h.raise .busy
  · rw [he]; exact h.clearStatus _
  · exact h.writeReg hw
  · exact h.writeElem hk hw

theorem State.Inv.hostAccess (h : s.Inv) (a : Access) : (s.hostAccess a).Inv := by
  unfold State.hostAccess
  split
  · exact h.hostRead a
  · exact h.hostWrite a

/-! ### The invariant: the scanner (R177) -/

theorem State.Inv.putCover (h : s.Inv) {cover : List CodeUnit} (hc : cover.length ≤ s.params.maxCarrier) :
    (s.putCover cover).Inv :=
  { h.writeCover (i := 0) (xs := cover) (by omega) with coverLen := (Nat.mod_le _ _).trans hc }

theorem State.Inv.putStream (h : s.Inv) {stream : List Byte} {runs : List Nat}
    (hs : stream.length ≤ maxStream s.params) (hr : runs.length ≤ maxRuns s.params) :
    (s.putStream stream runs).Inv :=
  have hstream := h.writeStream (i := 0) (xs := stream) (by omega)
  { hstream.writeRunlen (i := 0) (xs := runs.map (BitVec.ofNat 32)) (by simpa using hr) with
    streamLen := (Nat.mod_le _ _).trans hs
    runCount := (Nat.mod_le _ _).trans hr }

/-- A scan's outputs fit their buffers, because CARRIER_LEN is within MAX_CARRIER (R7, R177). -/
theorem State.Inv.scanOut_fits (h : s.Inv) : s.scanOut.cover.length ≤ s.params.maxCarrier
    ∧ s.scanOut.stream.length ≤ maxStream s.params ∧ s.scanOut.runs.length ≤ maxRuns s.params := by
  obtain ⟨hcover, hstream, hruns, _⟩ := scanOut_sizes s
  exact ⟨hcover.trans h.carrierLen, hstream.trans (Nat.div_le_div_right h.carrierLen),
    hruns.trans (Nat.div_le_div_right h.carrierLen)⟩

/-! ### The invariant: the extractor -/

/-- Emission with room in RESULT (R192). -/
theorem State.Inv.emit (h : s.Inv) {rec : Record} (hroom : s.resultCount.toNat ≠ s.params.maxResults)
    (hrec : rec.wellFormed = true) : (s.emit rec).Inv := by
  have hlt : s.resultCount.toNat < s.params.maxResults := Nat.lt_of_le_of_ne h.resultCount hroom
  have hnext : (s.resultCount + 1#32).toNat ≤ s.params.maxResults := by
    rw [BitVec.toNat_add]
    exact (Nat.mod_le _ _).trans hlt
  exact { h.writeResult hlt hrec with resultCount := hnext }

theorem State.Inv.popRun (h : s.Inv) : s.popRun.Inv := by
  cases hf : s.frontEntry with
  | none => rwa [popRun_none hf]
  | some entry =>
    obtain ⟨hlt, _⟩ := frontEntry_some hf
    have hnext : (s.xtrRunHead + 1#32).toNat ≤ maxRuns s.params := by
      rw [runHead_succ hf]
      exact Nat.le_trans hlt h.runCount
    rw [popRun_some hf]
    exact { h with xtrRunHead := hnext }

theorem State.Inv.accountFrame (h : s.Inv) (c : Nat) : (s.accountFrame c).Inv := by
  unfold State.accountFrame
  cases hf : s.frontEntry with
  | none => exact h.popRun
  | some entry =>
    obtain ⟨hlt, _⟩ := frontEntry_some hf
    dsimp only
    split
    · exact h.writeRunlen (Nat.le_trans hlt h.runCount)
    · exact h.popRun

theorem State.Inv.setHead (h : s.Inv) {i : Nat} (hi : i ≤ maxStream s.params) : (s.setHead i).Inv :=
  { h with xtrHead := (Nat.mod_le _ _).trans hi }

/-- The bytes that a peel passes end within STREAM: a drop is clamped to the bytes left (R190). -/
theorem State.Inv.drop_le (h : s.Inv) (hbytes : s.xtrHead.toNat < s.streamLen.toNat) :
    s.xtrHead.toNat + s.dropCount (s.streamLen.toNat - s.xtrHead.toNat) ≤ maxStream s.params := by
  have hdrop := dropCount_le s (s.streamLen.toNat - s.xtrHead.toNat)
  have hstream := h.streamLen
  omega

/-- The bytes that a peel passes end within STREAM: a valid frame lies within the bytes left (R163). -/
theorem State.Inv.consumed_le (h : s.Inv) (hbytes : s.xtrHead.toNat < s.streamLen.toNat)
    (hvalid : s.nextParse.checksumValid = true) :
    s.xtrHead.toNat + s.nextParse.consumed ≤ maxStream s.params := by
  obtain ⟨_, hle⟩ := Machine.consumed_le hvalid
  have hstream := h.streamLen
  omega

/-- Each of the three peels emits a well-formed record and leaves the head within STREAM (R191, R193, R196). -/
theorem State.Inv.peel (h : s.Inv) (hbytes : s.xtrHead.toNat < s.streamLen.toNat)
    (hroom : s.resultCount.toNat ≠ s.params.maxResults) : s.peel.Inv := by
  have hparsed : s.nextParse.wellFormed = true := parseFrame_wellFormed _ _ _
  unfold State.peel
  dsimp only
  split
  case isTrue hkind =>
    rw [parseFrame_mismatch hkind]
    exact ((h.emit hroom (bareRecord_wellFormed .protocolMismatch _ _)).popRun).setHead
      (by simpa using h.drop_le hbytes)
  case isFalse =>
    split
    case isTrue hvalid =>
      exact ((h.emit hroom hparsed).accountFrame s.nextParse.consumed).setHead
        (i := s.xtrHead.toNat + s.nextParse.consumed) (by simpa using h.consumed_le hbytes hvalid)
    case isFalse => exact ((h.emit hroom hparsed).popRun).setHead (by simpa using h.drop_le hbytes)

theorem State.Inv.xtrIterate (h : s.Inv) : s.xtrIterate.Inv := by
  rcases xtrIterate_cases s with
    ⟨_, he⟩ | ⟨_, _, _, he⟩ | ⟨_, _, hroom, he⟩ | ⟨_, _, _, he⟩ | ⟨_, _, _, he⟩ | ⟨⟨_, hbytes, hroom⟩, he⟩ <;> rw [he]
  · exact h
  · exact (h.raise .ovf).setXState .done
  · exact (h.emit hroom (bareRecord_wellFormed .noMessage _ _)).setXState .done
  · exact h.setXState .done
  · exact (h.raise .ovf).setXState .done
  · rw [closeIteration_eq]
    exact ((h.setXState .loop).peel hbytes hroom).setXState _

theorem State.Inv.xtrRunAll (h : s.Inv) : s.xtrRunAll.Inv :=
  xtrLoop_induction (motive := fun s t => s.Inv → t.Inv) (fun _ h => h) (fun _ h => h.xtrIterate)
    (fun _ _ _ hst htu h => htu (hst h)) _ s h

/-! ### The invariant: commands and steps -/

theorem State.Inv.exec {i : Instr} {t : State} (h : s.Inv) (he : exec i s = .next t) : t.Inv := by
  cases i with
  | crcInit | crcByte b | vlqInit | vlqByte b | lutN2c v | lutC2n c =>
    cases he
    exact (h.update_free _ _ _ _ _ _ _ _ _).complete
  | crcBlock =>
    cases he
    refine State.Inv.complete ?_
    split
    · exact h.raise .illegal
    · exact h.update_free _ _ _ _ _ _ _ _ _
  | frameParse off =>
    cases he
    have hparsed : State.Inv { s with fr := parseFrame s.mem.streamAt off.toNat s.streamLen.toNat } :=
      { h with frWf := parseFrame_wellFormed _ _ _ }
    exact hparsed.complete
  | scan =>
    cases he
    obtain ⟨hcover, hstream, hruns⟩ := h.scanOut_fits
    exact ((h.putCover hcover).putStream hstream hruns).restartExtractor.complete
  | filter =>
    cases he
    obtain ⟨hcover, _⟩ := h.scanOut_fits
    have hemptied : State.Inv { s.putCover s.scanOut.cover with streamLen := 0#32, runCount := 0#32 } :=
      { h.putCover hcover with streamLen := Nat.zero_le _, runCount := Nat.zero_le _ }
    exact hemptied.restartExtractor.complete
  | xtrReset => cases he; exact h.restartExtractor.complete
  | xtrStep => cases he; exact h.xtrIterate.complete
  | xtrRun => cases he; exact h.xtrRunAll.complete

theorem State.Inv.engineTurn {t : State} (h : s.Inv) (he : engineTurn s = .next t) : t.Inv := by
  rcases engineTurn_cases he with ⟨_, rfl⟩ | ⟨_, _, _, _, hexec⟩
  · exact h
  · exact h.exec hexec

end Operations

end Sys2Proof.Machine
end

section
/-! PROOFS. The statements about memory, the host bus and the engine (20_memory.md), each put together from the laws
above. -/

namespace Sys2Proof.Machine

/-- Settles O4, by what a step can do: an access, a turn of the engine and the reset event each keep the invariant. -/
theorem stepKeepsInv : Obligations.StepKeepsInv := by
  intro s t h hstep
  obtain ⟨rest, ⟨a, _, rfl⟩ | hturn | ⟨_, rfl⟩⟩ := step_cases hstep
  all_goals have htaken : State.Inv { s with inputs := rest } := h.update_free _ _ _ _ _ _ _ _ _
  · exact htaken.hostAccess a
  · exact htaken.engineTurn hturn
  · exact htaken.applyReset

/-- Settles O8: every command ends with its completion, and what no command touches is the same until then. -/
theorem everyCommandCompletes : Obligations.EveryCommandCompletes := by
  intro i s
  obtain ⟨t, hexec, hsame⟩ := exec_completes i s
  exact ⟨t.complete, hexec, ⟨rfl, rfl⟩, hsame.outside, hsame.carrierLen, hsame.carrier_word, hsame.crcStart,
    hsame.crcLen, hsame.errBusy, hsame.errBus⟩

/-- Settles O19: width and alignment are checked before anything else, BUSY included (R226). -/
theorem illegalWidthOrAlignmentIsRefused : Obligations.IllegalWidthOrAlignmentIsRefused := by
  rintro s ⟨dir, off, size, data⟩ rest hi hbad
  rw [step_access hi]
  refine ⟨?_, ?_⟩ <;> rintro rfl
  · exact congrArg Host.Outcome.next (hostWrite_bad _ hbad)
  · exact congrArg Host.Outcome.next (hostRead_bad _ hbad)

/-- Settles O20: each of the ranges lies past a buffer's capacity or outside the map, and neither a write nor a read
finds a target there. -/
theorem offsetsThatNameNothingAreRefused : Obligations.OffsetsThatNameNothingAreRefused := by
  intro s off v rest ha hrange
  have hnothing : decodeOffset s.params off = .beyond ∨ decodeOffset s.params off = .unmapped := by
    rcases hrange with h | ⟨hlo, hhi⟩ | ⟨hlo, hhi⟩ | ⟨hlo, hhi⟩ | ⟨hlo, hhi⟩ | ⟨hlo, hhi⟩ | h
    · exact .inr (decodeOffset_unmapped _ (.inl h))
    · exact .inl (decodeOffset_beyond (b := .carrier) ha hlo hhi)
    · exact .inl (decodeOffset_beyond (b := .cover) ha hlo hhi)
    · exact .inl (decodeOffset_beyond (b := .stream) ha hlo hhi)
    · exact .inl (decodeOffset_beyond (b := .runlen) ha hlo hhi)
    · have hwords : 0x500000 + 4 * (8 * s.params.maxResults) ≤ off.toNat := by omega
      exact .inl (decodeOffset_beyond (b := .result) ha hwords hhi)
    · exact .inr (decodeOffset_unmapped _ (.inr h))
  refine ⟨fun hi hidle => step_write_refused hidle ha hi ?_, fun hi => step_read_refused ha hi ?_⟩ <;>
    rcases hnothing with h | h <;> rw [h] <;> rfl

/-- Settles O21: an existing word of a writable buffer takes the write, which changes that element alone. -/
theorem bufferWriteStoresTheElement : Obligations.BufferWriteStoresTheElement := by
  intro s k v rest hlegal hidle
  refine ⟨fun hk hi => ?_, fun hk hi => ?_, fun hk hi => ?_⟩
  · exact ⟨_, step_writeElem_existing (b := .carrier) hlegal hidle hk hi rfl, rfl,
      carrierAt_write_inside (xs := [v.setWidth 16]) (k := 0) Nat.zero_lt_one,
      memorySame_one (carrier_write_same s.mem k [v.setWidth 16])⟩
  · exact ⟨_, step_writeElem_existing (b := .stream) hlegal hidle hk hi rfl, rfl,
      streamAt_write_inside (xs := [v.setWidth 8]) (k := 0) Nat.zero_lt_one,
      memorySame_one (stream_write_same s.mem k [v.setWidth 8])⟩
  · exact ⟨_, step_writeElem_existing (b := .runlen) hlegal hidle hk hi rfl, rfl,
      runlenAt_write_inside (xs := [v]) (k := 0) Nat.zero_lt_one,
      memorySame_one (runlen_write_same s.mem k [v])⟩

/-- Settles O22: the listed offsets are those of the read-only registers, a length register refuses a value above its
range, and a read-only buffer refuses every offset of its window. -/
theorem rightsViolationsAreRefused : Obligations.RightsViolationsAreRefused := by
  intro s off v rest
  refine ⟨fun hidle hi hrights => ?_, fun hi => step_readReg (r := .cmd) hi⟩
  have register : ∀ {r : Reg}, off = r.offset → { s with inputs := rest }.writeReg r v = none →
      step s = .next ({ s with inputs := rest }.raise .bus) := by
    rintro r rfl hnone
    rw [step_writeReg (.inl hidle) hi, hnone]
    rfl
  have buffer : ∀ {b : BufId}, b = .cover ∨ b = .result → off.toNat % 4 = 0 → windowBase b ≤ off.toNat →
      off.toNat < windowBase b + 0x100000 → step s = .next ({ s with inputs := rest }.raise .bus) :=
    fun hb ha hlo hhi => step_write_refused hidle ha hi (writeTarget_readOnlyBuffer _ v hb ha hlo hhi)
  rcases hrights with hmem | ⟨hoff, hv⟩ | ⟨hoff, hv⟩ | ⟨hoff, hv⟩ | ⟨ha, hlo, hhi⟩ | ⟨ha, hlo, hhi⟩
  · change off ∈ readOnlyRegs.map Reg.offset at hmem
    obtain ⟨r, hr, hoff⟩ := List.mem_map.mp hmem
    exact register hoff.symm (writeReg_readOnly _ v hr)
  · exact register (r := .carrierLen) hoff (if_neg (Nat.not_le.mpr hv))
  · exact register (r := .streamLen) hoff (if_neg (Nat.not_le.mpr hv))
  · exact register (r := .runCount) hoff (if_neg (Nat.not_le.mpr hv))
  · exact buffer (.inl rfl) ha hlo hhi
  · exact buffer (.inr rfl) ha hlo hhi

/-- Settles O7: the turn comes as the next input or with no input left, and runs what PEND decodes to. -/
theorem engineTurnRunsThePendingCommand : Obligations.EngineTurnRunsThePendingCommand := by
  intro s
  refine ⟨fun w i hpend hdecode => ⟨fun hi => ?_, fun rest hi => ?_⟩, fun hidle => ⟨fun hi => ?_, fun rest hi => ?_⟩⟩
  · rw [step_nil hi, engineTurn_command hpend hdecode]
  · rw [step_engine hi, engineTurn_command (s := { s with inputs := rest }) hpend hdecode]
  · rw [step_nil hi, engineTurn_idle hidle]
  · rw [step_engine hi, engineTurn_idle (s := { s with inputs := rest }) hidle]

end Sys2Proof.Machine
end

section
/-! SUPPORT. Commands and their words (30_encoding.md): when each format accepts an operand, which words are commands,
and what a row of the opcode map says of a word's fields. -/

namespace Sys2Proof

/-! ### The formats (R87, R91) -/

theorem formatN_ok_iff (w : Word) (i : Instr) : (∃ j, formatN w i = .ok j) ↔ w.extractLsb' 0 24 = 0#24 := by
  unfold formatN operandField
  split <;> simp_all

theorem formatOperand_ok_iff {α : Type} (w : Word) (operand : Option α) (build : α → Instr) :
    (∃ i, formatOperand w operand build = .ok i) ↔ operand.isSome = true := by
  cases operand <;> simp [formatOperand]

theorem operandI4_isSome (w : Word) : (operandI4 w).isSome = true ↔ w.extractLsb' 4 20 = 0#20 := by
  unfold operandI4
  split <;> simp_all

theorem operandI8_isSome (w : Word) : (operandI8 w).isSome = true ↔ w.extractLsb' 8 16 = 0#16 := by
  unfold operandI8
  split <;> simp_all

theorem operandI16_isSome (w : Word) : (operandI16 w).isSome = true ↔ w.extractLsb' 16 8 = 0#8 := by
  unfold operandI16
  split <;> simp_all

theorem operandM1_isSome (w : Word) : (operandM1 w).isSome = true ↔ w.extractLsb' 1 23 = 0#23 := by
  unfold operandM1
  split <;> simp_all

/-! ### Round trips (R86, R87) -/

/-- The decoder reads every command back from its encoding: OPC selects the row, the format's field is the operand. -/
theorem decode_encode (i : Instr) : decode (encode i) = .ok i := by
  cases i with
  | crcInit | crcBlock | vlqInit | scan | filter | xtrReset | xtrStep | xtrRun => rfl
  | crcByte b =>
    rw [encode, decode_02 (opcodeField_append _ _), operandI8_append]
    rfl
  | vlqByte b =>
    rw [encode, decode_11 (opcodeField_append _ _), operandI8_append]
    rfl
  | lutN2c v =>
    rw [encode, decode_20 (opcodeField_append _ _), operandI4_append]
    rfl
  | lutC2n c =>
    rw [encode, decode_21 (opcodeField_append _ _), operandI16_append]
    rfl
  | frameParse off => rw [encode, decode_30 (opcodeField_append _ _), operandField_append]

/-- A word is the one its two fields make. -/
theorem eq_append_of_fields {w : Word} {o : BitVec 8} {x : BitVec 24} (ho : opcodeField w = o)
    (hx : operandField w = x) : o ++ x = w := by
  rw [← ho, ← hx]
  exact (word_eq_fields w).symm

/-- No bit of a command word is ignored: OPC and the whole operand are those of the command's encoding. -/
theorem encode_of_decode {w : Word} {i : Instr} (h : decode w = .ok i) : encode i = w := by
  rcases decode_cases h with ⟨ho, hx, rfl⟩ | ⟨ho, b, hb, rfl⟩ | ⟨ho, hx, rfl⟩ | ⟨ho, hx, rfl⟩ | ⟨ho, b, hb, rfl⟩
    | ⟨ho, v, hv, rfl⟩ | ⟨ho, c, hc, rfl⟩ | ⟨ho, rfl⟩ | ⟨ho, hf, rfl⟩ | ⟨ho, hf, rfl⟩ | ⟨ho, hx, rfl⟩ | ⟨ho, hx, rfl⟩
    | ⟨ho, hx, rfl⟩
  · exact eq_append_of_fields ho hx
  · exact eq_append_of_fields ho (operandI8_some hb)
  · exact eq_append_of_fields ho hx
  · exact eq_append_of_fields ho hx
  · exact eq_append_of_fields ho (operandI8_some hb)
  · exact eq_append_of_fields ho (operandI4_some hv)
  · exact eq_append_of_fields ho (operandI16_some hc)
  · exact eq_append_of_fields ho rfl
  · exact eq_append_of_fields ho (operandM1_some hf)
  · exact eq_append_of_fields ho (operandM1_some hf)
  · exact eq_append_of_fields ho hx
  · exact eq_append_of_fields ho hx
  · exact eq_append_of_fields ho hx

/-! ### The opcode map (R89) -/

/-- Every command has a row in the opcode map that its encoding matches. -/
theorem encode_matches_row (i : Instr) : Laws.EncodeMatchesRow.Statement i := by
  cases i with
  | crcInit => exact Laws.EncodeMatchesRow.crcInit
  | crcByte b => exact Laws.EncodeMatchesRow.crcByte b
  | crcBlock => exact Laws.EncodeMatchesRow.crcBlock
  | vlqInit => exact Laws.EncodeMatchesRow.vlqInit
  | vlqByte b => exact Laws.EncodeMatchesRow.vlqByte b
  | lutN2c v => exact Laws.EncodeMatchesRow.lutN2c v
  | lutC2n c => exact Laws.EncodeMatchesRow.lutC2n c
  | frameParse off => exact Laws.EncodeMatchesRow.frameParse off
  | scan => exact Laws.EncodeMatchesRow.scan
  | filter => exact Laws.EncodeMatchesRow.filter
  | xtrReset => exact Laws.EncodeMatchesRow.xtrReset
  | xtrStep => exact Laws.EncodeMatchesRow.xtrStep
  | xtrRun => exact Laws.EncodeMatchesRow.xtrRun

/-- No mnemonic has two rows. -/
theorem opcodeMap_mnemonic_inj :
    ∀ row ∈ opcodeMap, ∀ row' ∈ opcodeMap, row.mnemonic = row'.mnemonic → row = row' := by decide

/-- What a row whose mask holds the whole of OPC says of a word's two fields. -/
theorem fields_of_encodes {mn : Mnemonic} {o : BitVec 8} {p m : BitVec 24} {w : Word}
    (h : OpcodeRow.encodes ⟨mn, o ++ p, 0xFF#8 ++ m⟩ w = true) : opcodeField w = o ∧ operandField w &&& m = p := by
  have hand : w &&& (0xFF#8 ++ m) = o ++ p := beq_iff_eq.mp h
  rw [word_eq_fields w, BitVec.and_append] at hand
  have hopc : opcodeField w &&& 0xFF#8 = o := by
    have := congrArg opcodeField hand
    rwa [opcodeField_append, opcodeField_append] at this
  have hoperand := congrArg operandField hand
  rw [operandField_append, operandField_append] at hoperand
  exact ⟨(BitVec.and_allOnes (x := opcodeField w)).symm.trans hopc, hoperand⟩

/-- A mask that selects the bits of an operand above its immediate, read as 0: those bits are 0. -/
theorem high_zero_of_and {n m : Nat} {x : BitVec (n + m)} (h : x &&& (BitVec.allOnes n ++ 0#m) = 0#(n + m)) :
    x.extractLsb' m n = 0#n := by
  have hhigh := congrArg (BitVec.extractLsb' m n) h
  rw [BitVec.extractLsb'_and, BitVec.extractLsb'_append_eq_left, BitVec.and_allOnes] at hhigh
  rw [hhigh]
  simp

/-- A row whose mask selects every bit holds one word alone. -/
theorem eq_of_encodes_full {mn : Mnemonic} {o : BitVec 8} {p : BitVec 24} {w : Word}
    (h : OpcodeRow.encodes ⟨mn, o ++ p, 0xFF#8 ++ 0xFFFFFF#24⟩ w = true) : o ++ p = w := by
  obtain ⟨ho, hx⟩ := fields_of_encodes h
  exact eq_append_of_fields ho ((BitVec.and_allOnes (x := operandField w)).symm.trans hx)

/-- What the mask of format I4 leaves 0 lets the operand be read (R87, R89). -/
theorem operandI4_of_mask {w : Word} (h : operandField w &&& 0xFFFFF0#24 = 0#24) : ∃ v, operandI4 w = some v :=
  Option.isSome_iff_exists.mp ((operandI4_isSome w).mpr
    ((extract_operandField w 4 20 (by omega)).symm.trans (high_zero_of_and (n := 20) (m := 4) h)))

/-- What the mask of format I8 leaves 0 lets the operand be read (R87, R89). -/
theorem operandI8_of_mask {w : Word} (h : operandField w &&& 0xFFFF00#24 = 0#24) : ∃ b, operandI8 w = some b :=
  Option.isSome_iff_exists.mp ((operandI8_isSome w).mpr
    ((extract_operandField w 8 16 (by omega)).symm.trans (high_zero_of_and (n := 16) (m := 8) h)))

/-- What the mask of format I16 leaves 0 lets the operand be read (R87, R89). -/
theorem operandI16_of_mask {w : Word} (h : operandField w &&& 0xFF0000#24 = 0#24) : ∃ c, operandI16 w = some c :=
  Option.isSome_iff_exists.mp ((operandI16_isSome w).mpr
    ((extract_operandField w 16 8 (by omega)).symm.trans (high_zero_of_and (n := 8) (m := 16) h)))

/-- A word that a row selects is the encoding of a command of the row's mnemonic. -/
theorem exists_encode_of_row {row : OpcodeRow} {w : Word} (hrow : row ∈ opcodeMap) (h : row.encodes w = true) :
    ∃ i, encode i = w ∧ i.mnemonic = row.mnemonic := by
  simp only [opcodeMap, List.mem_cons, List.not_mem_nil, or_false] at hrow
  rcases hrow with rfl | rfl | rfl | rfl | rfl | rfl | rfl | rfl | rfl | rfl | rfl | rfl | rfl
  · exact ⟨.crcInit, eq_of_encodes_full (o := 0x01#8) (p := 0#24) h, rfl⟩
  · obtain ⟨ho, hx⟩ := fields_of_encodes (o := 0x02#8) (p := 0#24) (m := 0xFFFF00#24) h
    obtain ⟨b, hb⟩ := operandI8_of_mask hx
    exact ⟨.crcByte b, eq_append_of_fields ho (operandI8_some hb), rfl⟩
  · exact ⟨.crcBlock, eq_of_encodes_full (o := 0x03#8) (p := 0#24) h, rfl⟩
  · exact ⟨.vlqInit, eq_of_encodes_full (o := 0x10#8) (p := 0#24) h, rfl⟩
  · obtain ⟨ho, hx⟩ := fields_of_encodes (o := 0x11#8) (p := 0#24) (m := 0xFFFF00#24) h
    obtain ⟨b, hb⟩ := operandI8_of_mask hx
    exact ⟨.vlqByte b, eq_append_of_fields ho (operandI8_some hb), rfl⟩
  · obtain ⟨ho, hx⟩ := fields_of_encodes (o := 0x20#8) (p := 0#24) (m := 0xFFFFF0#24) h
    obtain ⟨v, hv⟩ := operandI4_of_mask hx
    exact ⟨.lutN2c v, eq_append_of_fields ho (operandI4_some hv), rfl⟩
  · obtain ⟨ho, hx⟩ := fields_of_encodes (o := 0x21#8) (p := 0#24) (m := 0xFF0000#24) h
    obtain ⟨c, hc⟩ := operandI16_of_mask hx
    exact ⟨.lutC2n c, eq_append_of_fields ho (operandI16_some hc), rfl⟩
  · obtain ⟨ho, _⟩ := fields_of_encodes (o := 0x30#8) (p := 0#24) (m := 0#24) h
    exact ⟨.frameParse (operandField w), eq_append_of_fields ho rfl, rfl⟩
  · exact ⟨.scan, eq_of_encodes_full (o := 0x40#8) (p := 0#24) h, rfl⟩
  · exact ⟨.filter, eq_of_encodes_full (o := 0x40#8) (p := 1#24) h, rfl⟩
  · exact ⟨.xtrReset, eq_of_encodes_full (o := 0x50#8) (p := 0#24) h, rfl⟩
  · exact ⟨.xtrStep, eq_of_encodes_full (o := 0x51#8) (p := 0#24) h, rfl⟩
  · exact ⟨.xtrRun, eq_of_encodes_full (o := 0x52#8) (p := 0#24) h, rfl⟩

/-! ### Reserved words (R90, R91) -/

/-- The values of OPC that the opcode map lists (R89). -/
def listedOpcodes : List (BitVec 8) :=
  [0x01#8, 0x02#8, 0x03#8, 0x10#8, 0x11#8, 0x20#8, 0x21#8, 0x30#8, 0x40#8, 0x50#8, 0x51#8, 0x52#8]

/-- A word is reserved: its OPC is not listed (R90), or it has a 1 in a bit that the format of its OPC marks 0 (R91). -/
def Reserved (w : Word) : Prop :=
  opcodeField w ∉ listedOpcodes
    ∨ opcodeField w ∈ [0x01#8, 0x03#8, 0x10#8, 0x50#8, 0x51#8, 0x52#8] ∧ w.extractLsb' 0 24 ≠ 0#24
    ∨ opcodeField w ∈ [0x02#8, 0x11#8] ∧ w.extractLsb' 8 16 ≠ 0#16
    ∨ opcodeField w = 0x20#8 ∧ w.extractLsb' 4 20 ≠ 0#20
    ∨ opcodeField w = 0x21#8 ∧ w.extractLsb' 16 8 ≠ 0#8
    ∨ opcodeField w = 0x40#8 ∧ w.extractLsb' 1 23 ≠ 0#23

/-- The commands are exactly the words that are not reserved: an unlisted OPC is refused, and each listed one by its
format. -/
theorem decode_ok_iff (w : Word) : (∃ i, decode w = .ok i) ↔ ¬ Reserved w := by
  by_cases hlisted : opcodeField w ∈ listedOpcodes
  case neg =>
    have hothers := hlisted
    simp only [listedOpcodes, List.mem_cons, List.not_mem_nil, or_false, not_or] at hothers
    obtain ⟨h01, h02, h03, h10, h11, h20, h21, h30, h40, h50, h51, h52⟩ := hothers
    rw [decode_other h01 h02 h03 h10 h11 h20 h21 h30 h40 h50 h51 h52]
    simp [Reserved, hlisted]
  case pos =>
    simp only [Reserved, hlisted, not_true_eq_false, false_or]
    simp only [listedOpcodes, List.mem_cons, List.not_mem_nil, or_false] at hlisted
    rcases hlisted with h | h | h | h | h | h | h | h | h | h | h | h
    · rw [decode_01 h, formatN_ok_iff]; simp [h]
    · rw [decode_02 h, formatOperand_ok_iff, operandI8_isSome]; simp [h]
    · rw [decode_03 h, formatN_ok_iff]; simp [h]
    · rw [decode_10 h, formatN_ok_iff]; simp [h]
    · rw [decode_11 h, formatOperand_ok_iff, operandI8_isSome]; simp [h]
    · rw [decode_20 h, formatOperand_ok_iff, operandI4_isSome]; simp [h]
    · rw [decode_21 h, formatOperand_ok_iff, operandI16_isSome]; simp [h]
    · rw [decode_30 h]; simp [h]
    · rw [decode_40 h, formatOperand_ok_iff, operandM1_isSome]; simp [h]
    · rw [decode_50 h, formatN_ok_iff]; simp [h]
    · rw [decode_51 h, formatN_ok_iff]; simp [h]
    · rw [decode_52 h, formatN_ok_iff]; simp [h]

/-- A reserved word is refused by the decoder. -/
theorem decode_reserved {w : Word} (h : Reserved w) : ∃ e, decode w = .error e := by
  cases hd : decode w with
  | error e => exact ⟨e, rfl⟩
  | ok i => exact absurd h ((decode_ok_iff w).mp ⟨i, hd⟩)

end Sys2Proof

namespace Sys2Proof.Machine

/-! ### Issue (R93) -/

/-- A write to CMD while BUSY = 0 issues the word. -/
theorem step_cmd {s : State} {w : Word} {rest : List Event} (hidle : s.pend = none)
    (h : s.inputs = memWrite Reg.cmd.offset w :: rest) : step s = .next ({ s with inputs := rest }.issue w) :=
  step_writeReg (r := .cmd) (.inl hidle) h

theorem issue_command {s : State} {w : Word} {i : Instr} (h : decode w = .ok i) :
    s.issue w = { s with pend := some w } := by
  simp only [State.issue, h]

theorem issue_rejected {s : State} {w : Word} {e : DecodeError} (h : decode w = .error e) :
    s.issue w = { s with status := { s.status with errIllegal := true, done := true } } := by
  simp only [State.issue, h]
  rfl

end Sys2Proof.Machine
end

section
/-! SUPPORT. A command line at the block (R95, R96): the reads of WAIT and the turn of the engine among them, as events
and at a host under any schedule; and REPEAT as the first of its rounds to pass the test. -/

namespace Sys2Proof.Machine

/-! ### WAIT as events -/

/-- Reads of STATUS one after another: each returns the same word, and nothing else changes. -/
theorem runFor_statusReads (d : Nat) {s : State} {rest : List Event}
    (h : s.inputs = List.replicate d (memRead Reg.status.offset) ++ rest) : runFor d s
      = .next { s with inputs := rest, replies := List.replicate d s.statusWord ++ s.replies } := by
  induction d generalizing s with
  | zero =>
    obtain rfl : s.inputs = rest := h
    rfl
  | succ d ih =>
    rw [runFor_succ (step_readReg (r := .status) h), ih rfl, List.replicate_succ', List.append_assoc]
    rfl

/-- After a command BUSY reads 0 (R75). -/
theorem statusWord_idle {s : State} (h : s.pend = none) : s.statusWord.getLsbD 0 = false := by
  obtain ⟨hbusy, _⟩ := statusWord_flags s
  rw [hbusy, h]
  rfl

/-- While PEND holds a word BUSY reads 1 (R22). -/
theorem statusWord_busy {s : State} {w : Word} (h : s.pend = some w) : s.statusWord.getLsbD 0 = true := by
  obtain ⟨hbusy, _⟩ := statusWord_flags s
  rw [hbusy, h]
  rfl

/-- Every command leaves the block idle, the inputs and the replies as they were (R75). -/
theorem exec_idle (i : Instr) (s : State) :
    ∃ t, exec i s = .next t ∧ t.pend = none ∧ t.inputs = s.inputs ∧ t.replies = s.replies := by
  obtain ⟨t, hexec, hsame⟩ := exec_completes i s
  obtain ⟨_, hinputs, hreplies⟩ := hsame.outside
  exact ⟨t.complete, hexec, rfl, hinputs, hreplies⟩

/-! ### WAIT at a host -/

/-- A read of STATUS, BUSY or not (R76). -/
theorem hostAccess_readStatus (s : State) :
    s.hostAccess ⟨.read, Reg.status.offset, 4, 0#32⟩ = s.reply s.statusWord := by
  show s.hostRead _ = _
  rw [hostRead_word _ (regOffset_aligned .status), decodeOffset_reg]
  rfl

/-- A write to CMD while BUSY = 0 (R93). -/
theorem hostAccess_writeCmd {s : State} (h : s.pend = none) (w : Word) :
    s.hostAccess ⟨.write, Reg.cmd.offset, 4, w⟩ = s.issue w := by
  show s.hostWrite _ = _
  rw [hostWrite_idle s ((aligned_iff _).mpr ⟨rfl, regOffset_aligned .cmd⟩) (.inl h)]
  dsimp only
  rw [decodeOffset_reg]
  rfl

/-- An access before which the engine steps: where the schedule says so, and past its end (R75). -/
theorem HostRun.access_after_turn {s t : State} {turns : List Bool} (hturns : turns.head? ≠ some false)
    (ht : engineTurn s = .next t) (e : Event) : HostRun.access ⟨s, turns⟩ e = HostRun.event ⟨t, turns.tail⟩ e := by
  match turns, hturns with
  | [], _ => exact congrArg (Option.bind · (·.event e)) (HostRun.event_engine (h := ⟨s, []⟩) ht)
  | true :: rest, _ => exact congrArg (Option.bind · (·.event e)) (HostRun.event_engine (h := ⟨s, rest⟩) ht)

/-- At an idle block the schedule makes no difference to an access. -/
theorem HostRun.access_idle {s : State} (h : s.pend = none) (turns : List Bool) (e : Event) :
    HostRun.access ⟨s, turns⟩ e = HostRun.event ⟨s, turns.tail⟩ e := by
  cases turns with
  | nil => exact access_after_turn (by simp) (engineTurn_idle h) e
  | cons turn rest =>
    cases turn with
    | false => rfl
    | true => exact access_after_turn (by simp) (engineTurn_idle h) e

/-- How many accesses the engine lets pass under a schedule before its first turn. -/
def delayOf (turns : List Bool) : Nat := (turns.takeWhile (fun turn => !turn)).length

/-- WAIT when the engine steps before its next read: the command is performed, and that read returns BUSY = 0. -/
theorem waitLoop_turn {i : Instr} {w : Word} (hd : decode w = .ok i) {turns : List Bool} {s t : State}
    (hturns : turns.head? ≠ some false) (hpend : s.pend = some w) (hexec : exec i s = .next t) (hidle : t.pend = none)
    (reads : Nat) : waitLoop (reads + 1) ⟨s, turns⟩
      = some ⟨{ t with replies := t.statusWord :: t.replies }, turns.tail⟩ := by
  have hread : HostRun.access ⟨s, turns⟩ (memRead Reg.status.offset) = some ⟨t.reply t.statusWord, turns.tail⟩ := by
    rw [HostRun.access_after_turn hturns ((engineTurn_command hpend hd).trans hexec), memRead, HostRun.event_access,
      hostAccess_readStatus]
  have hclear : ¬ (HostRun.mk (t.reply t.statusWord) turns.tail).lastRead.getLsbD 0 = true :=
    Bool.eq_false_iff.mp (statusWord_idle hidle)
  rw [waitLoop_succ reads hread, if_neg hclear]
  rfl

/-- WAIT when the engine lets its next read pass: that read returns BUSY = 1, and the loop goes on. -/
theorem waitLoop_pass {w : Word} {s : State} (hpend : s.pend = some w) (reads : Nat) (turns : List Bool) :
    waitLoop (reads + 1) ⟨s, false :: turns⟩ = waitLoop reads ⟨s.reply s.statusWord, turns⟩ := by
  have hread : HostRun.access ⟨s, false :: turns⟩ (memRead Reg.status.offset) = some ⟨s.reply s.statusWord, turns⟩ :=
    congrArg (fun t => some (HostRun.mk t turns)) (hostAccess_readStatus s)
  have hbusy : (HostRun.mk (s.reply s.statusWord) turns).lastRead.getLsbD 0 = true := statusWord_busy hpend
  rw [waitLoop_succ reads hread, if_pos hbusy]

/-- WAIT with a command pending: the reads that the engine lets pass, then its turn and the read that ends the loop,
by induction on the schedule. -/
theorem waitLoop_command {i : Instr} {w : Word} (hd : decode w = .ok i) {reads : Nat} {turns : List Bool} {s t : State}
    (hreads : turns.length ≤ reads) (hpend : s.pend = some w)
    (hexec : exec i { s with replies := List.replicate (delayOf turns) s.statusWord ++ s.replies } = .next t)
    (hidle : t.pend = none) :
    waitLoop (reads + 1) ⟨s, turns⟩
      = some ⟨{ t with replies := t.statusWord :: t.replies }, turns.drop (delayOf turns + 1)⟩ := by
  induction turns generalizing s reads with
  | nil => exact waitLoop_turn hd (by simp) hpend hexec hidle reads
  | cons turn rest ih =>
    cases turn with
    | true => exact waitLoop_turn hd (by simp) hpend hexec hidle reads
    | false =>
      obtain ⟨reads, rfl⟩ := Nat.exists_eq_add_of_le' (Nat.le_of_add_left_le hreads)
      have hreplies : List.replicate (delayOf (false :: rest)) s.statusWord ++ s.replies
          = List.replicate (delayOf rest) s.statusWord ++ s.statusWord :: s.replies := by
        show List.replicate (delayOf rest + 1) s.statusWord ++ s.replies = _
        rw [List.replicate_succ', List.append_assoc]
        rfl
      rw [hreplies] at hexec
      rw [waitLoop_pass hpend]
      exact ih (s := s.reply s.statusWord) (Nat.le_of_succ_le_succ hreads) hpend hexec

/-! ### REPEAT -/

/-- One round of REPEAT more: the first round, then the others. -/
theorem HostRun.rounds_succ {body : HostRun → Option HostRun} {r : Reg} {h x : HostRun}
    (hx : HostRun.round body r h = some x) (n : Nat) :
    HostRun.rounds body r (n + 1) h = HostRun.rounds body r n x := by
  simp only [HostRun.rounds, hx, Option.bind_some]

/-- Where REPEAT ends is the first of its rounds whose read passes the test of UNTIL, and lies within the bound. -/
theorem untilLoop_first {body : HostRun → Option HostRun} {r : Reg} {m v : Word} {bound : Nat} {h u : HostRun}
    (hl : untilLoop body r m v bound h = some u) :
    ∃ n, 1 ≤ n ∧ n ≤ bound ∧ HostRun.rounds body r n h = some u ∧ u.lastRead &&& m = v
      ∧ ∀ k w, 1 ≤ k → k < n → HostRun.rounds body r k h = some w → w.lastRead &&& m ≠ v := by
  induction bound generalizing h with
  | zero => cases hl
  | succ bound ih =>
    cases hround : HostRun.round body r h with
    | none =>
      simp only [untilLoop, hround] at hl
      cases hl
    | some x =>
      have after := HostRun.rounds_succ hround
      rw [untilLoop_succ m v bound hround] at hl
      by_cases hpass : x.lastRead &&& m = v
      · rw [if_pos hpass] at hl
        obtain rfl : x = u := Option.some.inj hl
        exact ⟨1, by omega, by omega, after 0, hpass, fun k w _ _ => by omega⟩
      · rw [if_neg hpass] at hl
        obtain ⟨n, _, _, hrounds, hu, hfirst⟩ := ih hl
        refine ⟨n + 1, by omega, by omega, (after n).trans hrounds, hu, fun k w hk hkn hw => ?_⟩
        match k with
        | 1 =>
          obtain rfl : x = w := Option.some.inj ((after 0).symm.trans hw)
          exact hpass
        | k + 2 => exact hfirst (k + 1) w (by omega) (by omega) ((after (k + 1)).symm.trans hw)

/-- The first round whose read passes the test of UNTIL ends REPEAT, under every bound that it is within. -/
theorem untilLoop_of_first {body : HostRun → Option HostRun} {r : Reg} {m v : Word} {n bound : Nat} {h u : HostRun}
    (hbound : n + 1 ≤ bound) (hrounds : HostRun.rounds body r (n + 1) h = some u) (hu : u.lastRead &&& m = v)
    (hfirst : ∀ k w, 1 ≤ k → k < n + 1 → HostRun.rounds body r k h = some w → w.lastRead &&& m ≠ v) :
    untilLoop body r m v bound h = some u := by
  obtain ⟨bound, rfl⟩ : ∃ b, bound = b + 1 := ⟨bound - 1, by omega⟩
  induction n generalizing h bound with
  | zero =>
    obtain ⟨x, hround, hx⟩ := Option.bind_eq_some_iff.mp hrounds
    obtain rfl : x = u := Option.some.inj hx
    rw [untilLoop_succ m v bound hround, if_pos hu]
  | succ n ih =>
    obtain ⟨x, hround, hx⟩ := Option.bind_eq_some_iff.mp hrounds
    have after := HostRun.rounds_succ hround
    obtain ⟨bound, rfl⟩ : ∃ b, bound = b + 1 := ⟨bound - 1, by omega⟩
    rw [untilLoop_succ m v _ hround, if_neg (hfirst 1 x (by omega) (by omega) (after 0))]
    exact ih hx (fun k w hk hkn hw => hfirst (k + 1) w (by omega) (by omega) ((after k).trans hw)) bound (by omega)

/-! ### A command line (R95) -/

/-- The block with a command pending that the CMD write has put there, and STATUS read `d` times since. -/
def State.issuedAndRead (s : State) (i : Instr) (d : Nat) : State :=
  let issued := { s with pend := some (encode i) }
  { issued with replies := List.replicate d issued.statusWord ++ s.replies }

/-- The CMD write of a command line, at an idle block (R93). -/
theorem issue_encode (s : State) (i : Instr) : s.issue (encode i) = { s with pend := some (encode i) } :=
  issue_command (decode_encode i)

/-- A command line as events: the command is performed once, between `d` reads of STATUS and one more (R75). -/
theorem runFor_commandEvents {s t : State} {i : Instr} {d : Nat} {rest : List Event} (hidle : s.pend = none)
    (hi : s.inputs = commandEvents d i ++ rest)
    (hexec : exec i { s.issuedAndRead i d with inputs := memRead Reg.status.offset :: rest } = .next t)
    (hinputs : t.inputs = memRead Reg.status.offset :: rest) :
    runFor (d + 3) s = .next { t with inputs := rest, replies := t.statusWord :: t.replies } := by
  have hissue := step_cmd hidle hi
  rw [issue_encode] at hissue
  rw [show d + 3 = (d + 2) + 1 by omega, runFor_succ hissue,
    runFor_add (runFor_statusReads d (rest := .engine :: memRead Reg.status.offset :: rest) (List.append_assoc _ _ _))]
  have hturn := (step_engine (s := { s.issuedAndRead i d with inputs := .engine :: memRead Reg.status.offset :: rest })
    rfl).trans ((engineTurn_command rfl (decode_encode i)).trans hexec)
  exact (runFor_succ hturn).trans (runFor_succ (step_readReg (r := .status) hinputs))

/-- A command line performed by a host under any schedule: `d` is the number of accesses after the CMD write that the
engine lets pass (R75). -/
theorem actions_command {s t : State} {i : Instr} {turns : List Bool} (hidle : s.pend = none)
    (hexec : exec i (s.issuedAndRead i (delayOf (turns.drop 1))) = .next t) (ht : t.pend = none) :
    HostRun.actions (HostLine.command i).actions ⟨s, turns⟩
      = some ⟨{ t with replies := t.statusWord :: t.replies }, turns.drop (delayOf (turns.drop 1) + 2)⟩ := by
  have hwrite : HostRun.action ⟨s, turns⟩ (.write Reg.cmd.offset (encode i))
      = some ⟨{ s with pend := some (encode i) }, turns.tail⟩ := by
    show HostRun.access _ (memWrite _ _) = _
    rw [HostRun.access_idle hidle, memWrite, HostRun.event_access, hostAccess_writeCmd hidle, issue_encode]
  have hwait : HostRun.wait ⟨{ s with pend := some (encode i) }, turns.tail⟩
      = some ⟨{ t with replies := t.statusWord :: t.replies }, turns.tail.drop (delayOf turns.tail + 1)⟩ := by
    rw [List.drop_one] at hexec
    exact waitLoop_command (decode_encode i) (Nat.le_refl _) rfl hexec ht
  show (HostRun.action ⟨s, turns⟩ (.write Reg.cmd.offset (encode i))).bind (fun h => h.wait.bind some) = _
  rw [hwrite, Option.bind_some, hwait, List.drop_tail, List.drop_one]
  rfl

end Sys2Proof.Machine
end

section
/-! PROOFS. The statements about commands, their words and their issue (30_encoding.md), each put together from the laws
above. -/

namespace Sys2Proof.Machine

/-- Settles O10: the decoder finds each command's row by OPC and reads its operand back from the format's field. -/
theorem decodeEncodeRoundTrip : Obligations.DecodeEncodeRoundTrip := decode_encode

/-- Settles O11: OPC and the operand are the whole word, and the decoder looks at both. -/
theorem encodeDecodeRoundTrip : Obligations.EncodeDecodeRoundTrip := fun _ _ => encode_of_decode

/-- Settles O12: a word that a row selects is an encoding, a word that decodes is one, and the command that a word
decodes to names its row. -/
theorem decodeAgreesWithTheOpcodeMap : Obligations.DecodeAgreesWithTheOpcodeMap := by
  intro w
  have decodes : ∀ row ∈ opcodeMap, row.encodes w = true → ∃ i, decode w = .ok i ∧ i.mnemonic = row.mnemonic := by
    intro row hrow h
    obtain ⟨i, rfl, hname⟩ := exists_encode_of_row hrow h
    exact ⟨i, decode_encode i, hname⟩
  refine ⟨decodes, fun i hd => ?_, fun row hrow row' hrow' h h' => ?_⟩
  · obtain ⟨row, hrow, hname, hmatch⟩ := encode_matches_row i
    exact ⟨row, hrow, encode_of_decode hd ▸ hmatch, hname⟩
  · obtain ⟨i, hd, hname⟩ := decodes row hrow h
    obtain ⟨i', hd', hname'⟩ := decodes row' hrow' h'
    obtain rfl : i = i' := Except.ok.inj (hd.symm.trans hd')
    exact opcodeMap_mnemonic_inj row hrow row' hrow' (hname.symm.trans hname')

/-- Settles O9: the CMD write issues the command, WAIT lets the engine perform it once, and REPEAT ends with the first
of its rounds to pass the test. -/
theorem hostLinesRunTheirCommands : Obligations.HostLinesRunTheirCommands := by
  refine ⟨fun s i d rest hidle hi => ?_, fun s i turns hidle => ?_, fun bound body r m v h u => ?_⟩
  · obtain ⟨t, hexec, ht, hinputs, _⟩ :=
      exec_idle i { s.issuedAndRead i d with inputs := memRead Reg.status.offset :: rest }
    exact ⟨_, t, rfl, statusWord_busy rfl, hexec, statusWord_idle ht, runFor_commandEvents hidle hi hexec hinputs⟩
  · obtain ⟨t, hexec, ht, _⟩ := exec_idle i (s.issuedAndRead i (delayOf (turns.drop 1)))
    exact ⟨_, t, rfl, hexec, statusWord_idle ht, actions_command hidle hexec ht⟩
  · have hperform : (HostProgram.repeatUntil body r m v .done).perform bound h
        = untilLoop (body.perform bound) r m v bound h := Option.bind_fun_some _
    rw [hperform]
    refine ⟨untilLoop_first, ?_⟩
    rintro ⟨n, hpos, hbound, hrounds, hu, hfirst⟩
    obtain ⟨n, rfl⟩ := Nat.exists_eq_add_of_le' hpos
    exact untilLoop_of_first hbound hrounds hu hfirst

/-- Settles O15: issue by what the word decodes to, and R216 while BUSY = 1. -/
theorem cmdWriteIssuesOrRejects : Obligations.CmdWriteIssuesOrRejects := by
  intro s w rest hi
  refine ⟨fun hidle i hd => ?_, fun hidle e hd => ?_, fun hbusy => ?_⟩
  · rw [step_cmd hidle hi, issue_command hd]
  · rw [step_cmd hidle hi, issue_rejected hd]
  · exact step_write_busy hbusy rfl (by decide) hi

/-- Settles O13: the reserved words are those that do not decode, and issue rejects these. -/
theorem reservedWordsAreRejectedAtIssue : Obligations.ReservedWordsAreRejectedAtIssue := by
  intro w reserved
  refine ⟨fun hres s rest hidle hi => ?_, fun hres => (decode_ok_iff w).mpr hres⟩
  obtain ⟨e, hd⟩ := decode_reserved hres
  rw [step_cmd hidle hi, issue_rejected hd]

/-- Settles O14: each printed word is the encoding of its command. -/
theorem exampleWordsDecode : Obligations.ExampleWordsDecode :=
  ⟨decode_encode (.lutN2c 10#4), decode_encode (.lutC2n 0x0041#16), decode_encode .vlqInit,
    decode_encode (.vlqByte 0x81#8), decode_encode .crcInit, decode_encode (.crcByte 0x31#8), decode_encode .crcBlock,
    decode_encode (.frameParse 0#24), decode_encode .scan, decode_encode .filter, decode_encode .xtrReset,
    decode_encode .xtrStep, decode_encode .xtrRun⟩

end Sys2Proof.Machine
end

section
/-! SUPPORT. The nibble alphabet (41_nibble_alphabet.md): what legality says of the table, the two lookups as each
other's inverse, and the words of LUT_OUT. -/

namespace Sys2Proof.Machine

/-! ### The alphabet (R6, R105) -/

theorem alphabet_of_legal {p : Params} (h : p.legal = true) :
    p.alphabet.toList.Nodup ∧ ∀ c ∈ p.alphabet.toList, ¬ (0xD800 ≤ c.toNat ∧ c.toNat ≤ 0xDFFF) := by
  simp only [Params.legal, Bool.and_eq_true, decide_eq_true_eq, List.all_eq_true] at h
  obtain ⟨⟨⟨⟨⟨hnodup, hsurrogate⟩, _⟩, _⟩, _⟩, _⟩ := h
  refine ⟨hnodup, fun c hc ⟨hlo, hhi⟩ => ?_⟩
  simpa [Nat.ble_eq_true_of_le hlo, Nat.ble_eq_true_of_le hhi] using hsurrogate c hc

theorem charFor_mem (p : Params) (v : Nibble) : charFor p v ∈ p.alphabet.toList :=
  Vector.mem_toList_iff.mpr (Vector.getElem_mem v.isLt)

theorem getElem?_alphabet (p : Params) (v : Nibble) : p.alphabet[v.toNat]? = some (charFor p v) :=
  Vector.getElem?_eq_getElem v.isLt

theorem charFor_injective {p : Params} (h : p.legal = true) : Function.Injective (charFor p) := by
  intro u v huv
  have hindex : u.toNat = v.toNat := (alphabet_of_legal h).1.getElem_inj_iff.mp huv
  exact BitVec.eq_of_toNat_eq hindex

/-! ### The two lookups (R106) -/

theorem mem_nibbles : ∀ v : Nibble, v ∈ nibbles := by decide

theorem nibbleFor_eq_none_iff {p : Params} {c : CodeUnit} : nibbleFor p c = none ↔ ∀ v, charFor p v ≠ c := by
  simp [nibbleFor, mem_nibbles]

theorem isAlpha_iff {p : Params} {c : CodeUnit} : isAlpha p c = true ↔ nibbleFor p c ≠ none :=
  Option.isSome_iff_ne_none

theorem charFor_of_nibbleFor {p : Params} {c : CodeUnit} {v : Nibble} (h : nibbleFor p c = some v) :
    charFor p v = c := by
  simpa using List.find?_some h

/-- The search finds a nibble with the unit of `v`, and over a legal alphabet only `v` has it. -/
theorem nibbleFor_charFor {p : Params} (h : p.legal = true) (v : Nibble) : nibbleFor p (charFor p v) = some v := by
  cases hfind : nibbleFor p (charFor p v) with
  | none => exact absurd rfl (nibbleFor_eq_none_iff.mp hfind v)
  | some u => rw [charFor_injective h (charFor_of_nibbleFor hfind)]

theorem nibbleFor_surrogate {p : Params} (h : p.legal = true) {c : CodeUnit} (hlo : 0xD800 ≤ c.toNat)
    (hhi : c.toNat ≤ 0xDFFF) : nibbleFor p c = none := by
  rw [nibbleFor_eq_none_iff]
  rintro v rfl
  exact (alphabet_of_legal h).2 _ (charFor_mem p v) ⟨hlo, hhi⟩

/-! ### The words of LUT_OUT (R32) -/

theorem lutOut_word_valid (c : CodeUnit) : LutOut.word ⟨c, true⟩ = c.setWidth 32 ||| 0x00010000#32 := by
  have hvalid : 0#15 ++ BitVec.ofBool true = 1#16 := rfl
  rw [LutOut.word, hvalid, BitVec.append_def, BitVec.setWidth'_eq, BitVec.or_comm]
  congr 1

theorem lutOut_word_none : LutOut.word (lutOfNibble none) = 0#32 := rfl

theorem lutOut_word_some (v : Nibble) : LutOut.word (lutOfNibble (some v)) = v.setWidth 32 ||| 0x00010000#32 := by
  rw [show lutOfNibble (some v) = ⟨v.setWidth 16, true⟩ from rfl, lutOut_word_valid,
    BitVec.setWidth_setWidth (by omega)]

end Sys2Proof.Machine
end

section
/-! PROOFS. The statements about the nibble alphabet (41_nibble_alphabet.md), each put together from the laws above. -/

namespace Sys2Proof.Machine

/-- Settles O37: legality makes the table injective and free of surrogates, and the search runs over all nibbles. -/
theorem nibbleLookupIsABijection : Obligations.NibbleLookupIsABijection := fun p h =>
  ⟨getElem?_alphabet p, fun _ => nibbleFor_eq_none_iff, fun _ => isAlpha_iff, nibbleFor_charFor h,
    fun _ _ => charFor_of_nibbleFor, fun _ => nibbleFor_surrogate h⟩

/-- Settles O35: LUT.N2C sets LUT_OUT alone and completes. -/
theorem lutN2cLooksUpTheCodeUnit : Obligations.LutN2cLooksUpTheCodeUnit := fun v s =>
  ⟨_, rfl, lutOut_word_valid (charFor s.params v), rfl⟩

/-- Settles O36: LUT.C2N sets LUT_OUT alone, by whether the search finds a nibble, and completes. -/
theorem lutC2nLooksUpTheNibble : Obligations.LutC2nLooksUpTheNibble := by
  intro c s
  have hread {n : Option Nibble} (h : nibbleFor s.params c = n) :
      (lutOfNibble (nibbleFor s.params c)).word = (lutOfNibble n).word := by rw [h]
  exact ⟨_, rfl, fun v h => (hread h).trans (lutOut_word_some v), fun h => (hread h).trans lutOut_word_none, rfl⟩

end Sys2Proof.Machine
end

section
/-! SUPPORT. The VLQ commands (42_vlq.md): the state each leaves (R117, R118), the fields of VLQ_STAT after one byte in
numbers, and the decoder's registers after a sequence of bytes. -/

namespace Sys2Proof.Machine

/-! ### One command (R117, R118) -/

theorem exec_vlqInit (s : State) :
    exec .vlqInit s = .next { s with vlqAcc := 0#32, vlqStat := ⟨0#8, false, false, false⟩ }.complete := rfl

theorem exec_vlqByte (b : Byte) (s : State) :
    exec (.vlqByte b) s
      = .next { s with vlqAcc := vlqShift s.vlqAcc b, vlqStat := s.vlqStat.feed s.vlqAcc b }.complete := rfl

/-! ### VLQ_STAT after one byte (R118) -/

theorem feed_extra_iff (v : VlqStat) (acc : Word) (b : Byte) :
    (v.feed acc b).extra = true ↔ v.extra = true ∨ v.done = true :=
  Bool.or_eq_true_iff

theorem feed_ovf_iff (v : VlqStat) (acc : Word) (b : Byte) :
    (v.feed acc b).ovf = true ↔ v.ovf = true ∨ acc.extractLsb' 25 7 ≠ 0#7 :=
  Bool.or_eq_true_iff.trans (or_congr_right bne_iff_ne)

theorem feed_done_iff (v : VlqStat) (acc : Word) (b : Byte) : (v.feed acc b).done = true ↔ b.toNat < 128 :=
  vlqTerminates_iff b

/-- COUNT saturates at 255, so its 8 bits hold it. -/
theorem feed_count_toNat (v : VlqStat) (acc : Word) (b : Byte) :
    (v.feed acc b).count.toNat = min (v.count.toNat + 1) 255 :=
  Nat.mod_eq_of_lt (by omega)

theorem vlqStat_word_cleared : VlqStat.word ⟨0#8, false, false, false⟩ = 0#32 := rfl

/-! ### Commands one after another -/

/-- A command more at the end of a list of commands that completes. -/
theorem execAll_concat {is : List Instr} {i : Instr} {s t u : State} (h : execAll is s = .next t)
    (hi : exec i t = .next u) : execAll (is ++ [i]) s = .next u := by
  induction is generalizing s with
  | nil =>
    cases h
    exact execAll_cons hi
  | cons j is ih =>
    obtain ⟨r, hj, _⟩ := exec_completes j s
    rw [execAll_cons hj] at h
    rw [List.cons_append, execAll_cons hj, ih h]

/-- The registers of the decoder after VLQ.INIT and the bytes `bs`, however many they are (R119): COUNT saturates. -/
structure State.HasDecoded (s : State) (bs : List Byte) : Prop where
  acc : s.vlqAcc = (decodeLength32 bs).1
  ovf : s.vlqStat.ovf = (decodeLength32 bs).2
  count : s.vlqStat.count.toNat = min bs.length 255
  done : s.vlqStat.done = bs.getLast?.any vlqTerminates

theorem exec_vlqInit_hasDecoded (s : State) : ∃ t, exec .vlqInit s = .next t ∧ t.HasDecoded [] :=
  ⟨_, exec_vlqInit s, ⟨rfl, rfl, rfl, rfl⟩⟩

theorem State.HasDecoded.exec_vlqByte {s : State} {bs : List Byte} (h : s.HasDecoded bs) (b : Byte) :
    ∃ t, exec (.vlqByte b) s = .next t ∧ t.HasDecoded (bs ++ [b]) := by
  refine ⟨_, Machine.exec_vlqByte b s, ?acc, ?ovf, ?count, ?done⟩
  case acc => simp [decodeLength32_concat, h.acc]
  case ovf => simp [decodeLength32_concat, VlqStat.feed, h.acc, h.ovf]
  case count =>
    rw [complete_vlqStat, feed_count_toNat, h.count, List.length_append, List.length_singleton]
    omega
  case done => simp [VlqStat.feed]

theorem execAll_vlqBytes_hasDecoded (bs : List Byte) (s : State) :
    ∃ t, execAll (.vlqInit :: bs.map .vlqByte) s = .next t ∧ t.HasDecoded bs := by
  induction bs using List.reverseRecOn with
  | nil =>
    obtain ⟨t, hinit, ht⟩ := exec_vlqInit_hasDecoded s
    exact ⟨t, execAll_cons hinit, ht⟩
  | append_singleton bs b ih =>
    obtain ⟨t, hrun, ht⟩ := ih
    obtain ⟨u, hbyte, hu⟩ := ht.exec_vlqByte b
    rw [List.map_append, ← List.cons_append]
    exact ⟨u, execAll_concat hrun hbyte, hu⟩

end Sys2Proof.Machine
end

section
/-! PROOFS. The statements about the VLQ decoder (42_vlq.md), each put together from the laws above. -/

namespace Sys2Proof.Machine

/-- Settles O33: each byte of the sequence keeps `State.HasDecoded`, whose COUNT is exact up to 255 bytes. -/
theorem vlqBytesComputeDecodeLength : Obligations.VlqBytesComputeDecodeLength := by
  intro bs s hlen
  obtain ⟨t, hrun, ht⟩ := execAll_vlqBytes_hasDecoded bs s
  refine ⟨t, hrun, ht.acc, ht.ovf, ht.count.trans (Nat.min_eq_left hlen), ?_⟩
  simp [ht.done, Option.any_eq_true, vlqTerminates]

/-- Settles O32: the accumulation in numbers, and VLQ_STAT field by field. -/
theorem vlqByteAccumulates : Obligations.VlqByteAccumulates := fun b s =>
  ⟨_, exec_vlqByte b s, vlqShift_toNat s.vlqAcc b, feed_extra_iff _ _ b, feed_ovf_iff _ _ b, feed_count_toNat _ _ b,
    feed_done_iff _ s.vlqAcc b, rfl⟩

/-- Settles O31: VLQ.INIT writes the two cleared registers and completes. -/
theorem vlqInitClearsTheDecoder : Obligations.VlqInitClearsTheDecoder := fun s =>
  ⟨_, exec_vlqInit s, rfl, vlqStat_word_cleared, rfl⟩

end Sys2Proof.Machine
end

section
/-! SUPPORT. The CRC-32 unit (43_crc32.md): the printed table against the loop that computes it (R130, R131), the state
each command leaves (R135 to R137), the STREAM range of CRC.BLOCK, and CRC_STATE after a sequence of bytes. -/

namespace Sys2Proof.Machine

/-! ### The printed table (R131), 64 entries at a time -/

/-- The entries of CRC_TABLE from `start` on, each by the loop of R130. -/
def crcTableRows (start count : Nat) : List Word :=
  (List.range' start count).map (fun n => crcTable (BitVec.ofNat 8 n))

theorem crcTableRows_append (start m n : Nat) :
    crcTableRows start m ++ crcTableRows (start + m) n = crcTableRows start (m + n) := by
  simp only [crcTableRows, ← List.map_append, List.range'_append_1]

theorem crcTableRows_getElem? {n count : Nat} (h : n < count) :
    (crcTableRows 0 count)[n]? = some (crcTable (BitVec.ofNat 8 n)) := by
  simp [crcTableRows, h]

theorem crcListed0_eq : crcListed0 = crcTableRows 0 64 := by decide
theorem crcListed1_eq : crcListed1 = crcTableRows 64 64 := by decide
theorem crcListed2_eq : crcListed2 = crcTableRows 128 64 := by decide
theorem crcListed3_eq : crcListed3 = crcTableRows 192 64 := by decide

theorem crcListed_eq : crcListed = crcTableRows 0 256 := by
  rw [crcListed, crcListed0_eq, crcListed1_eq, crcListed2_eq, crcListed3_eq, crcTableRows_append 0 64,
    crcTableRows_append 0 128, crcTableRows_append 0 192]

/-! ### One command (R135 to R137) -/

theorem exec_crcInit (s : State) : exec .crcInit s = .next { s with crcState := 0xFFFFFFFF#32 }.complete := rfl

theorem exec_crcByte (b : Byte) (s : State) :
    exec (.crcByte b) s = .next { s with crcState := crcStep s.crcState b }.complete := rfl

theorem exec_crcBlock (s : State) : exec .crcBlock s
    = .next (if s.streamLen.toNat < s.crcStart.toNat + s.crcLen.toNat then s.raise .illegal
        else { s with crcState := crcFeed s.crcState s.crcRange }).complete := rfl

theorem exec_crcBlock_outside {s : State} (h : s.streamLen.toNat < s.crcStart.toNat + s.crcLen.toNat) :
    exec .crcBlock s = .next (s.raise .illegal).complete := by
  rw [exec_crcBlock, if_pos h]

theorem exec_crcBlock_inside {s : State} (h : s.crcStart.toNat + s.crcLen.toNat ≤ s.streamLen.toNat) :
    exec .crcBlock s = .next { s with crcState := crcFeed s.crcState s.crcRange }.complete := by
  rw [exec_crcBlock, if_neg (Nat.not_lt.mpr h)]

theorem readReg_crcResult (s : State) : s.readReg .crcResult = ~~~ s.crcState := rfl

theorem readReg_crcResult_allOnes {s : State} (h : s.crcState = 0xFFFFFFFF#32) : s.readReg .crcResult = 0#32 := by
  rw [readReg_crcResult, h]
  rfl

/-! ### The range of CRC.BLOCK (R29, R137) -/

theorem crcRange_length (s : State) : s.crcRange.length = s.crcLen.toNat := by
  simp [State.crcRange, byteRange]

theorem crcRange_getElem (s : State) {j : Nat} (h : j < s.crcRange.length) :
    s.crcRange[j] = s.mem.streamAt (s.crcStart.toNat + j) := by
  simp [State.crcRange, byteRange]

theorem crcRange_empty {s : State} (h : s.crcLen = 0#32) : s.crcRange = [] := by
  rw [← List.length_eq_zero_iff, crcRange_length, h, BitVec.toNat_ofNat, Nat.zero_mod]

/-! ### CRC.BYTE after CRC.BYTE (R133) -/

theorem execAll_crcBytes (bs : List Byte) (s : State) :
    ∃ t, execAll (bs.map .crcByte) s = .next t ∧ t.crcState = crcFeed s.crcState bs := by
  induction bs generalizing s with
  | nil => exact ⟨s, execAll_nil s, rfl⟩
  | cons b bs ih =>
    obtain ⟨t, hrun, ht⟩ := ih { s with crcState := crcStep s.crcState b }.complete
    exact ⟨t, (execAll_cons (exec_crcByte b s)).trans hrun, ht⟩

end Sys2Proof.Machine
end

section
/-! PROOFS. The statements about the CRC-32 unit (43_crc32.md), each put together from the laws above. -/

namespace Sys2Proof.Machine

/-- Settles O29: the two branches of CRC.BLOCK; the bytes fed are those of `State.crcRange`, none when CRC_LEN is 0. -/
theorem crcBlockFeedsTheRange : Obligations.CrcBlockFeedsTheRange := by
  intro s
  refine ⟨exec_crcBlock_outside, fun hfits => ?inside⟩
  case inside =>
    refine ⟨s.crcRange, crcRange_length s, fun j => crcRange_getElem s, exec_crcBlock_inside hfits, fun hempty => ?_⟩
    rw [exec_crcBlock_inside hfits, crcRange_empty hempty]
    rfl

/-- Settles O30: CRC.INIT loads the register `crc32` starts from, each CRC.BYTE feeds one byte, and CRC_RESULT reads the
complement. -/
theorem crcBytesComputeCrc32 : Obligations.CrcBytesComputeCrc32 := by
  intro bs s
  obtain ⟨t, hrun, ht⟩ := execAll_crcBytes bs { s with crcState := 0xFFFFFFFF#32 }.complete
  exact ⟨t, (execAll_cons (exec_crcInit s)).trans hrun, by rw [readReg_crcResult, ht, complete_crcState, crc32]⟩

/-- Settles O26: the printed list is the computed one, 64 entries at a time. -/
theorem crcTableHasTheListedContents : Obligations.CrcTableHasTheListedContents := by
  intro n hn
  rw [crcListed_eq, crcTableRows_getElem? hn]

/-- Settles O27: CRC.INIT writes CRC_STATE and completes; CRC_RESULT reads the complement of all ones. -/
theorem crcInitLoadsAllOnes : Obligations.CrcInitLoadsAllOnes := fun s =>
  ⟨_, exec_crcInit s, readReg_crcResult_allOnes rfl, rfl⟩

/-- Settles O28: CRC.BYTE writes the step of R132 to CRC_STATE and completes. -/
theorem crcByteFeedsOneByte : Obligations.CrcByteFeedsOneByte := exec_crcByte

end Sys2Proof.Machine
end

section
/-! SUPPORT. The frame parser (44_frame_parser.md): the outcome of a parse by its first bytes (R152, R153), the words of
a decode attempt in stream offsets (R154 to R161), when TRUNC is 1, and which words read the flags byte (R164). -/

namespace Sys2Proof.Machine

/-! ### The outcome by the first bytes (R152, R153) -/

theorem parseFrame_past_end {bytes : Nat → Byte} {o len : Nat} (h : len ≤ o) :
    parseFrame bytes o len = bareRecord .noMessage := if_pos h

theorem signatureAt_iff {bytes : Nat → Byte} {o n : Nat} :
    signatureAt bytes o n = true ↔ 2 ≤ n ∧ bytes o = 0x44#8 ∧ bytes (o + 1) = 0x00#8 := by
  simp [signatureAt, and_assoc]

theorem parseFrame_of_signature {bytes : Nat → Byte} {o len : Nat} (h2 : o + 2 ≤ len) (h0 : bytes o = 0x44#8)
    (h1 : bytes (o + 1) = 0x00#8) : parseFrame bytes o len = frameRecord bytes o (len - o) := by
  rw [parseFrame, if_neg (by omega), if_pos (signatureAt_iff.mpr ⟨by omega, h0, h1⟩)]

theorem parseFrame_of_noSignature {bytes : Nat → Byte} {o len : Nat} (ho : o < len)
    (h : len < o + 2 ∨ bytes o ≠ 0x44#8 ∨ bytes (o + 1) ≠ 0x00#8) :
    parseFrame bytes o len = bareRecord .protocolMismatch := by
  rw [parseFrame, if_neg (by omega), if_neg]
  intro hs
  obtain ⟨h2, h0, h1⟩ := signatureAt_iff.mp hs
  rcases h with hshort | hne | hne
  · omega
  · exact hne h0
  · exact hne h1

/-- A record of KIND FRAME is a decode attempt. -/
theorem parseFrame_of_kind {bytes : Nat → Byte} {o len : Nat}
    (h : (parseFrame bytes o len).info.extractLsb' 0 2 = 0#2) :
    parseFrame bytes o len = frameRecord bytes o (len - o) := by
  rcases parseFrame_cases bytes o len with ⟨_, hp⟩ | ⟨_, _, hp⟩ | ⟨_, _, hp⟩
  · rw [hp] at h; cases h
  · rw [hp] at h; cases h
  · exact hp

/-! ### INFO of a decode attempt (R161) -/

theorem frameRecord_kind (bytes : Nat → Byte) (o n : Nat) : (frameRecord bytes o n).info.extractLsb' 0 2 = 0#2 :=
  infoWord_kind _ _ _ _

theorem frameRecord_lenOvf (bytes : Nat → Byte) (o n : Nat) :
    (frameRecord bytes o n).lenOvf = (frameLength bytes o n).2 := infoWord_lenOvf _ _ _ _

/-- INFO of a decode attempt as the sum of its flags: KIND = FRAME and the reserved bits are 0. -/
theorem infoWord_frame (valid trunc ovf : Bool) :
    infoWord .frame valid trunc ovf
      = (if valid then 4#32 else 0#32) ||| (if trunc then 8#32 else 0#32) ||| (if ovf then 16#32 else 0#32) := by
  cases valid <;> cases trunc <;> cases ovf <;> rfl

/-! ### TRUNC and CHECKSUM_VALID (R154, R157, R158, R160) -/

theorem frameTrunc_iff (bytes : Nat → Byte) (o n : Nat) :
    frameTrunc bytes o n = true ↔ n < 7 ∨ (lengthField bytes o n).2 = false ∨ n < payloadEnd bytes o n := by
  rw [← Bool.not_eq_false, frameTrunc_false_iff]
  simp [imp_iff_not_or]

theorem frameValid_of_trunc {bytes : Nat → Byte} {o n : Nat} (h : frameTrunc bytes o n = true) :
    frameValid bytes o n = false := by simp [frameValid, h]

theorem frameValid_of_lenOvf {bytes : Nat → Byte} {o n : Nat} (h : (frameLength bytes o n).2 = true) :
    frameValid bytes o n = false := by simp [frameValid, h]

/-! ### The length field (R157) -/

/-- A length field whose bytes all go on is not terminated, and runs to the end of the stream. -/
theorem lengthField_unterminated {bytes : Nat → Byte} {o len : Nat}
    (h : ∀ j, o + 7 ≤ j → j < len → (bytes j).getLsbD 7 = true) :
    lengthField bytes o (len - o) = (len - o - 7, false) :=
  vlqScan_unterminated fun j hj => by rw [vlqTerminates, h _ (by omega) (by omega)]; rfl

/-- A length field of `k` bytes whose last one, and no other, terminates it. -/
theorem lengthField_terminated {bytes : Nat → Byte} {o len k : Nat} (hk : k ≤ len - (o + 7)) (hpos : 1 ≤ k)
    (hc : ∀ j, j + 1 < k → (bytes (o + 7 + j)).getLsbD 7 = true) (ht : (bytes (o + 7 + (k - 1))).getLsbD 7 = false) :
    lengthField bytes o (len - o) = (k, true) := by
  have hscan : vlqScan bytes (o + 7) (len - o - 7) = (k - 1 + 1, true) :=
    vlqScan_terminated (by omega) (fun j hj => by rw [vlqTerminates, hc j (by omega)]; rfl)
      (by rw [vlqTerminates, ht]; rfl)
  rwa [Nat.sub_add_cancel hpos] at hscan

theorem lengthField_le (bytes : Nat → Byte) (o n : Nat) : (lengthField bytes o n).1 ≤ n - 7 := vlqScan_le _ _ _

theorem frameRecord_vlqCount_toNat (bytes : Nat → Byte) (o : Nat) {n : Nat} (hn : n < 4294967296) :
    (frameRecord bytes o n).vlqCount.toNat = (lengthField bytes o n).1 :=
  Nat.mod_eq_of_lt (by have := lengthField_le bytes o n; omega)

/-! ### In stream offsets -/

theorem frameByte_eq (bytes : Nat → Byte) (o len j : Nat) :
    frameByte bytes o (len - o) j = if o + j < len then bytes (o + j) else 0x00#8 := by
  simp only [frameByte, Nat.lt_sub_iff_add_lt']

theorem framePayload_eq (bytes : Nat → Byte) {o len : Nat} (h : o ≤ len) :
    framePayload bytes o (len - o)
      = byteRange bytes (min (o + payloadStart bytes o (len - o)) len)
          (min (o + payloadEnd bytes o (len - o)) len - min (o + payloadStart bytes o (len - o)) len) := by
  rw [framePayload]
  congr 1 <;> omega

theorem frameTrunc_eq (bytes : Nat → Byte) {o len : Nat} (h : o ≤ len) :
    frameTrunc bytes o (len - o)
      = (decide (len < o + 7) || !(lengthField bytes o (len - o)).2
          || decide (len < o + payloadEnd bytes o (len - o))) := by
  rw [Bool.eq_iff_iff, frameTrunc_iff, Nat.sub_lt_iff_lt_add' h, Nat.sub_lt_iff_lt_add' h]
  simp [or_assoc]

/-! ### Only TYPE reads the flags byte (R164) -/

theorem byteRange_congr {bytes bytes' : Nat → Byte} {start count : Nat}
    (h : ∀ j, start ≤ j → j < start + count → bytes' j = bytes j) :
    byteRange bytes' start count = byteRange bytes start count :=
  List.map_congr_left fun j hj => h _ (by omega) (by have := List.mem_range.mp hj; omega)

section
variable {bytes bytes' : Nat → Byte} {o : Nat} (h : ∀ j, j ≠ o + 6 → bytes' j = bytes j)
include h

theorem signatureAt_congr (n : Nat) : signatureAt bytes' o n = signatureAt bytes o n := by
  rw [signatureAt, signatureAt, h o (by omega), h (o + 1) (by omega)]

theorem storedChecksum_congr (n : Nat) : storedChecksum bytes' o n = storedChecksum bytes o n := by
  have hbyte {j : Nat} (hj : j ≠ 6) : frameByte bytes' o n j = frameByte bytes o n j := by
    rw [frameByte, frameByte, h (o + j) (by omega)]
  simp (disch := omega) only [storedChecksum, hbyte]

theorem lengthField_congr (n : Nat) :
    lengthField bytes' o n = lengthField bytes o n := vlqScan_congr (fun j hj => h j (by omega)) _

theorem frameLength_congr (n : Nat) : frameLength bytes' o n = frameLength bytes o n := by
  rw [frameLength, frameLength, lengthField_congr h, byteRange_congr fun j hj _ => h j (by omega)]

theorem payloadStart_congr (n : Nat) : payloadStart bytes' o n = payloadStart bytes o n := by
  rw [payloadStart, payloadStart, lengthField_congr h]

theorem payloadEnd_congr (n : Nat) : payloadEnd bytes' o n = payloadEnd bytes o n := by
  rw [payloadEnd, payloadEnd, payloadStart_congr h, frameLength_congr h]

/-- The payload starts past the flags byte, or it is empty because nothing is left there. -/
theorem framePayload_congr (n : Nat) : framePayload bytes' o n = framePayload bytes o n := by
  have hstart : 7 ≤ payloadStart bytes o n := Nat.le_add_right 7 _
  rw [framePayload, framePayload, payloadStart_congr h, payloadEnd_congr h]
  exact byteRange_congr fun j hlo hhi => h j (by omega)

theorem frameTrunc_congr (n : Nat) : frameTrunc bytes' o n = frameTrunc bytes o n := by
  rw [frameTrunc, frameTrunc, lengthField_congr h, payloadEnd_congr h]

theorem frameValid_congr (n : Nat) : frameValid bytes' o n = frameValid bytes o n := by
  rw [frameValid, frameValid, frameTrunc_congr h, frameLength_congr h, framePayload_congr h, storedChecksum_congr h]

theorem frameRecord_congr (n : Nat) :
    frameRecord bytes' o n = { frameRecord bytes o n with dataType := (frameRecord bytes' o n).dataType } := by
  simp only [frameRecord, storedChecksum_congr h, lengthField_congr h, frameLength_congr h, payloadStart_congr h,
    payloadEnd_congr h, framePayload_congr h, frameTrunc_congr h, frameValid_congr h]

end

/-! ### FRAME.PARSE (R162) -/

theorem exec_frameParse (off : BitVec 24) (s : State) :
    exec (.frameParse off) s
      = .next { s with fr := parseFrame s.mem.streamAt off.toNat s.streamLen.toNat }.complete := rfl

end Sys2Proof.Machine
end

section
/-! PROOFS. The statements about the frame parser (44_frame_parser.md), each put together from the laws above. -/

namespace Sys2Proof.Machine

/-- Settles O39: the hypotheses pin the length field, and every word of the record is a word of `frameRecord` in stream
offsets. -/
theorem parseOfADecodeAttempt : Obligations.ParseOfADecodeAttempt := by
  intro bytes o len k term h2 h0 h1 hk hcont hterm hrest rd decoded start stop trunc stored computed valid
  have ho : o ≤ len := by omega
  have hfield : lengthField bytes o (len - o) = (k, term) := by
    cases term with
    | true =>
      obtain ⟨hpos, hlast⟩ := hterm rfl
      exact lengthField_terminated hk hpos (fun j hj => hcont j (by omega) (.inl hj)) hlast
    | false =>
      have hall : k = len - (o + 7) := hrest rfl
      rw [lengthField_unterminated, hall, Nat.sub_sub]
      intro j hlo hhi
      have := hcont (j - (o + 7)) (by omega) (.inr rfl)
      rwa [Nat.add_sub_cancel' hlo] at this
  have hlength : frameLength bytes o (len - o) = decoded := by rw [frameLength, hfield]; rfl
  have hstart : o + payloadStart bytes o (len - o) = start := by rw [payloadStart, hfield, ← Nat.add_assoc]
  have hstop : o + payloadEnd bytes o (len - o) = stop := by rw [payloadEnd, hlength, ← Nat.add_assoc, hstart]
  have htrunc : frameTrunc bytes o (len - o) = trunc := by rw [frameTrunc_eq bytes ho, hfield, hstop]
  have hstored : storedChecksum bytes o (len - o) = stored := by simp only [storedChecksum, frameByte_eq]; rfl
  have hcomputed : crc32 (framePayload bytes o (len - o)) = computed := by
    rw [framePayload_eq bytes ho, hstart, hstop]; rfl
  have hvalid : frameValid bytes o (len - o) = valid := by
    rw [frameValid, htrunc, hlength, hcomputed, hstored]
  rw [parseFrame_of_signature h2 h0 h1, frameRecord, infoWord_frame, hvalid, htrunc, hlength, hstored, hcomputed,
    frameByte_eq, hstart, hstop, hfield]

/-- Settles O40: each of the three ways to pass the end sets TRUNC, an overflow sets LEN_OVF, and either clears
CHECKSUM_VALID. -/
theorem truncatedOrOverflowedFrameIsNeverValid : Obligations.TruncatedOrOverflowedFrameIsNeverValid := by
  intro bytes o len h2 h0 h1
  rw [parseFrame_of_signature h2 h0 h1]
  refine ⟨fun hpasses hlen => ?truncated, fun hdecoded hlen => ?overflowed⟩
  case truncated =>
    rw [frameRecord_vlqCount_toNat bytes o (by omega)] at hpasses
    have htrunc : frameTrunc bytes o (len - o) = true := by
      rw [frameTrunc_iff]
      rcases hpasses with hheader | hcont | hpayload
      · exact .inl (by omega)
      · exact .inr (.inl (by rw [lengthField_unterminated hcont]))
      · refine .inr (.inr (Nat.sub_lt_left_of_lt_add (by omega) ?_))
        rwa [payloadEnd, payloadStart, ← Nat.add_assoc, ← Nat.add_assoc]
    exact ⟨frameRecord_kind _ _ _, (frameRecord_trunc _ _ _).trans htrunc,
      (frameRecord_checksumValid _ _ _).trans (frameValid_of_trunc htrunc)⟩
  case overflowed =>
    rw [frameRecord_vlqCount_toNat bytes o (by omega)] at hdecoded
    have hovf : (frameLength bytes o (len - o)).2 = true := hdecoded
    exact ⟨frameRecord_kind _ _ _, (frameRecord_lenOvf _ _ _).trans hovf,
      (frameRecord_checksumValid _ _ _).trans (frameValid_of_lenOvf hovf)⟩

/-- Settles O41: the consumed length of a valid frame is the end of its payload, and the flags that CHECKSUM_VALID = 1
decides leave INFO no freedom. -/
theorem validFrameLiesWithinTheStream : Obligations.ValidFrameLiesWithinTheStream := by
  intro bytes o len hlen h
  obtain ⟨hc, hmin, hend, ho⟩ := consumed_of_valid hlen h
  obtain ⟨_, hp, htrunc, hovf, _⟩ := parseFrame_valid h
  have hvalid : frameValid bytes o (len - o) = true := by rw [← frameRecord_checksumValid, ← hp]; exact h
  have hdata : (parseFrame bytes o len).dataEnd.toNat = o + payloadEnd bytes o (len - o) := by
    rw [hp]
    exact Nat.mod_eq_of_lt (by omega)
  have hinfo : (parseFrame bytes o len).info = 4#32 := by
    rw [hp, frameRecord, hvalid, htrunc, hovf]
    rfl
  rw [← hc] at hmin hend hdata
  exact ⟨hmin, Nat.add_le_of_le_sub' ho.le hend, hdata, hinfo⟩

/-- Settles O38: the three outcomes by the first bytes. -/
theorem parseOfNoFrame : Obligations.ParseOfNoFrame := fun bytes o len =>
  ⟨parseFrame_past_end, parseFrame_of_noSignature, fun h2 h0 h1 =>
    parseFrame_of_signature h2 h0 h1 ▸ frameRecord_kind bytes o (len - o)⟩

/-- Settles O42: neither the signature nor any word of a decode attempt but TYPE reads the byte at relative offset 6. -/
theorem parsePassesTheFlagsByteThrough : Obligations.ParsePassesTheFlagsByteThrough := by
  intro bytes bytes' o len h
  refine ⟨?others, fun hkind hflags => ?type⟩
  case others =>
    unfold parseFrame
    rw [signatureAt_congr h]
    split
    case isTrue => rfl
    case isFalse =>
      split
      case isTrue => exact frameRecord_congr h _
      case isFalse => rfl
  case type =>
    have hbyte : frameByte bytes' o (len - o) 6 = bytes' (o + 6) := by rw [frameByte_eq, if_pos hflags]
    rw [parseFrame_of_kind hkind, frameRecord, hbyte]

/-- Settles O43: FRAME.PARSE sets the FR_ registers alone and completes. -/
theorem frameParseFillsTheFrRegisters : Obligations.FrameParseFillsTheFrRegisters := fun off s =>
  ⟨exec_frameParse off s, fun hpast => congrArg Record.info (parseFrame_past_end hpast)⟩

end Sys2Proof.Machine
end

section
/-! SUPPORT. The scanner (45_scanner.md): what SCAN and FILTER store, the bytes of a retained run, and the scan of a
cover text. -/

namespace Sys2Proof.Machine

/-! ### The carrier (R46, R176) -/

theorem getElem_carrierUnits (s : State) {j : Nat} (h : j < s.carrierUnits.length) :
    s.carrierUnits[j] = s.mem.carrierAt j := by
  simp [State.carrierUnits]

/-- Units given by their number and by the element each of them is are the carrier's. -/
theorem eq_carrierUnits {s : State} {units : List CodeUnit} (hlen : units.length = s.carrierLen.toNat)
    (hunit : ∀ j (h : j < units.length), units[j] = s.mem.carrierAt j) : units = s.carrierUnits :=
  List.ext_getElem (hlen.trans (carrierUnits_length s).symm) fun j h h' =>
    (hunit j h).trans (getElem_carrierUnits s h').symm

/-! ### What SCAN and FILTER store (R176, R178) -/

/-- SCAN as the operations it is made of. -/
theorem exec_scan (s : State) : exec .scan s
    = .next ((s.putCover s.scanOut.cover).putStream s.scanOut.stream s.scanOut.runs).restartExtractor.complete := rfl

theorem toNat_ofNat_cover_length (s : State) :
    (BitVec.ofNat 32 s.scanOut.cover.length).toNat = s.scanOut.cover.length := by
  obtain ⟨_, _, _, hlt, _⟩ := scanOut_sizes s
  exact Nat.mod_eq_of_lt hlt

/-- A command that writes only DONE and XSTATE in STATUS raises no error. -/
theorem errorsSame_of_status {s t : State} (h : t.status = { s.status with done := true, xstate := .start }) :
    ErrorsSame s t := by
  simp [ErrorsSame, h]

/-- The cover text that SCAN and FILTER store is read back. -/
theorem coverAt_putCover (s : State) {cover : List CodeUnit} {k : Nat} (h : k < cover.length) :
    (s.putCover cover).mem.coverAt k = cover[k] := by
  simpa using coverAt_write_inside (m := s.mem) (start := 0) h

/-- The stream that SCAN stores is read back. -/
theorem streamAt_putStream (s : State) {stream : List Byte} (runs : List Nat) {k : Nat} (h : k < stream.length) :
    (s.putStream stream runs).mem.streamAt k = stream[k] := by
  have hread := streamAt_write_inside (m := s.mem) (start := 0) h
  rwa [Nat.zero_add] at hread

/-- Storing a cover text from index 0 on changes COVER alone, below its length. -/
theorem putCover_same (s : State) (cover : List CodeUnit) :
    MemorySameOutside (fun b k => b = .cover ∧ k < cover.length) s.mem (s.putCover cover).mem :=
  memorySame_weaken (cover_write_same s.mem 0 cover) fun _ _ ⟨hb, _, hk⟩ => ⟨hb, by omega⟩

/-- Storing a stream and its run lengths from index 0 on changes STREAM and RUNLEN alone, below their lengths. -/
theorem putStream_same (s : State) (stream : List Byte) (runs : List Nat) :
    MemorySameOutside (fun b k => b = .stream ∧ k < stream.length ∨ b = .runlen ∧ k < runs.length) s.mem
      (s.putStream stream runs).mem := by
  have hstream := stream_write_same s.mem 0 stream
  have hruns := runlen_write_same (s.writeStream 0 stream).mem 0 (runs.map (BitVec.ofNat 32))
  refine memorySame_weaken (memorySame_trans hstream hruns) fun b k hstored => ?_
  rcases hstored with ⟨hb, _, hk⟩ | ⟨hb, _, hk⟩
  · exact .inl ⟨hb, by omega⟩
  · rw [List.length_map] at hk
    exact .inr ⟨hb, by omega⟩

/-! ### The bytes of a retained run (R173) -/

theorem nibbleOf_of_nibbleFor {p : Params} {c : CodeUnit} {v : Nibble} (h : nibbleFor p c = some v) :
    nibbleOf p c = v := by
  rw [nibbleOf, h]
  rfl

/-- A unit of the alphabet stands for a nibble, which is the one a scan decodes it to. -/
theorem nibbleFor_of_isAlpha {p : Params} {c : CodeUnit} (h : isAlpha p c = true) :
    nibbleFor p c = some (nibbleOf p c) := by
  obtain ⟨v, hv⟩ := Option.isSome_iff_exists.mp h
  rw [hv, nibbleOf_of_nibbleFor hv]

/-- Two nibbles put into a byte, the high one first, in numbers. -/
theorem toNat_byte_of_nibbles (hi lo : Nibble) :
    (hi.setWidth 8 <<< 4 ||| lo.setWidth 8 : Byte).toNat = 16 * hi.toNat + lo.toNat := by
  have hhi := hi.isLt
  have hlo := lo.isLt
  have hshift : hi.toNat <<< 4 % 2 ^ 8 = hi.toNat <<< 4 := by
    rw [Nat.shiftLeft_eq]
    exact Nat.mod_eq_of_lt (by omega)
  rw [BitVec.toNat_or, BitVec.toNat_shiftLeft, BitVec.toNat_setWidth_of_le (by decide),
    BitVec.toNat_setWidth_of_le (by decide), hshift, ← Nat.shiftLeft_add_eq_or_of_lt hlo, Nat.shiftLeft_eq]
  omega

/-- Byte `k` of a run's bytes is that of its units `2k` and `2k + 1`. -/
theorem getElem?_pairBytes (p : Params) {u v : CodeUnit} {run : List CodeUnit} {k : Nat}
    (hu : run[2 * k]? = some u) (hv : run[2 * k + 1]? = some v) :
    (pairBytes p run)[k]? = some ((nibbleOf p u).setWidth 8 <<< 4 ||| (nibbleOf p v).setWidth 8) := by
  induction run using pairBytes.induct generalizing k with
  | case1 a b rest ih =>
    cases k with
    | zero =>
      obtain rfl : a = u := by simpa using hu
      obtain rfl : b = v := by simpa using hv
      rfl
    | succ k => exact ih hu hv
  | case2 run hshort =>
    have hlen : 2 * k + 1 < run.length := (List.getElem?_eq_some_iff.mp hv).1
    match run, hlen with
    | a :: b :: rest, _ => exact absurd rfl (hshort a b rest)

/-- The bytes of a run of alphabet units: each is a pair of units' nibbles, the high one first. -/
theorem pairBytes_nibbles (p : Params) {run : List CodeUnit} (halpha : ∀ c ∈ run, isAlpha p c = true) {k : Nat}
    (hk : k < (pairBytes p run).length) : ∃ hi lo : Nibble, ∃ u v : CodeUnit, run[2 * k]? = some u
      ∧ run[2 * k + 1]? = some v ∧ nibbleFor p u = some hi ∧ nibbleFor p v = some lo
      ∧ (pairBytes p run)[k].toNat = 16 * hi.toNat + lo.toNat := by
  have hpair : 2 * k + 1 < run.length := by
    rw [pairBytes_length] at hk
    omega
  have hu : run[2 * k]? = some run[2 * k] := List.getElem?_eq_getElem (by omega)
  have hv : run[2 * k + 1]? = some run[2 * k + 1] := List.getElem?_eq_getElem hpair
  refine ⟨_, _, _, _, hu, hv, nibbleFor_of_isAlpha (halpha _ (List.getElem_mem _)),
    nibbleFor_of_isAlpha (halpha _ (List.getElem_mem _)), ?_⟩
  obtain ⟨_, hbyte⟩ := List.getElem?_eq_some_iff.mp (getElem?_pairBytes p hu hv)
  rw [hbyte, toNat_byte_of_nibbles]

/-! ### The scan of a cover text (R175, R180) -/

/-- A carrier without a unit of the alphabet is all cover text (R175). -/
theorem scanUnits_nonAlpha (p : Params) {units : List CodeUnit} (h : ∀ c ∈ units, isAlpha p c = false) :
    scanUnits p units = ⟨units, [], []⟩ := by
  induction units with
  | nil => rfl
  | cons c rest ih =>
    rw [scanUnits_stop p rest (h c List.mem_cons_self), ih fun d hd => h d (List.mem_cons_of_mem c hd)]
    rfl

/-- What one run leaves in the cover text, if anything, is a run too short to be retained. -/
theorem scanUnits_runOut_cover (p : Params) {run : List CodeUnit} (h : ∀ c ∈ run, isAlpha p c = true) :
    scanUnits p (runOut p run).cover = ⟨(runOut p run).cover, [], []⟩ := by
  by_cases hlen : run.length < 16
  · rw [runOut_noise p hlen, scanUnits_run p h, runOut_noise p hlen]
  · rw [runOut_retained p (Nat.le_of_not_lt hlen)]
    rfl

/-- The cover text keeps every unit outside the alphabet, so that what is left of two runs never joins (R180). -/
theorem scanUnits_scanFrom_cover (p : Params) (units run : List CodeUnit) (h : ∀ c ∈ run, isAlpha p c = true) :
    scanUnits p (scanFrom p run units).cover = ⟨(scanFrom p run units).cover, [], []⟩ := by
  induction units generalizing run with
  | nil => exact scanUnits_runOut_cover p h
  | cons c rest ih =>
    cases hc : isAlpha p c with
    | true =>
      rw [scanFrom, if_pos hc]
      refine ih _ fun d hd => ?_
      rcases List.mem_append.mp hd with hd | hd
      · exact h d hd
      · rwa [List.mem_singleton.mp hd]
    | false =>
      have hrest : scanUnits p (scanUnits p rest).cover = ⟨(scanUnits p rest).cover, [], []⟩ := ih [] (by simp)
      have hcut : scanUnits p ((runOut p run).cover ++ c :: (scanUnits p rest).cover)
          = (scanUnits p (runOut p run).cover).append (scanUnits p (c :: (scanUnits p rest).cover)) :=
        scanFrom_cut p [] _ _ fun d hd => by cases hd; exact hc
      rw [scanFrom_stop p run rest hc]
      refine hcut.trans ?_
      rw [scanUnits_runOut_cover p h, scanUnits_stop p _ hc, hrest]
      rfl

end Sys2Proof.Machine
end

section
/-! PROOFS. The statements about the scanner (45_scanner.md), each put together from the laws above. -/

namespace Sys2Proof.Machine

/-- Settles O44: the three outputs by what a write stores, the frame by what each of the two stores leaves. -/
theorem scanWritesItsThreeOutputs : Obligations.ScanWritesItsThreeOutputs := by
  intro s units hlen hunit out
  obtain rfl := eq_carrierUnits hlen hunit
  obtain ⟨t, hexec, hstream, hcount, hentry⟩ := execScan_queue s
  refine ⟨t, hexec, ?_⟩
  rw [exec_scan, Host.Outcome.next.injEq] at hexec
  subst hexec
  refine ⟨toNat_ofNat_cover_length s, hstream, hcount, fun k h => ?cover, fun k h => ?stream, hentry,
    by simp, by simp, by simp, by simp, by simp, by simp [UnitsSame], by simp [OutsideSame], by simp, ?memory⟩
  case cover => exact coverAt_putCover s h
  case stream => exact streamAt_putStream (s.putCover out.cover) out.runs h
  case memory => exact memorySame_trans (putCover_same s out.cover) (putStream_same _ out.stream out.runs)

/-- Settles O45: the cover text by what a write stores, the frame by what that store leaves. -/
theorem filterWritesTheCoverTextOnly : Obligations.FilterWritesTheCoverTextOnly := by
  intro s units hlen hunit cover
  obtain rfl := eq_carrierUnits hlen hunit
  refine ⟨_, rfl, toNat_ofNat_cover_length s, by simp, by simp, fun k h => ?cover,
    by simp, by simp, by simp, by simp, by simp, by simp [UnitsSame], by simp [OutsideSame], by simp, ?memory⟩
  case cover => exact coverAt_putCover s h
  case memory => exact putCover_same s cover

/-- Settles O46, by what a scan yields around one maximal run, and by the bytes of its pairs. -/
theorem scanTreatsEachMaximalRunByItsLength : Obligations.ScanTreatsEachMaximalRunByItsLength := by
  refine fun p => ⟨fun units => scanUnits_nonAlpha p, fun before run after _ halpha hbefore hafter => ?_⟩
  have haround := scanUnits_around p halpha hbefore hafter
  refine ⟨fun hshort => ?_, fun hlong => ⟨pairBytes p run, pairBytes_length p run, fun k hk =>
    pairBytes_nibbles p halpha hk, ?_⟩⟩
  · rw [haround, runOut_noise p hshort]
    simp only [ScanOut.append, List.append_nil]
  · rw [haround, runOut_retained p hlong]
    simp only [ScanOut.append, List.append_nil]

/-- Settles O47, from what SCAN and FILTER store (O44, O45) and the sizes of a scan's outputs. -/
theorem scanFitsItsBuffers : Obligations.ScanFitsItsBuffers := by
  intro s hfits i hi
  obtain ⟨hcover, hstream, hruns, _⟩ := scanOut_sizes s
  have hmaxStream : s.carrierLen.toNat / 2 ≤ maxStream s.params := Nat.div_le_div_right hfits
  have hmaxRuns : s.carrierLen.toNat / 16 ≤ maxRuns s.params := Nat.div_le_div_right hfits
  have hunits : ∀ j (h : j < s.carrierUnits.length), s.carrierUnits[j] = s.mem.carrierAt j := fun _ =>
    getElem_carrierUnits s
  rcases List.mem_pair.mp hi with rfl | rfl
  case inl =>
    obtain ⟨t, hexec, hcoverLen, hstreamLen, hrunCount, _, _, _, _, _, _, hstatus, _, _, _, _, hmem⟩ :=
      scanWritesItsThreeOutputs s s.carrierUnits (carrierUnits_length s) hunits
    rw [← hcoverLen, ← hstreamLen, ← hrunCount] at hmem
    rw [State.scanOut, ← hcoverLen] at hcover
    rw [State.scanOut, ← hstreamLen] at hstream
    rw [State.scanOut, ← hrunCount] at hruns
    exact ⟨t, hexec, hcover, hcover.trans hfits, hstream, hstream.trans hmaxStream, hruns, hruns.trans hmaxRuns,
      errorsSame_of_status hstatus, hmem⟩
  case inr =>
    obtain ⟨t, hexec, hcoverLen, hstreamLen, hrunCount, _, _, _, _, hstatus, _, _, _, _, hmem⟩ :=
      filterWritesTheCoverTextOnly s s.carrierUnits (carrierUnits_length s) hunits
    rw [← hcoverLen] at hmem
    rw [State.scanOut, ← hcoverLen] at hcover
    exact ⟨t, hexec, hcover, hcover.trans hfits, hstreamLen ▸ Nat.zero_le _, hstreamLen ▸ Nat.zero_le _,
      hrunCount ▸ Nat.zero_le _, hrunCount ▸ Nat.zero_le _, errorsSame_of_status hstatus,
      memorySame_weaken hmem fun _ _ => .inl⟩

/-- Settles O49, from the scan of what is left of a scan begun in an empty run. -/
theorem filterIsIdempotent : Obligations.FilterIsIdempotent := fun p units =>
  scanUnits_scanFrom_cover p units [] (by simp)

end Sys2Proof.Machine
end

section
/-! SUPPORT. The extractor (46_extractor.md): one iteration as an equation per case, what an iteration that peels a frame
leaves, XTR.RUN as iterations of the body, and how far a loop of iterations has come. -/

namespace Sys2Proof.Machine

/-! ### The three commands as the operations they are made of -/

theorem exec_xtrReset (s : State) : exec .xtrReset s = .next s.restartExtractor.complete := rfl

theorem exec_xtrStep (s : State) : exec .xtrStep s = .next s.xtrIterate.complete := rfl

theorem exec_xtrRun (s : State) : exec .xtrRun s = .next s.xtrRunAll.complete := rfl

/-! ### One iteration, an equation per case (R187) -/

theorem xtrIterate_of_done {s : State} (h : s.status.xstate = .done) : s.xtrIterate = s := if_pos h

theorem xtrRunAll_of_done {s : State} (h : s.status.xstate = .done) : s.xtrRunAll = s := by
  have hiter := xtrIterate_of_done h
  unfold State.xtrRunAll xtrLoop
  dsimp only
  rw [hiter, if_pos h]

theorem resultsFull_iff (s : State) : s.resultsFull = true ↔ s.resultCount.toNat = s.params.maxResults := beq_iff_eq

/-- The empty stream at START, with room in RESULT (R188). -/
theorem xtrIterate_of_empty {s : State} (hstart : s.status.xstate = .start) (hempty : s.streamLen = 0#32)
    (hroom : s.resultCount.toNat ≠ s.params.maxResults) :
    s.xtrIterate = (s.emit (bareRecord .noMessage)).setXState .done := by
  unfold State.xtrIterate State.noMessage
  rw [if_neg (by rw [hstart]; decide), if_pos ⟨hstart, hempty⟩, if_neg (mt (resultsFull_iff s).mp hroom)]

/-- No byte left, in LOOP or in START with a stream (R195). -/
theorem xtrIterate_of_exhausted {s : State}
    (hstate : s.status.xstate = .loop ∨ s.status.xstate = .start ∧ s.streamLen ≠ 0#32)
    (hleft : s.streamLen.toNat ≤ s.xtrHead.toNat) : s.xtrIterate = s.setXState .done := by
  unfold State.xtrIterate
  rcases hstate with hloop | ⟨hstart, hstream⟩
  · rw [if_neg (by rw [hloop]; decide), if_neg (by rw [hloop]; exact fun h => absurd h.1 (by decide)), if_pos hleft]
  · rw [if_neg (by rw [hstart]; decide), if_neg (fun h => hstream h.2), if_pos hleft]

/-- A record to emit and no room for it (R192). -/
theorem xtrIterate_of_full {s : State} (hstate : s.status.xstate ≠ .done)
    (hfull : s.resultCount.toNat = s.params.maxResults)
    (hrecord : s.xtrHead.toNat < s.streamLen.toNat ∨ s.status.xstate = .start ∧ s.streamLen = 0#32) :
    s.xtrIterate = s.stopFull := by
  have hfull' := (resultsFull_iff s).mpr hfull
  unfold State.xtrIterate State.noMessage
  rw [if_neg hstate]
  by_cases hempty : s.status.xstate = .start ∧ s.streamLen = 0#32
  · rw [if_pos hempty, if_pos hfull']
  · have hleft := hrecord.resolve_right hempty
    rw [if_neg hempty, if_neg (Nat.not_le.mpr hleft), if_pos hfull']

/-- Bytes left and room in RESULT: one frame is peeled, and XSTATE says whether bytes remain. -/
theorem xtrIterate_of_ready {s : State} (h : s.readyToPeel) :
    s.xtrIterate = (s.setXState .loop).peel.setXState
      (if (s.setXState .loop).peel.streamLen.toNat ≤ (s.setXState .loop).peel.xtrHead.toNat then .done
        else (s.setXState .loop).peel.status.xstate) := by
  obtain ⟨_, _, rfl, hiter, _⟩ := xtrIterate_peels h
  rw [hiter, closeIteration_eq]

/-! ### Memory and the frame (R200) -/

/-- Emission changes RESULT[RESULT_COUNT] alone (R192). -/
theorem emit_same (s : State) (rec : Record) :
    MemorySameOutside (fun b k => b = .result ∧ k / 8 = s.resultCount.toNat) s.mem (s.emit rec).mem :=
  memorySame_weaken (result_write_same s.mem s.resultCount.toNat [rec]) fun _ _ ⟨hb, hge, hlt⟩ =>
    ⟨hb, Nat.le_antisymm (Nat.le_of_lt_succ hlt) hge⟩

theorem resultAt_emit (s : State) (rec : Record) : (s.emit rec).mem.resultAt s.resultCount.toNat = rec :=
  (resultAt_write_one s.mem _ _ rec).trans (if_pos rfl)

/-- What the extractor changes of memory is RUNLEN and RESULT. -/
theorem ExtractorSame.mem_eq {s t : State} (h : ExtractorSame s t) :
    t.mem = { s.mem with runlen := t.mem.runlen, result := t.mem.result } := by
  dsimp only
  rw [← h.carrier, ← h.cover, ← h.stream, ← h.epoch]

/-- What leaves all but the extractor alone, and memory outside `stored`, has the frame of an XTR command, also when the
command completes. -/
theorem ExtractorSame.frame {stored : BufId → Nat → Prop} {s t : State} (h : ExtractorSame s t)
    (hmem : MemorySameOutside stored s.mem t.mem) : ExtractorFrame stored s t.complete :=
  ⟨h.units, h.lengths, h.outside, h.errIllegal, h.errBusy, h.errBus, hmem⟩

/-! ### The run queue (R185, R190) -/

theorem frontEntry_of_lt {s : State} (h : s.xtrRunHead.toNat < s.runCount.toNat) :
    s.frontEntry = some (s.mem.runlenAt s.xtrRunHead.toNat).toNat := if_pos h

theorem frontEntry_of_le {s : State} (h : s.runCount.toNat ≤ s.xtrRunHead.toNat) : s.frontEntry = none :=
  if_neg (Nat.not_lt.mpr h)

/-- The bytes dropped by the queue's registers: the front entry clamped to the bytes left, or all of them. -/
theorem dropCount_eq (s : State) (rem : Nat) : s.dropCount rem
    = if s.xtrRunHead.toNat < s.runCount.toNat then min (s.mem.runlenAt s.xtrRunHead.toNat).toNat rem else rem := by
  unfold State.dropCount
  split
  next entry hentry =>
    obtain ⟨hlt, rfl⟩ := frontEntry_some hentry
    rw [if_pos hlt]
  next hnone => rw [if_neg (Nat.not_lt.mpr (frontEntry_none hnone))]

theorem Popped.runHead_of_lt {s t : State} (h : Popped s t) (hlt : s.xtrRunHead.toNat < s.runCount.toNat) :
    t.xtrRunHead.toNat = s.xtrRunHead.toNat + 1 := h.some _ (frontEntry_of_lt hlt)

theorem Popped.runHead_of_le {s t : State} (h : Popped s t) (hle : s.runCount.toNat ≤ s.xtrRunHead.toNat) :
    t.xtrRunHead = s.xtrRunHead := h.none (frontEntry_of_le hle)

theorem Popped.runHead_le {s t : State} (h : Popped s t) : s.xtrRunHead.toNat ≤ t.xtrRunHead.toNat := by
  rcases Nat.lt_or_ge s.xtrRunHead.toNat s.runCount.toNat with hlt | hge
  · rw [h.runHead_of_lt hlt]
    exact Nat.le_succ _
  · rw [h.runHead_of_le hge]

/-! ### An iteration that peels (R187) -/

/-- One record emitted and the head `d` bytes on; XSTATE says whether bytes remain (R192, R195). -/
structure Advanced (s t : State) (rec : Record) (d : Nat) : Prop where
  same : ExtractorSame s t
  result : t.mem.result = s.mem.result.write s.resultCount.toNat [rec]
  resultCount : t.resultCount = s.resultCount + 1#32
  head : t.xtrHead.toNat = s.xtrHead.toNat + d
  errOvf : t.status.errOvf = s.status.errOvf
  xstate : t.status.xstate = if s.streamLen.toNat ≤ s.xtrHead.toNat + d then .done else .loop

/-- What the peel does, the iteration does, when the bytes passed are within those left. -/
theorem Peeled.advanced {s : State} {rec : Record} {d : Nat}
    (h : Peeled (s.setXState .loop) (s.setXState .loop).peel rec d) (hready : s.readyToPeel)
    (hd : d ≤ s.streamLen.toNat - s.xtrHead.toNat) : Advanced s s.xtrIterate rec d := by
  have hsame := xtrIterate_same s
  have hbytes := hready.2.1
  have hbound := s.streamLen.isLt
  have hhead : (s.setXState .loop).peel.xtrHead.toNat = s.xtrHead.toNat + d := by
    rw [h.head, BitVec.toNat_ofNat, setXState_xtrHead]
    exact Nat.mod_eq_of_lt (by omega)
  have hstream : (s.setXState .loop).peel.streamLen = s.streamLen := h.same.lengths.2.1
  rw [xtrIterate_of_ready hready, hstream, hhead, h.status] at hsame ⊢
  exact ⟨hsame, h.result, h.resultCount, hhead, (congrArg Status.errOvf h.status :), rfl⟩

/-- XSTATE is no part of the queue. -/
theorem Popped.of_setXState {s : State} (h : Popped (s.setXState .loop) (s.setXState .loop).peel)
    (hready : s.readyToPeel) : Popped s s.xtrIterate := by
  rw [xtrIterate_of_ready hready]
  exact ⟨h.runlen, h.some, h.none⟩

theorem Decremented.of_setXState {s : State} {c : Nat}
    (h : Decremented (s.setXState .loop) (s.setXState .loop).peel c) (hready : s.readyToPeel) :
    Decremented s s.xtrIterate c := by
  rw [xtrIterate_of_ready hready]
  exact ⟨h.entry, h.runHead⟩

/-- The record of a drop: a protocol mismatch names the dropped range, any other parse is emitted as it is (R191,
R196). -/
def State.droppedRecord (s : State) : Record :=
  if s.nextParse.isKind .protocolMismatch then
    mismatchRecord s.xtrHead.toNat (s.dropCount (s.streamLen.toNat - s.xtrHead.toNat))
  else s.nextParse

theorem isKind_iff (rec : Record) (k : Kind) : rec.isKind k = true ↔ rec.info.extractLsb' 0 2 = k.code := beq_iff_eq

/-- An iteration on a valid frame (R193). -/
theorem xtrIterate_of_valid {s : State} (hready : s.readyToPeel) (hvalid : s.nextParse.checksumValid = true) :
    Advanced s s.xtrIterate s.nextParse s.nextParse.consumed
      ∧ (Popped s s.xtrIterate ∧ (∀ entry, s.frontEntry = some entry → entry ≤ s.nextParse.consumed)
        ∨ Decremented s s.xtrIterate s.nextParse.consumed) := by
  obtain ⟨_, hwithin⟩ := consumed_le hvalid
  rcases peel_cases (s.setXState .loop) with ⟨hkind, _⟩ | ⟨_, _, hpeeled, hqueue⟩ | ⟨_, hinvalid, _⟩
  · have hbare : s.nextParse = bareRecord .protocolMismatch := parseFrame_mismatch hkind
    rw [hbare, bareRecord_checksumValid] at hvalid
    cases hvalid
  · refine ⟨hpeeled.advanced hready hwithin, ?_⟩
    rcases hqueue with ⟨hpopped, hentry⟩ | hdecremented
    · exact .inl ⟨hpopped.of_setXState hready, hentry⟩
    · exact .inr (hdecremented.of_setXState hready)
  · exact absurd (hvalid.symm.trans hinvalid) (by decide)

/-- An iteration on bytes that are no valid frame (R191, R196). -/
theorem xtrIterate_of_invalid {s : State} (hready : s.readyToPeel) (hinvalid : s.nextParse.checksumValid = false) :
    Advanced s s.xtrIterate s.droppedRecord (s.dropCount (s.streamLen.toNat - s.xtrHead.toNat))
      ∧ Popped s s.xtrIterate := by
  have hwithin := dropCount_le s (s.streamLen.toNat - s.xtrHead.toNat)
  rcases peel_cases (s.setXState .loop) with ⟨hkind, hpopped, hpeeled⟩ | ⟨_, hvalid, _⟩ | ⟨hkind, _, hpopped, hpeeled⟩
  · have hrec : s.droppedRecord = mismatchRecord s.xtrHead.toNat _ := if_pos hkind
    rw [hrec]
    exact ⟨hpeeled.advanced hready hwithin, hpopped.of_setXState hready⟩
  · exact absurd (hvalid.symm.trans hinvalid) (by decide)
  · have hrec : s.droppedRecord = s.nextParse := if_neg (Bool.eq_false_iff.mp hkind)
    rw [hrec]
    exact ⟨hpeeled.advanced hready hwithin, hpopped.of_setXState hready⟩

section
variable {s t : State} {rec : Record} {d : Nat}

theorem Advanced.resultAt (h : Advanced s t rec d) : t.mem.resultAt s.resultCount.toNat = rec := by
  rw [h.same.mem_eq, h.result]
  exact resultAt_emit s rec

/-- With the front entry discarded, memory changes in the record emitted alone. -/
theorem Advanced.memory_of_popped (h : Advanced s t rec d) (hpopped : Popped s t) :
    MemorySameOutside (fun b k => b = .result ∧ k / 8 = s.resultCount.toNat) s.mem t.mem := by
  rw [h.same.mem_eq, h.result, hpopped.runlen]
  exact emit_same s rec

/-- With the front entry decremented in place, memory changes in the record emitted and that entry. -/
theorem Advanced.memory_of_decremented {c : Nat} (h : Advanced s t rec d) (hqueue : Decremented s t c) :
    MemorySameOutside (fun b k => b = .result ∧ k / 8 = s.resultCount.toNat ∨ b = .runlen ∧ k = s.xtrRunHead.toNat)
      s.mem t.mem := by
  obtain ⟨entry, _, _, hrunlen⟩ := hqueue.entry
  rw [h.same.mem_eq, h.result, hrunlen]
  have hentry := runlen_write_same (s.emit rec).mem s.xtrRunHead.toNat [BitVec.ofNat 32 (entry - c)]
  refine memorySame_trans (emit_same s rec) (memorySame_weaken hentry fun _ _ ⟨hb, hge, hlt⟩ => ?_)
  exact ⟨hb, Nat.le_antisymm (Nat.le_of_lt_succ hlt) hge⟩

theorem Decremented.runlenAt {c : Nat} (h : Decremented s t c) :
    (t.mem.runlenAt s.xtrRunHead.toNat).toNat = (s.mem.runlenAt s.xtrRunHead.toNat).toNat - c := by
  obtain ⟨entry, hfront, _, hrunlen⟩ := h.entry
  obtain ⟨_, rfl⟩ := frontEntry_some hfront
  have hbound := (s.mem.runlenAt s.xtrRunHead.toNat).isLt
  rw [Memory.runlenAt, hrunlen, at?_write_one, if_pos rfl, Option.getD_some, BitVec.toNat_ofNat]
  exact Nat.mod_eq_of_lt (by omega)

end

/-! ### XTR.STEP after XTR.STEP (R197) -/

section
variable (s : State)

theorem complete_popRun : s.complete.popRun = s.popRun.complete := by
  unfold State.popRun
  rw [apply_ite State.complete]
  rfl

theorem complete_accountFrame (c : Nat) : s.complete.accountFrame c = (s.accountFrame c).complete := by
  have hfront : s.complete.frontEntry = s.frontEntry := rfl
  unfold State.accountFrame
  rw [hfront, complete_popRun]
  cases s.frontEntry with
  | none => rfl
  | some entry =>
    dsimp only
    rw [apply_ite State.complete]
    rfl

theorem complete_peel : s.complete.peel = s.peel.complete := by
  have hpop : ∀ rec, (s.complete.emit rec).popRun = (s.emit rec).popRun.complete := fun rec =>
    complete_popRun (s.emit rec)
  have haccount : ∀ rec c, (s.complete.emit rec).accountFrame c = ((s.emit rec).accountFrame c).complete :=
    fun rec => complete_accountFrame (s.emit rec)
  unfold State.peel State.peelMismatch State.peelValid State.peelInvalid
  simp only [hpop, haccount, apply_ite State.complete]
  rfl

theorem complete_closeIteration : s.complete.closeIteration = s.closeIteration.complete := by
  rw [closeIteration_eq, closeIteration_eq]
  rfl

/-- An iteration neither reads nor writes DONE and PEND, so completing the command before it or after it is the same. -/
theorem complete_xtrIterate : s.complete.xtrIterate = s.xtrIterate.complete := by
  have hpeel : (s.complete.setXState .loop).peel.closeIteration
      = (s.setXState .loop).peel.closeIteration.complete := by
    rw [← complete_closeIteration, ← complete_peel]
    rfl
  unfold State.xtrIterate State.noMessage
  simp only [hpeel, apply_ite State.complete]
  rfl

/-- n + 1 XTR.STEP commands are n + 1 iterations. -/
theorem execAll_xtrSteps (n : Nat) :
    execAll (List.replicate (n + 1) .xtrStep) s = .next (State.xtrIterate^[n + 1] s).complete := by
  have hcomm : Function.Commute State.complete State.xtrIterate := fun s => (complete_xtrIterate s).symm
  induction n generalizing s with
  | zero => rfl
  | succ n ih =>
    rw [List.replicate_succ, execAll_cons (exec_xtrStep s), ih, ← hcomm.iterate_right (n + 1) s.xtrIterate]
    rfl

end

/-- The loop of XTR.RUN is a number of iterations, at least one and at most one more than the measure, and only the last
of them leaves DONE. -/
theorem xtrLoop_eq_iterate {fuel : Nat} {s : State} (hfuel : s.xtrMeasure < fuel) :
    ∃ n ≤ s.xtrMeasure, xtrLoop fuel s = State.xtrIterate^[n + 1] s
      ∧ ∀ m < n, (State.xtrIterate^[m + 1] s).status.xstate ≠ .done := by
  induction fuel generalizing s with
  | zero => omega
  | succ fuel ih =>
    unfold xtrLoop
    dsimp only
    by_cases hdone : s.xtrIterate.status.xstate = .done
    · rw [if_pos hdone]
      exact ⟨0, Nat.zero_le _, rfl, fun m hm => absurd hm (Nat.not_lt_zero m)⟩
    · have hless := xtrIterate_measure hdone
      obtain ⟨n, hn, hloop, hbefore⟩ := ih (s := s.xtrIterate) (by omega)
      rw [if_neg hdone]
      refine ⟨n + 1, by omega, hloop, fun m hm => ?_⟩
      cases m with
      | zero => exact hdone
      | succ m => exact hbefore m (by omega)

/-! ### How far a loop of iterations has come (R198, R200) -/

/-- No head and no count moves back, and memory changes in the records emitted and the run entries passed alone. -/
structure Progress (s t : State) : Prop where
  resultCount : s.resultCount.toNat ≤ t.resultCount.toNat
  runHead : s.xtrRunHead.toNat ≤ t.xtrRunHead.toNat
  head : s.xtrHead.toNat ≤ t.xtrHead.toNat
  memory : MemorySameOutside (fun b k =>
    b = .result ∧ s.resultCount.toNat ≤ k / 8 ∧ k / 8 < t.resultCount.toNat
    ∨ b = .runlen ∧ s.xtrRunHead.toNat ≤ k ∧ k ≤ t.xtrRunHead.toNat) s.mem t.mem

/-- Nothing emitted, nothing passed. -/
theorem progress_of_same {s t : State} (hcount : t.resultCount = s.resultCount) (hrun : t.xtrRunHead = s.xtrRunHead)
    (hhead : t.xtrHead = s.xtrHead) (hmem : t.mem = s.mem) : Progress s t :=
  ⟨by rw [hcount], by rw [hrun], by rw [hhead], by rw [hmem]; exact memorySame_refl _ _⟩

theorem Progress.trans {s t u : State} (h : Progress s t) (g : Progress t u) : Progress s u := by
  have hcount := h.resultCount
  have hcount' := g.resultCount
  have hrun := h.runHead
  have hrun' := g.runHead
  refine ⟨hcount.trans hcount', hrun.trans hrun', h.head.trans g.head,
    memorySame_weaken (memorySame_trans h.memory g.memory) fun b k hstored => ?_⟩
  rcases hstored with (⟨hb, _, _⟩ | ⟨hb, _, _⟩) | (⟨hb, _, _⟩ | ⟨hb, _, _⟩)
  · exact .inl ⟨hb, by omega, by omega⟩
  · exact .inr ⟨hb, by omega, by omega⟩
  · exact .inl ⟨hb, by omega, by omega⟩
  · exact .inr ⟨hb, by omega, by omega⟩

/-- Legal parameters, and heads and count in range: what the register arithmetic of an iteration rests on. -/
structure State.InRange (s : State) : Prop where
  legal : s.params.legal = true
  heads : s.headsInside

theorem State.InRange.xtrIterate {s : State} (h : s.InRange) : s.xtrIterate.InRange :=
  ⟨(xtrIterate_same s).outside.1 ▸ h.legal, xtrIterate_headsInside h.heads⟩

/-- RESULT_COUNT does not wrap: its capacity is far below 2^32 (R6, R53). -/
theorem State.InRange.resultCount_succ {s : State} (h : s.InRange) :
    (s.resultCount + 1#32).toNat = s.resultCount.toNat + 1 := by
  have hcap : 8 * s.params.maxResults ≤ 262144 := windowWords_le h.legal .result
  have hcount := h.heads.2.2
  rw [BitVec.toNat_add]
  exact Nat.mod_eq_of_lt (by simp only [BitVec.toNat_ofNat]; omega)

/-- One record emitted, its index as a number. -/
theorem Advanced.progress {s t : State} {rec : Record} {d : Nat} (h : Advanced s t rec d) (hs : s.InRange)
    (hqueue : Popped s t ∨ ∃ c, Decremented s t c) : Progress s t := by
  have hcount : t.resultCount.toNat = s.resultCount.toNat + 1 := h.resultCount ▸ hs.resultCount_succ
  have hhead : s.xtrHead.toNat ≤ t.xtrHead.toNat := h.head ▸ Nat.le_add_right _ _
  rcases hqueue with hpopped | ⟨c, hdecremented⟩
  · refine ⟨by omega, hpopped.runHead_le, hhead, memorySame_weaken (h.memory_of_popped hpopped) fun b k hstored => ?_⟩
    obtain ⟨hb, hk⟩ := hstored
    exact .inl ⟨hb, by omega, by omega⟩
  · have hrun := hdecremented.runHead
    refine ⟨by omega, by rw [hrun], hhead,
      memorySame_weaken (h.memory_of_decremented hdecremented) fun b k hstored => ?_⟩
    rcases hstored with ⟨hb, hk⟩ | ⟨hb, hk⟩
    · exact .inl ⟨hb, by omega, by omega⟩
    · exact .inr ⟨hb, by omega, by rw [hrun]; omega⟩

/-- Each case of an iteration only moves forward. -/
theorem State.InRange.progress_xtrIterate {s : State} (h : s.InRange) : Progress s s.xtrIterate := by
  rcases xtrIterate_cases s with
    ⟨_, he⟩ | ⟨_, _, _, he⟩ | ⟨_, _, _, he⟩ | ⟨_, _, _, he⟩ | ⟨_, _, _, he⟩ | ⟨hready, _⟩
  · rw [he]
    exact progress_of_same rfl rfl rfl rfl
  · rw [he]
    exact progress_of_same rfl rfl rfl rfl
  · have hcount : s.xtrIterate.resultCount.toNat = s.resultCount.toNat + 1 := by
      rw [he]
      exact h.resultCount_succ
    refine ⟨by omega, by rw [he]; rfl, by rw [he]; rfl, ?_⟩
    have hmem : s.xtrIterate.mem = (s.emit (bareRecord .noMessage)).mem := by rw [he]; rfl
    rw [hmem]
    exact memorySame_weaken (emit_same s _) fun b k ⟨hb, hk⟩ => .inl ⟨hb, by omega, by omega⟩
  · rw [he]
    exact progress_of_same rfl rfl rfl rfl
  · rw [he]
    exact progress_of_same rfl rfl rfl rfl
  · cases hvalid : s.nextParse.checksumValid with
    | true =>
      obtain ⟨hadvanced, hqueue⟩ := xtrIterate_of_valid hready hvalid
      exact hadvanced.progress h (hqueue.imp And.left fun hdecremented => ⟨_, hdecremented⟩)
    | false =>
      obtain ⟨hadvanced, hpopped⟩ := xtrIterate_of_invalid hready hvalid
      exact hadvanced.progress h (.inl hpopped)

theorem State.InRange.xtrRunAll {s : State} (h : s.InRange) : s.xtrRunAll.InRange ∧ Progress s s.xtrRunAll :=
  xtrLoop_induction (motive := fun s t => s.InRange → t.InRange ∧ Progress s t)
    (fun _ hs => ⟨hs, progress_of_same rfl rfl rfl rfl⟩) (fun _ hs => ⟨hs.xtrIterate, hs.progress_xtrIterate⟩)
    (fun _ _ _ hst htu hs =>
      let ⟨ht, hprogress⟩ := hst hs
      ⟨(htu ht).1, hprogress.trans (htu ht).2⟩) _ s h

end Sys2Proof.Machine
end

section
/-! PROOFS. The statements about the extractor (46_extractor.md), each put together from the laws above. -/

namespace Sys2Proof.Machine

/-- Settles O54: the record, the head and XSTATE by what a peel does, the queue by whether the front entry is longer than
the frame. -/
theorem xtrStepPeelsAValidFrame : Obligations.XtrStepPeelsAValidFrame := by
  intro s hready parsed c entry hvalid
  obtain ⟨hadvanced, hqueue⟩ := xtrIterate_of_valid hready hvalid
  refine ⟨_, exec_xtrStep s, ⟨rfl, rfl⟩, hadvanced.resultAt, hadvanced.resultCount, hadvanced.head, hadvanced.errOvf,
    hadvanced.xstate, ?queue⟩
  case queue =>
    rcases hqueue with ⟨hpopped, hentry⟩ | hdecremented
    · have hframe := hadvanced.same.frame (hadvanced.memory_of_popped hpopped)
      exact ⟨fun hlt hc => absurd (hentry _ (frontEntry_of_lt hlt)) (Nat.not_le.mpr hc),
        fun hlt _ => ⟨hpopped.runHead_of_lt hlt, hframe⟩, fun hle => ⟨hpopped.runHead_of_le hle, hframe⟩⟩
    · obtain ⟨front, hfront, hlonger, _⟩ := hdecremented.entry
      obtain ⟨hqueued, rfl⟩ := frontEntry_some hfront
      exact ⟨fun _ _ => ⟨hdecremented.runHead, hdecremented.runlenAt,
          hadvanced.same.frame (hadvanced.memory_of_decremented hdecremented)⟩,
        fun _ hle => absurd hlonger (Nat.not_lt.mpr hle), fun hle => absurd hqueued (Nat.not_lt.mpr hle)⟩

/-- Settles O55: the front entry is discarded, and the record is the parse or the dropped range by its KIND. -/
theorem xtrStepDropsTheFrontRunOtherwise : Obligations.XtrStepDropsTheFrontRunOtherwise := by
  intro s hready parsed left entry d hinvalid
  obtain ⟨hadvanced, hpopped⟩ := xtrIterate_of_invalid hready hinvalid
  have hdrop : s.dropCount left = d := dropCount_eq s left
  rw [show s.streamLen.toNat - s.xtrHead.toNat = left from rfl, hdrop] at hadvanced
  refine ⟨_, exec_xtrStep s, ⟨rfl, rfl⟩, hpopped.runHead_of_lt, hpopped.runHead_of_le, fun hkind => ?mismatch,
    fun hkind => ?parse, hadvanced.resultCount, hadvanced.head, hadvanced.errOvf, hadvanced.xstate,
    hadvanced.same.frame (hadvanced.memory_of_popped hpopped)⟩
  case mismatch =>
    have hrec : s.droppedRecord = mismatchRecord s.xtrHead.toNat (s.dropCount left) :=
      if_pos ((isKind_iff parsed .protocolMismatch).mpr hkind)
    rw [hdrop, mismatchRecord, BitVec.ofNat_toNat, BitVec.setWidth_eq] at hrec
    exact hadvanced.resultAt.trans hrec
  case parse =>
    exact hadvanced.resultAt.trans (if_neg (mt (isKind_iff parsed .protocolMismatch).mp hkind))

/-- Settles O57: XTR.RUN is the loop, the loop is n + 1 iterations, and so are n + 1 XTR.STEP commands. -/
theorem xtrRunIsXtrStepUntilDone : Obligations.XtrRunIsXtrStepUntilDone := by
  intro s
  obtain ⟨n, hn, hloop, hbefore⟩ := xtrLoop_eq_iterate (Nat.lt_succ_self s.xtrMeasure)
  refine ⟨n + 1, _, Nat.le_add_left 1 n, Nat.succ_le_succ hn, ?steps, exec_xtrRun s, xtrRunAll_done s, ?before⟩
  case steps => rw [execAll_xtrSteps, exec_xtrRun, State.xtrRunAll, hloop]
  case before =>
    intro m u hpos hm hu
    obtain ⟨m, rfl⟩ := Nat.exists_eq_add_of_le' hpos
    rw [execAll_xtrSteps, Host.Outcome.next.injEq] at hu
    subst hu
    exact hbefore m (Nat.lt_of_succ_lt_succ hm)

/-- Settles O58, by what every iteration keeps and how far the loop of them comes. -/
theorem xtrRunTouchesOnlyTheExtractor : Obligations.XtrRunTouchesOnlyTheExtractor := by
  intro s hlegal hheads
  obtain ⟨hrange, hprogress⟩ := State.InRange.xtrRunAll ⟨hlegal, hheads⟩
  exact ⟨_, exec_xtrRun s, hrange.heads, hprogress.resultCount, hprogress.runHead, hprogress.head,
    (xtrRunAll_same s).frame hprogress.memory⟩

/-- Settles O51: in DONE an iteration is the identity, and with no byte left it sets XSTATE. -/
theorem xtrWithNothingLeftEmitsNothing : Obligations.XtrWithNothingLeftEmitsNothing := by
  refine fun s => ⟨fun hdone i hi => ?_, fun hstate hleft => ?_⟩
  · rcases List.mem_pair.mp hi with rfl | rfl
    · rw [exec_xtrStep, xtrIterate_of_done hdone]
      rfl
    · rw [exec_xtrRun, xtrRunAll_of_done hdone]
      rfl
  · rw [exec_xtrStep, xtrIterate_of_exhausted hstate hleft]
    rfl

/-- Settles O52: the iteration emits the bare record of KIND NO_MESSAGE and sets XSTATE. -/
theorem xtrStepOnAnEmptyStreamEmitsNoMessage : Obligations.XtrStepOnAnEmptyStreamEmitsNoMessage := by
  intro s hstart hempty hroom
  have hsame := xtrIterate_same s
  rw [xtrIterate_of_empty hstart hempty hroom] at hsame
  rw [exec_xtrStep, xtrIterate_of_empty hstart hempty hroom]
  exact ⟨_, rfl, ⟨rfl, rfl⟩, rfl, rfl, rfl, resultAt_emit s (bareRecord .noMessage), rfl, rfl,
    hsame.frame (emit_same s (bareRecord .noMessage))⟩

/-- Settles O53: the iteration stops with ERR_OVF and XSTATE DONE, and completes. -/
theorem xtrStepOnFullResultsStops : Obligations.XtrStepOnFullResultsStops := by
  intro s hstate hfull hrecord
  rw [exec_xtrStep, xtrIterate_of_full hstate hfull hrecord]
  rfl

/-- Settles O50: the restart of the extractor, completed. -/
theorem xtrResetRestartsTheExtractor : Obligations.XtrResetRestartsTheExtractor := exec_xtrReset

end Sys2Proof.Machine
end

section
/-! SUPPORT. The encoded length (47_reference_encoder.md, R205): its bytes, their number, and what
the length decoder makes of it. -/

namespace Sys2Proof.Machine

/-! ### The groups of 7 bits (R205) -/

/-- Dropping the last group of 7 bits. -/
theorem size_div_128 (n : Nat) : (n / 128).size = n.size - 7 :=
  eq_of_forall_ge_iff fun k => by
    rw [Nat.size_le, Nat.div_lt_iff_lt_mul (by decide), show 128 = 2 ^ 7 from rfl, ← Nat.pow_add, ← Nat.size_le]
    omega

/-- A continuation byte in numbers. -/
theorem continuation_toNat (n : Nat) : (0x80#8 ||| BitVec.ofNat 8 (n % 128)).toNat = 128 + n % 128 := by
  have hgroup : (BitVec.ofNat 8 (n % 128)).toNat = n % 128 := Nat.mod_eq_of_lt (by omega)
  rw [BitVec.toNat_or, hgroup]
  exact (Nat.two_pow_add_eq_or_of_lt (i := 7) (Nat.mod_lt n (by decide)) 1).symm

theorem encodeGroups_zero (fuel : Nat) : encodeGroups fuel 0 = [] := by cases fuel <;> rfl

theorem encodeGroups_pos (fuel : Nat) {n : Nat} (h : n ≠ 0) :
    encodeGroups (fuel + 1) n = encodeGroups fuel (n / 128) ++ [0x80#8 ||| BitVec.ofNat 8 (n % 128)] := if_neg h

/-- With a bound on the groups that `n` fits, there are as many as its bits need. -/
theorem encodeGroups_length {fuel n : Nat} (h : n < 2 ^ fuel) : (encodeGroups fuel n).length = (n.size + 6) / 7 := by
  induction fuel generalizing n with
  | zero =>
    obtain rfl : n = 0 := by omega
    rfl
  | succ fuel ih =>
    by_cases hn : n = 0
    · rw [hn, encodeGroups_zero]
      rfl
    · have hsize : 0 < n.size := Nat.size_pos.mpr (Nat.pos_of_ne_zero hn)
      rw [encodeGroups_pos fuel hn, List.length_append, List.length_singleton, ih (by omega), size_div_128]
      omega

/-- No group above the last one ends a length field. -/
theorem encodeGroups_continue {fuel n : Nat} {b : Byte} (h : b ∈ encodeGroups fuel n) : b.getLsbD 7 = true := by
  induction fuel generalizing n with
  | zero => cases h
  | succ fuel ih =>
    by_cases hn : n = 0
    · rw [hn, encodeGroups_zero] at h
      cases h
    · rw [encodeGroups_pos fuel hn, List.mem_append, List.mem_singleton] at h
      rcases h with h | rfl
      · exact ih h
      · simp

/-- Decoding one group more, when the groups above it have been decoded (R116): nothing is lost below 2^32. -/
theorem decodeLength32_group {bs : List Byte} {b : Byte} {n : Nat} (hn : n < 4294967296)
    (hbs : decodeLength32 bs = (BitVec.ofNat 32 (n / 128), false)) (hb : b.toNat % 128 = n % 128) :
    decodeLength32 (bs ++ [b]) = (BitVec.ofNat 32 n, false) := by
  have hacc : (BitVec.ofNat 32 (n / 128)).toNat = n / 128 := Nat.mod_eq_of_lt (by omega)
  have hkept : vlqLoses (BitVec.ofNat 32 (n / 128)) = false := by
    rw [← Bool.not_eq_true, vlqLoses_iff, hacc]
    omega
  have hshift : vlqShift (BitVec.ofNat 32 (n / 128)) b = BitVec.ofNat 32 n := by
    apply BitVec.eq_of_toNat_eq
    rw [vlqShift_toNat, hacc, hb, BitVec.toNat_ofNat]
    omega
  rw [decodeLength32_concat, hbs, hkept, hshift]
  rfl

theorem decodeLength32_encodeGroups {fuel n : Nat} (hfuel : n < 2 ^ fuel) (hn : n < 4294967296) :
    decodeLength32 (encodeGroups fuel n) = (BitVec.ofNat 32 n, false) := by
  induction fuel generalizing n with
  | zero =>
    obtain rfl : n = 0 := by omega
    rfl
  | succ fuel ih =>
    by_cases hz : n = 0
    · rw [hz, encodeGroups_zero]
      rfl
    · rw [encodeGroups_pos fuel hz]
      refine decodeLength32_group hn (ih (by omega) (by omega)) ?_
      rw [continuation_toNat]
      omega

/-! ### encodeLength (R205) -/

/-- The bound that encodeLength gives its groups is enough. -/
theorem div_128_lt_two_pow (n : Nat) : n / 128 < 2 ^ (n.log2 + 1) :=
  Nat.lt_of_le_of_lt (Nat.div_le_self n 128) Nat.lt_log2_self

theorem encodeLength_length (n : Nat) : (encodeLength n).length = max 1 ((n.size + 6) / 7) := by
  rw [encodeLength, List.length_append, encodeGroups_length (div_128_lt_two_pow n), size_div_128,
    List.length_singleton]
  omega

theorem encodeLength_length_pos (n : Nat) : 1 ≤ (encodeLength n).length := by
  rw [encodeLength_length]
  exact Nat.le_max_left 1 _

/-- Every byte but the last has its continuation bit set. -/
theorem encodeLength_continuation (n : Nat) {k : Nat} (h : k < (encodeLength n).length) :
    (encodeLength n)[k].getLsbD 7 = decide (k + 1 < (encodeLength n).length) := by
  have hlen : (encodeLength n).length = (encodeGroups (n.log2 + 1) (n / 128)).length + 1 := List.length_append
  rcases Nat.lt_or_ge k (encodeGroups (n.log2 + 1) (n / 128)).length with hk | hk
  · have hbyte : (encodeLength n)[k] = (encodeGroups (n.log2 + 1) (n / 128))[k] := List.getElem_append_left hk
    rw [hbyte, encodeGroups_continue (List.getElem_mem hk)]
    exact (decide_eq_true (by omega)).symm
  · have hlast : n % 128 < 2 ^ 7 := Nat.mod_lt n (by decide)
    have hbyte : (encodeLength n)[k] = BitVec.ofNat 8 (n % 128) :=
      (List.getElem_append_right hk).trans (List.getElem_singleton _)
    rw [hbyte, BitVec.getLsbD_ofNat, Nat.testBit_lt_two_pow hlast]
    exact (Bool.and_false _).trans (decide_eq_false (by omega)).symm

theorem decodeLength32_encodeLength {n : Nat} (h : n < 4294967296) :
    decodeLength32 (encodeLength n) = (BitVec.ofNat 32 n, false) := by
  refine decodeLength32_group h (decodeLength32_encodeGroups (div_128_lt_two_pow n) (by omega)) ?_
  rw [BitVec.toNat_ofNat]
  omega

end Sys2Proof.Machine
end

section
/-! SUPPORT. An encoded frame (R206) as the parser reads it: where its parts lie, and the record of its parse. -/

namespace Sys2Proof.Machine

/-! ### Bytes that stand at an offset -/

/-- The bytes `xs` stand in the sequence from offset `o` on. -/
def BytesAt (bytes : Nat → Byte) (o : Nat) (xs : List Byte) : Prop := byteRange bytes o xs.length = xs

theorem byteRange_length (bytes : Nat → Byte) (start count : Nat) : (byteRange bytes start count).length = count := by
  simp [byteRange]

theorem byteRange_add (bytes : Nat → Byte) (start m n : Nat) :
    byteRange bytes start (m + n) = byteRange bytes start m ++ byteRange bytes (start + m) n := by
  simp [byteRange, List.range_add, Nat.add_assoc]

theorem bytesAt_append {bytes : Nat → Byte} {o : Nat} {xs ys : List Byte} :
    BytesAt bytes o (xs ++ ys) ↔ BytesAt bytes o xs ∧ BytesAt bytes (o + xs.length) ys := by
  rw [BytesAt, List.length_append, byteRange_add]
  exact ⟨fun h => List.append_inj h (byteRange_length _ _ _), fun ⟨hxs, hys⟩ => congrArg₂ _ hxs hys⟩

theorem bytesAt_cons {bytes : Nat → Byte} {o : Nat} {x : Byte} {xs : List Byte} :
    BytesAt bytes o (x :: xs) ↔ bytes o = x ∧ BytesAt bytes (o + 1) xs := by
  rw [← List.singleton_append, bytesAt_append]
  simp [BytesAt, byteRange]

/-- Byte by byte. -/
theorem bytesAt_iff_getElem {bytes : Nat → Byte} {o : Nat} {xs : List Byte} :
    BytesAt bytes o xs ↔ ∀ k (h : k < xs.length), bytes (o + k) = xs[k] := by
  rw [BytesAt, List.ext_getElem_iff]
  simp [byteRange]

/-! ### The parts of a frame (R151, R206) -/

/-- An encoded frame with this payload and these flags stands at offset `o`, taken apart as the parser reads it. -/
structure FrameAt (bytes : Nat → Byte) (o : Nat) (payload : List Byte) (flags : Byte) : Prop where
  magic : bytes o = 0x44#8
  version : bytes (o + 1) = 0x00#8
  checksum : BytesAt bytes (o + 2) (bigEndian (crc32 payload))
  flags : bytes (o + 6) = flags
  length : BytesAt bytes (o + 7) (encodeLength payload.length)
  payload : BytesAt bytes (o + (7 + (encodeLength payload.length).length)) payload

theorem encodeFrameBytes_eq {payload : List Byte} (flags : Byte) (h : payload ≠ []) :
    encodeFrameBytes payload flags
      = 0x44#8 :: 0x00#8 :: (bigEndian (crc32 payload) ++ flags :: (encodeLength payload.length ++ payload)) := by
  cases payload with
  | nil => exact absurd rfl h
  | cons b payload => simp [encodeFrameBytes]

theorem encodeFrameBytes_length {payload : List Byte} (flags : Byte) (h : payload ≠ []) :
    (encodeFrameBytes payload flags).length = 7 + (encodeLength payload.length).length + payload.length := by
  rw [encodeFrameBytes_eq flags h]
  simp [bigEndian]
  omega

theorem frameAt_of_bytesAt {bytes : Nat → Byte} {o : Nat} {payload : List Byte} {flags : Byte} (hp : payload ≠ [])
    (h : BytesAt bytes o (encodeFrameBytes payload flags)) : FrameAt bytes o payload flags := by
  rw [encodeFrameBytes_eq flags hp, bytesAt_cons, bytesAt_cons, bytesAt_append, bytesAt_cons, bytesAt_append] at h
  obtain ⟨hmagic, hversion, hchecksum, hflags, hlength, hpayload⟩ := h
  exact ⟨hmagic, hversion, hchecksum, hflags, hlength, by rwa [← Nat.add_assoc]⟩

/-- The big-endian bytes of a word, put together again (R71, R134). -/
theorem word_of_bigEndian (c : Word) :
    (c.extractLsb' 24 8).setWidth 32 <<< 24 ||| (c.extractLsb' 16 8).setWidth 32 <<< 16
      ||| (c.extractLsb' 8 8).setWidth 32 <<< 8 ||| (c.extractLsb' 0 8).setWidth 32 = c := by
  apply BitVec.eq_of_getLsbD_eq
  intro i hi
  interval_cases i <;> simp

/-! ### The parse of a frame (R152 to R161) -/

/-- The record of an encoded frame at offset `o`: valid, with its flags, its checksum and the place of its payload. -/
def encodedRecord (o : Nat) (payload : List Byte) (flags : Byte) : Record where
  info := 4#32
  stored := crc32 payload
  computed := crc32 payload
  dataType := flags.setWidth 32
  length := BitVec.ofNat 32 payload.length
  dataStart := BitVec.ofNat 32 (o + (7 + (encodeLength payload.length).length))
  dataEnd := BitVec.ofNat 32 (o + (7 + (encodeLength payload.length).length + payload.length))
  vlqCount := BitVec.ofNat 32 (encodeLength payload.length).length

section
variable {bytes : Nat → Byte} {o len : Nat} {payload : List Byte} {flags : Byte}

theorem FrameAt.storedChecksum (h : FrameAt bytes o payload flags) {n : Nat} (hn : 7 ≤ n) :
    storedChecksum bytes o n = crc32 payload := by
  have hbyte {j : Nat} (hj : j < 7) : frameByte bytes o n j = bytes (o + j) := if_pos (by omega)
  have hchecksum := h.checksum
  simp only [bigEndian, bytesAt_cons, Nat.add_assoc, Nat.reduceAdd] at hchecksum
  obtain ⟨h2, h3, h4, h5, _⟩ := hchecksum
  simp (disch := omega) only [Machine.storedChecksum, hbyte, h2, h3, h4, h5, word_of_bigEndian]

theorem FrameAt.lengthField (h : FrameAt bytes o payload flags)
    (hlen : o + 7 + (encodeLength payload.length).length ≤ len) :
    lengthField bytes o (len - o) = ((encodeLength payload.length).length, true) := by
  have hpos := encodeLength_length_pos payload.length
  have hbyte {j : Nat} (hj : j < (encodeLength payload.length).length) :
      (bytes (o + 7 + j)).getLsbD 7 = decide (j + 1 < (encodeLength payload.length).length) := by
    rw [bytesAt_iff_getElem.mp h.length j hj, encodeLength_continuation]
  refine lengthField_terminated (by omega) hpos (fun j hj => ?_) ?_
  · exact (hbyte (by omega)).trans (decide_eq_true hj)
  · exact (hbyte (by omega)).trans (decide_eq_false (by omega))

theorem FrameAt.frameLength (h : FrameAt bytes o payload flags)
    (hlen : o + 7 + (encodeLength payload.length).length ≤ len) (hword : payload.length < 4294967296) :
    frameLength bytes o (len - o) = (BitVec.ofNat 32 payload.length, false) := by
  rw [Machine.frameLength, h.lengthField hlen, h.length, decodeLength32_encodeLength hword]

theorem FrameAt.payloadStart (h : FrameAt bytes o payload flags)
    (hlen : o + 7 + (encodeLength payload.length).length ≤ len) :
    payloadStart bytes o (len - o) = 7 + (encodeLength payload.length).length := by
  rw [Machine.payloadStart, h.lengthField hlen]

theorem FrameAt.payloadEnd (h : FrameAt bytes o payload flags)
    (hlen : o + 7 + (encodeLength payload.length).length ≤ len) (hword : payload.length < 4294967296) :
    payloadEnd bytes o (len - o) = 7 + (encodeLength payload.length).length + payload.length := by
  rw [Machine.payloadEnd, h.payloadStart hlen, h.frameLength hlen hword, BitVec.toNat_ofNat, Nat.mod_eq_of_lt hword]

/-- The parse of an encoded frame that lies within the stream. -/
theorem parseFrame_encoded (hp : payload ≠ []) (hbytes : BytesAt bytes o (encodeFrameBytes payload flags))
    (hfit : o + (encodeFrameBytes payload flags).length ≤ len) (hword : len < 4294967296) :
    parseFrame bytes o len = encodedRecord o payload flags := by
  have h := frameAt_of_bytesAt hp hbytes
  rw [encodeFrameBytes_length flags hp] at hfit
  have hlen : o + 7 + (encodeLength payload.length).length ≤ len := by omega
  have hlength := h.frameLength hlen (by omega)
  have hstart := h.payloadStart hlen
  have hend := h.payloadEnd hlen (by omega)
  have hstored := h.storedChecksum (n := len - o) (by omega)
  have hpayload : framePayload bytes o (len - o) = payload := by
    rw [framePayload, hstart, hend, Nat.min_eq_left (by omega), Nat.min_eq_left (by omega), Nat.add_sub_cancel_left]
    exact h.payload
  have htrunc : frameTrunc bytes o (len - o) = false :=
    (frameTrunc_false_iff _ _ _).mpr ⟨by omega, by rw [h.lengthField hlen], by omega⟩
  have hvalid : frameValid bytes o (len - o) = true := by
    simp [frameValid, htrunc, hlength, hpayload, hstored]
  have hflags : frameByte bytes o (len - o) 6 = flags := (if_pos (by omega)).trans h.flags
  rw [parseFrame_of_signature (by omega) h.magic h.version, frameRecord, hvalid, htrunc, hlength, hstored, hpayload,
    hflags, hstart, hend, h.lengthField hlen, infoWord_frame]
  simp [encodedRecord]

end

/-- An encoded frame is consumed whole (R163). -/
theorem encodedRecord_consumed {o : Nat} {payload : List Byte} {flags : Byte} (hp : payload ≠ [])
    (h : (encodeFrameBytes payload flags).length < 4294967296) :
    (encodedRecord o payload flags).consumed = (encodeFrameBytes payload flags).length := by
  rw [encodeFrameBytes_length flags hp] at h ⊢
  simp only [Record.consumed, encodedRecord, BitVec.toNat_ofNat]
  rw [Nat.mod_eq_of_lt (by omega), Nat.mod_eq_of_lt (by omega)]

end Sys2Proof.Machine
end

section
/-! SUPPORT. An encoded message in the carrier (R207): what the scan makes of it, and what SCAN leaves. -/

namespace Sys2Proof.Machine

/-! ### The characters of bytes (R207) -/

section
variable {p : Params}

theorem isAlpha_charFor (h : p.legal = true) (v : Nibble) : isAlpha p (charFor p v) = true := by
  rw [isAlpha, nibbleFor_charFor h]
  rfl

theorem nibbleOf_charFor (h : p.legal = true) (v : Nibble) : nibbleOf p (charFor p v) = v :=
  nibbleOf_of_nibbleFor (nibbleFor_charFor h v)

theorem encodeChars_cons (b : Byte) (bytes : List Byte) :
    encodeChars p (b :: bytes)
      = charFor p (b.extractLsb' 4 4) :: charFor p (b.extractLsb' 0 4) :: encodeChars p bytes := rfl

theorem encodeChars_append (xs ys : List Byte) :
    encodeChars p (xs ++ ys) = encodeChars p xs ++ encodeChars p ys := List.flatMap_append

theorem encodeChars_length (bytes : List Byte) : (encodeChars p bytes).length = 2 * bytes.length := by
  induction bytes with
  | nil => rfl
  | cons b bytes ih =>
    rw [encodeChars_cons, List.length_cons, List.length_cons, List.length_cons, ih]
    omega

theorem isAlpha_of_mem_encodeChars (h : p.legal = true) {bytes : List Byte} {c : CodeUnit}
    (hc : c ∈ encodeChars p bytes) : isAlpha p c = true := by
  obtain ⟨b, _, hb⟩ := List.mem_flatMap.mp hc
  rcases List.mem_pair.mp hb with rfl | rfl
  · exact isAlpha_charFor h _
  · exact isAlpha_charFor h _

/-- The two nibbles of a byte, put together again (R72). -/
theorem byte_of_nibbles (b : Byte) :
    (b.extractLsb' 4 4).setWidth 8 <<< 4 ||| (b.extractLsb' 0 4).setWidth 8 = b := by
  apply BitVec.eq_of_toNat_eq
  rw [toNat_byte_of_nibbles, BitVec.extractLsb'_toNat, BitVec.extractLsb'_toNat, Nat.shiftRight_eq_div_pow,
    Nat.shiftRight_zero]
  omega

/-- Decoding the pairs of units of encoded bytes gives the bytes back. -/
theorem pairBytes_encodeChars (h : p.legal = true) (bytes : List Byte) : pairBytes p (encodeChars p bytes) = bytes := by
  induction bytes with
  | nil => rfl
  | cons b bytes ih =>
    rw [encodeChars_cons, pairBytes, nibbleOf_charFor h, nibbleOf_charFor h, byte_of_nibbles, ih]

/-- Between cover texts, 8 or more encoded bytes are one retained run, and the cover texts join (R170 to R175). -/
theorem scanUnits_encoded (h : p.legal = true) {x y : List CodeUnit} {bytes : List Byte}
    (hx : ∀ c ∈ x, isAlpha p c = false) (hy : ∀ c ∈ y, isAlpha p c = false) (hlen : 8 ≤ bytes.length) :
    scanUnits p (x ++ encodeChars p bytes ++ y) = ⟨x ++ y, bytes, [bytes.length]⟩ := by
  have hunits := encodeChars_length (p := p) bytes
  rw [scanUnits_around p (fun _ => isAlpha_of_mem_encodeChars h) (fun c hc => hx c (List.mem_of_getLast? hc))
      (fun c hc => hy c (List.mem_of_head? hc)), scanUnits_nonAlpha p hx, scanUnits_nonAlpha p hy,
    runOut_retained p (by omega), pairBytes_encodeChars h, hunits, Nat.mul_div_cancel_left _ (by decide)]
  simp only [ScanOut.append, List.nil_append, List.append_nil]

end

/-! ### SCAN on an encoded message (R176, R179) -/

/-- `u` is what SCAN leaves from `s` when it retains one run, of these bytes, and this cover text. -/
structure ScannedOneRun (s u : State) (cover : List CodeUnit) (bytes : List Byte) : Prop where
  params : u.params = s.params
  errOvf : u.status.errOvf = s.status.errOvf
  xstate : u.status.xstate = .start
  streamLen : u.streamLen.toNat = bytes.length
  stream : BytesAt u.mem.streamAt 0 bytes
  runCount : u.runCount = 1#32
  entry : (u.mem.runlenAt 0).toNat = bytes.length
  cover : (List.range u.coverLen.toNat).map u.mem.coverAt = cover
  head : u.xtrHead = 0#32
  runHead : u.xtrRunHead = 0#32
  resultCount : u.resultCount = 0#32

theorem exec_scan_oneRun {s : State} {cover : List CodeUnit} {bytes : List Byte}
    (h : scanUnits s.params s.carrierUnits = ⟨cover, bytes, [bytes.length]⟩) :
    ∃ u, exec .scan s = .next u ∧ ScannedOneRun s u cover bytes := by
  obtain ⟨u, hexec, hcoverLen, hstreamLen, hrunCount, hcover, hstream, hruns, hhead, hrunHead, hresultCount, hstatus, _,
    _, ⟨hparams, _⟩, _⟩ :=
    scanWritesItsThreeOutputs s s.carrierUnits (carrierUnits_length s) fun _ => getElem_carrierUnits s
  simp only [h] at hcoverLen hstreamLen hrunCount hcover hstream hruns
  refine ⟨u, hexec, hparams, by rw [hstatus], by rw [hstatus], hstreamLen, ?stream, BitVec.eq_of_toNat_eq hrunCount,
    hruns 0 Nat.one_pos, ?cover, hhead, hrunHead, hresultCount⟩
  case stream => exact bytesAt_iff_getElem.mpr fun k hk => by rw [Nat.zero_add, hstream k hk]
  case cover => exact List.ext_getElem (by simp [hcoverLen]) fun k _ hk => by simp [hcover k hk]

/-- SCAN on a carrier that holds 8 or more encoded bytes between cover texts. -/
theorem exec_scan_encoded {s : State} {x y : List CodeUnit} {bytes : List Byte} (h : s.params.legal = true)
    (hx : ∀ c ∈ x, isAlpha s.params c = false) (hy : ∀ c ∈ y, isAlpha s.params c = false) (hlen : 8 ≤ bytes.length)
    (hunits : s.carrierUnits = x ++ encodeChars s.params bytes ++ y) :
    ∃ u, exec .scan s = .next u ∧ ScannedOneRun s u (x ++ y) bytes :=
  exec_scan_oneRun (by rw [hunits, scanUnits_encoded h hx hy hlen])

end Sys2Proof.Machine
end

section
/-! SUPPORT. The extraction of encoded frames (R187, R193, R197): XTR.RUN iteration by iteration, an iteration on an
encoded frame, and the two iterations on frames that share one run. -/

namespace Sys2Proof.Machine

/-! ### XTR.RUN iteration by iteration (R197) -/

/-- Any bound above the measure gives the loop of XTR.RUN. -/
theorem xtrLoop_eq_xtrRunAll {fuel : Nat} {s : State} (h : s.xtrMeasure < fuel) : xtrLoop fuel s = s.xtrRunAll := by
  induction fuel, h using Nat.le_induction with
  | base => rfl
  | succ fuel hle ih => rw [xtrLoop_succ (xtrLoop_done hle) (Nat.zero_lt_of_lt hle), ih]

theorem xtrRunAll_of_iterate_done {s : State} (h : s.xtrIterate.status.xstate = .done) : s.xtrRunAll = s.xtrIterate :=
  if_pos h

theorem xtrRunAll_of_iterate_loop {s : State} (h : s.xtrIterate.status.xstate ≠ .done) :
    s.xtrRunAll = s.xtrIterate.xtrRunAll :=
  (if_neg h).trans (xtrLoop_eq_xtrRunAll (xtrIterate_measure h))

/-! ### What the extractor leaves readable -/

section
variable {s t : State}

theorem ExtractorSame.params (h : ExtractorSame s t) : t.params = s.params := by
  obtain ⟨hparams, _, _⟩ := h.outside
  exact hparams

theorem ExtractorSame.readLengths (h : ExtractorSame s t) :
    t.streamLen = s.streamLen ∧ t.coverLen = s.coverLen ∧ t.runCount = s.runCount := by
  obtain ⟨_, hstreamLen, hcoverLen, hrunCount⟩ := h.lengths
  exact ⟨hstreamLen, hcoverLen, hrunCount⟩

theorem ExtractorSame.streamAt (h : ExtractorSame s t) : t.mem.streamAt = s.mem.streamAt := by
  rw [h.mem_eq]
  rfl

theorem ExtractorSame.coverAt (h : ExtractorSame s t) : t.mem.coverAt = s.mem.coverAt := by
  rw [h.mem_eq]
  rfl

theorem Popped.runlenAt (h : Popped s t) (hsame : ExtractorSame s t) : t.mem.runlenAt = s.mem.runlenAt := by
  rw [hsame.mem_eq, h.runlen]
  rfl

/-- The records emitted before stay. -/
theorem Advanced.resultAt_of_ne {rec : Record} {d i : Nat} (h : Advanced s t rec d) (hi : i ≠ s.resultCount.toNat) :
    t.mem.resultAt i = s.mem.resultAt i := by
  rw [h.same.mem_eq, h.result]
  exact (resultAt_write_one s.mem _ i rec).trans (if_neg hi)

end

theorem maxResults_pos {p : Params} (h : p.legal = true) : 1 ≤ p.maxResults := by
  simp only [Params.legal, Bool.and_eq_true] at h
  obtain ⟨⟨_, hpos⟩, _⟩ := h
  exact Nat.le_of_ble_eq_true hpos

/-! ### An iteration on an encoded frame (R193) -/

section
variable {s u : State} {payload : List Byte} {flags : Byte}

theorem eight_lt_encodeFrameBytes_length (flags : Byte) (hp : payload ≠ []) :
    8 < (encodeFrameBytes payload flags).length := by
  have hlength := encodeLength_length_pos payload.length
  have hpayload := List.length_pos_of_ne_nil hp
  rw [encodeFrameBytes_length flags hp]
  omega

theorem encodedRecord_checksumValid (o : Nat) (payload : List Byte) (flags : Byte) :
    (encodedRecord o payload flags).checksumValid = true := by
  show (4#32).getLsbD 2 = true
  decide

/-- An encoded frame at the head is peeled whole, and the front entry is decremented when bytes of its run are left. -/
theorem xtrIterate_of_encoded (hready : s.readyToPeel) (hp : payload ≠ [])
    (hframe : BytesAt s.mem.streamAt s.xtrHead.toNat (encodeFrameBytes payload flags))
    (hfit : s.xtrHead.toNat + (encodeFrameBytes payload flags).length ≤ s.streamLen.toNat) :
    Advanced s s.xtrIterate (encodedRecord s.xtrHead.toNat payload flags) (encodeFrameBytes payload flags).length
      ∧ (Popped s s.xtrIterate
          ∧ (∀ entry, s.frontEntry = some entry → entry ≤ (encodeFrameBytes payload flags).length)
        ∨ Decremented s s.xtrIterate (encodeFrameBytes payload flags).length) := by
  have hword := s.streamLen.isLt
  have hparse : s.nextParse = encodedRecord s.xtrHead.toNat payload flags :=
    parseFrame_encoded hp hframe hfit hword
  have hiterate := xtrIterate_of_valid hready (by rw [hparse, encodedRecord_checksumValid])
  rwa [hparse, encodedRecord_consumed hp (by omega)] at hiterate

/-- RESULT[r] is a valid frame, whose record says where `payload` stands in the stream. -/
structure FrameExtracted (t : State) (r : Nat) (payload : List Byte) : Prop where
  info : (t.mem.resultAt r).info = 4#32
  payload : byteRange t.mem.streamAt (t.mem.resultAt r).dataStart.toNat payload.length = payload

theorem frameExtracted_of_record {t : State} {r o : Nat} (hp : payload ≠ [])
    (hrecord : t.mem.resultAt r = encodedRecord o payload flags)
    (hframe : BytesAt t.mem.streamAt o (encodeFrameBytes payload flags))
    (hfit : o + (encodeFrameBytes payload flags).length < 4294967296) : FrameExtracted t r payload := by
  rw [encodeFrameBytes_length flags hp] at hfit
  have hstart : (encodedRecord o payload flags).dataStart.toNat = o + (7 + (encodeLength payload.length).length) :=
    Nat.mod_eq_of_lt (by omega)
  refine ⟨by rw [hrecord]; rfl, ?_⟩
  rw [hrecord, hstart]
  exact (frameAt_of_bytesAt hp hframe).payload

theorem dataEnd_sub_dataStart {o : Nat} (hp : payload ≠ [])
    (hfit : o + (encodeFrameBytes payload flags).length < 4294967296) :
    (encodedRecord o payload flags).dataEnd.toNat - (encodedRecord o payload flags).dataStart.toNat
      = payload.length := by
  rw [encodeFrameBytes_length flags hp] at hfit
  simp only [encodedRecord, BitVec.toNat_ofNat]
  rw [Nat.mod_eq_of_lt (by omega), Nat.mod_eq_of_lt (by omega)]
  omega

/-! ### The first frame after SCAN -/

theorem ScannedOneRun.readyToPeel {cover : List CodeUnit} {bytes : List Byte} (h : ScannedOneRun s u cover bytes)
    (hlegal : s.params.legal = true) (hbytes : bytes ≠ []) : u.readyToPeel := by
  have hpos := List.length_pos_of_ne_nil hbytes
  have hroom := maxResults_pos hlegal
  refine ⟨by rw [h.xstate]; decide, ?_, ?_⟩
  · rw [h.head, h.streamLen]
    exact hpos
  · rw [h.resultCount, h.params]
    exact Nat.ne_of_lt hroom

/-- After SCAN of a run that begins with an encoded frame, the first iteration peels it; when more of the run follows,
the entry is decremented. -/
theorem ScannedOneRun.xtrIterate {cover : List CodeUnit} {rest : List Byte}
    (h : ScannedOneRun s u cover (encodeFrameBytes payload flags ++ rest)) (hlegal : s.params.legal = true)
    (hp : payload ≠ []) :
    Advanced u u.xtrIterate (encodedRecord 0 payload flags) (encodeFrameBytes payload flags).length
      ∧ (rest ≠ [] → Decremented u u.xtrIterate (encodeFrameBytes payload flags).length) := by
  have hlong := eight_lt_encodeFrameBytes_length flags hp
  have hhead : u.xtrHead.toNat = 0 := by rw [h.head]; rfl
  have hready := h.readyToPeel hlegal (List.append_ne_nil_of_left_ne_nil (List.ne_nil_of_length_pos (by omega)) rest)
  have hiterate := xtrIterate_of_encoded (flags := flags) hready hp
    (by rw [hhead]; exact (bytesAt_append.mp h.stream).1)
    (by rw [hhead, h.streamLen, List.length_append]; omega)
  rw [hhead] at hiterate
  obtain ⟨hadvanced, hqueue⟩ := hiterate
  refine ⟨hadvanced, fun hrest => hqueue.resolve_left fun ⟨_, hentry⟩ => ?_⟩
  have hfront : u.frontEntry = some (u.mem.runlenAt 0).toNat := by
    rw [frontEntry_of_lt (by rw [h.runHead, h.runCount]; decide), h.runHead]
    rfl
  have hle := hentry _ hfront
  rw [h.entry, List.length_append] at hle
  have := List.length_pos_of_ne_nil hrest
  omega

/-- That iteration keeps the parameters and leaves the head behind the frame. -/
theorem ScannedOneRun.xtrIterate_params_head {cover : List CodeUnit} {rest : List Byte}
    (h : ScannedOneRun s u cover (encodeFrameBytes payload flags ++ rest)) (hlegal : s.params.legal = true)
    (hp : payload ≠ []) :
    u.xtrIterate.params = s.params ∧ u.xtrIterate.xtrHead.toNat = (encodeFrameBytes payload flags).length := by
  obtain ⟨hadvanced, _⟩ := h.xtrIterate hlegal hp
  refine ⟨hadvanced.same.params.trans h.params, ?_⟩
  rw [hadvanced.head, h.head]
  exact Nat.zero_add _

/-! ### The second frame of a run (R210) -/

/-- One record has been emitted, and all that is left of the one run is an encoded frame. -/
structure OneFrameLeft (v : State) (payload : List Byte) (flags : Byte) : Prop where
  xstate : v.status.xstate = .loop
  stream : BytesAt v.mem.streamAt v.xtrHead.toNat (encodeFrameBytes payload flags)
  streamLen : v.streamLen.toNat = v.xtrHead.toNat + (encodeFrameBytes payload flags).length
  runCount : v.runCount = 1#32
  runHead : v.xtrRunHead = 0#32
  entry : (v.mem.runlenAt 0).toNat = (encodeFrameBytes payload flags).length
  resultCount : v.resultCount = 1#32

/-- The first of two frames in one run leaves the second. -/
theorem ScannedOneRun.oneFrameLeft {cover : List CodeUnit} {payload' : List Byte} {flags' : Byte}
    (h : ScannedOneRun s u cover (encodeFrameBytes payload flags ++ encodeFrameBytes payload' flags'))
    (hlegal : s.params.legal = true) (hp : payload ≠ []) (hp' : payload' ≠ []) :
    OneFrameLeft u.xtrIterate payload' flags' := by
  have hlong := eight_lt_encodeFrameBytes_length flags' hp'
  obtain ⟨hadvanced, hqueue⟩ := h.xtrIterate hlegal hp
  have hdecremented := hqueue (List.ne_nil_of_length_pos (by omega))
  obtain ⟨hstreamLen, _, hrunCount⟩ := hadvanced.same.readLengths
  obtain ⟨_, hhead⟩ := h.xtrIterate_params_head hlegal hp
  refine ⟨?xstate, ?stream, ?streamLen, ?runCount, ?runHead, ?entry, ?resultCount⟩
  case xstate =>
    rw [hadvanced.xstate, if_neg]
    rw [h.streamLen, h.head, List.length_append, BitVec.toNat_zero]
    omega
  case stream =>
    rw [hadvanced.same.streamAt, hhead]
    have hsecond := (bytesAt_append.mp h.stream).2
    rwa [Nat.zero_add] at hsecond
  case streamLen => rw [hstreamLen, h.streamLen, hhead, List.length_append]
  case runCount => exact hrunCount.trans h.runCount
  case runHead => exact hdecremented.runHead.trans h.runHead
  case entry =>
    have hentry := hdecremented.runlenAt
    rw [h.runHead, BitVec.toNat_zero, h.entry, List.length_append] at hentry
    omega
  case resultCount =>
    rw [hadvanced.resultCount, h.resultCount]
    rfl

/-- With room in RESULT the last frame is peeled, the entry discarded, and XTR.RUN is done (R193). -/
theorem OneFrameLeft.xtrRunAll {v : State} (h : OneFrameLeft v payload flags) (hp : payload ≠ [])
    (hroom : 2 ≤ v.params.maxResults) :
    Advanced v v.xtrRunAll (encodedRecord v.xtrHead.toNat payload flags) (encodeFrameBytes payload flags).length
      ∧ Popped v v.xtrRunAll := by
  have hlong := eight_lt_encodeFrameBytes_length flags hp
  have hstreamLen := h.streamLen
  have hready : v.readyToPeel :=
    ⟨by rw [h.xstate]; decide, by omega, by rw [h.resultCount]; exact Nat.ne_of_lt hroom⟩
  obtain ⟨hadvanced, hqueue⟩ := xtrIterate_of_encoded hready hp h.stream (Nat.le_of_eq hstreamLen.symm)
  have hdone : v.xtrIterate.status.xstate = .done := hadvanced.xstate.trans (if_pos (Nat.le_of_eq hstreamLen))
  rw [xtrRunAll_of_iterate_done hdone]
  refine ⟨hadvanced, ?_⟩
  rcases hqueue with ⟨hpopped, _⟩ | hdecremented
  · exact hpopped
  · obtain ⟨entry, hfront, hlonger, _⟩ := hdecremented.entry
    obtain ⟨_, rfl⟩ := frontEntry_some hfront
    rw [h.runHead] at hlonger
    exact absurd h.entry (Nat.ne_of_gt hlonger)

/-- Without room in RESULT the last frame stops XTR.RUN (R192). -/
theorem OneFrameLeft.xtrRunAll_full {v : State} (h : OneFrameLeft v payload flags) (hp : payload ≠ [])
    (hfull : v.params.maxResults = 1) : v.xtrRunAll = v.stopFull := by
  have hlong := eight_lt_encodeFrameBytes_length flags hp
  have hstreamLen := h.streamLen
  have hiterate : v.xtrIterate = v.stopFull :=
    xtrIterate_of_full (by rw [h.xstate]; decide) (by rw [h.resultCount, hfull]; rfl) (.inl (by omega))
  rw [xtrRunAll_of_iterate_done (by rw [hiterate]; rfl), hiterate]

/-- Whether or not there is room, the entry and the record before stay. -/
theorem OneFrameLeft.xtrRunAll_keeps {v : State} (h : OneFrameLeft v payload flags) (hp : payload ≠ [])
    (hlegal : v.params.legal = true) :
    v.xtrRunAll.mem.runlenAt = v.mem.runlenAt ∧ v.xtrRunAll.mem.resultAt 0 = v.mem.resultAt 0 := by
  rcases Nat.eq_or_lt_of_le (maxResults_pos hlegal) with hfull | hroom
  · rw [h.xtrRunAll_full hp hfull.symm]
    exact ⟨rfl, rfl⟩
  · obtain ⟨hadvanced, hpopped⟩ := h.xtrRunAll hp hroom
    exact ⟨hpopped.runlenAt hadvanced.same, hadvanced.resultAt_of_ne (by rw [h.resultCount]; decide)⟩

end

/-! ### Both frames of a run (R210) -/

section
variable {s u : State} {cover : List CodeUnit} {p1 p2 : List Byte} {f1 f2 : Byte}
  (h : ScannedOneRun s u cover (encodeFrameBytes p1 f1 ++ encodeFrameBytes p2 f2)) (hlegal : s.params.legal = true)
  (hp1 : p1 ≠ []) (hp2 : p2 ≠ [])
include h hlegal hp1 hp2

theorem ScannedOneRun.xtrRunAll_eq : u.xtrRunAll = u.xtrIterate.xtrRunAll :=
  xtrRunAll_of_iterate_loop (by rw [(h.oneFrameLeft hlegal hp1 hp2).xstate]; decide)

/-- The first frame is extracted, and the entry is decremented to the second's length. -/
theorem ScannedOneRun.xtrRunAll_first : FrameExtracted u.xtrRunAll 0 p1
    ∧ (u.xtrRunAll.mem.runlenAt 0).toNat = (encodeFrameBytes p2 f2).length := by
  obtain ⟨hfirst, _⟩ := h.xtrIterate hlegal hp1
  obtain ⟨hparams, _⟩ := h.xtrIterate_params_head hlegal hp1
  have hleft := h.oneFrameLeft hlegal hp1 hp2
  obtain ⟨hentry, hkept⟩ := hleft.xtrRunAll_keeps hp2 (hparams ▸ hlegal)
  have hlength := h.streamLen
  rw [List.length_append] at hlength
  have hword := u.streamLen.isLt
  have hrecord : u.xtrRunAll.mem.resultAt 0 = encodedRecord 0 p1 f1 := by
    have hresult := hfirst.resultAt
    rw [h.resultCount] at hresult
    rw [h.xtrRunAll_eq hlegal hp1 hp2, hkept]
    exact hresult
  refine ⟨frameExtracted_of_record hp1 hrecord ?_ (by omega), ?_⟩
  · rw [(xtrRunAll_same u).streamAt]
    exact (bytesAt_append.mp h.stream).1
  · rw [h.xtrRunAll_eq hlegal hp1 hp2, hentry, hleft.entry]

/-- With room for two records the second frame is extracted and the entry discarded (R193). -/
theorem ScannedOneRun.xtrRunAll_second (hroom : 2 ≤ s.params.maxResults) :
    u.xtrRunAll.resultCount = 2#32 ∧ u.xtrRunAll.xtrRunHead = 1#32 ∧ FrameExtracted u.xtrRunAll 1 p2
      ∧ u.xtrRunAll.status.errOvf = s.status.errOvf := by
  obtain ⟨hfirst, _⟩ := h.xtrIterate hlegal hp1
  obtain ⟨hparams, hhead⟩ := h.xtrIterate_params_head hlegal hp1
  have hleft := h.oneFrameLeft hlegal hp1 hp2
  obtain ⟨hsecond, hpopped⟩ := hleft.xtrRunAll hp2 (by rwa [hparams])
  rw [← h.xtrRunAll_eq hlegal hp1 hp2] at hsecond hpopped
  have hlength := h.streamLen
  rw [List.length_append] at hlength
  have hword := u.streamLen.isLt
  have hrecord : u.xtrRunAll.mem.resultAt 1 = encodedRecord (encodeFrameBytes p1 f1).length p2 f2 := by
    have hresult := hsecond.resultAt
    rw [hleft.resultCount, hhead] at hresult
    exact hresult
  have hrunHead := hpopped.runHead_of_lt (by rw [hleft.runHead, hleft.runCount]; decide)
  rw [hleft.runHead] at hrunHead
  refine ⟨?count, BitVec.eq_of_toNat_eq hrunHead, frameExtracted_of_record hp2 hrecord ?frame (by omega),
    hsecond.errOvf.trans (hfirst.errOvf.trans h.errOvf)⟩
  case count =>
    rw [hsecond.resultCount, hleft.resultCount]
    rfl
  case frame =>
    have hframe := (bytesAt_append.mp h.stream).2
    rwa [Nat.zero_add, ← (xtrRunAll_same u).streamAt] at hframe

/-- With room for one record XTR.RUN stops at the second frame (R192). -/
theorem ScannedOneRun.xtrRunAll_full (hfull : s.params.maxResults = 1) :
    u.xtrRunAll.resultCount = 1#32 ∧ u.xtrRunAll.xtrRunHead = 0#32
      ∧ u.xtrRunAll.xtrHead.toNat = (encodeFrameBytes p1 f1).length ∧ u.xtrRunAll.status.errOvf = true := by
  obtain ⟨hparams, hhead⟩ := h.xtrIterate_params_head hlegal hp1
  have hleft := h.oneFrameLeft hlegal hp1 hp2
  rw [h.xtrRunAll_eq hlegal hp1 hp2, hleft.xtrRunAll_full hp2 (by rwa [hparams])]
  exact ⟨hleft.resultCount, hleft.runHead, hhead, rfl⟩

end

end Sys2Proof.Machine
end

section
/-! PROOFS. The statements about the reference encoder (47_reference_encoder.md), each put together from the laws
above. -/

namespace Sys2Proof.Machine

/-- Settles O34: the number of groups, the continuation bits and the decoding, each by induction on the groups. -/
theorem encodeLengthIsMinimalAndInvertible : Obligations.EncodeLengthIsMinimalAndInvertible := fun n =>
  ⟨encodeLength_length n, fun _ => encodeLength_continuation n, decodeLength32_encodeLength⟩

/-- Settles O59: SCAN retains the frame as one run, and the first iteration of XTR.RUN peels it and is the last. -/
theorem encodedMessageRoundTrips : Obligations.EncodedMessageRoundTrips := by
  intro s payload flags x y hlegal hp hx hy hunits
  have hlong := eight_lt_encodeFrameBytes_length flags hp
  obtain ⟨u, hscan, hu⟩ := exec_scan_encoded hlegal hx hy (Nat.le_of_lt hlong) hunits
  have hfit : 0 + (encodeFrameBytes payload flags).length < 4294967296 := by
    rw [Nat.zero_add, ← hu.streamLen]
    exact u.streamLen.isLt
  obtain ⟨hadvanced, _⟩ := ScannedOneRun.xtrIterate (rest := []) (by rwa [List.append_nil]) hlegal hp
  have hdone : u.xtrIterate.status.xstate = .done := by
    rw [hadvanced.xstate, if_pos (by rw [hu.streamLen]; exact Nat.le_add_left _ _)]
  have hrecord : u.xtrIterate.mem.resultAt 0 = encodedRecord 0 payload flags := by
    have hresult := hadvanced.resultAt
    rwa [hu.resultCount] at hresult
  have hextracted := frameExtracted_of_record hp hrecord (by rw [hadvanced.same.streamAt]; exact hu.stream) hfit
  refine ⟨u.xtrIterate.complete, ?exec, ?count, hextracted.info, ?type, ?size, hextracted.payload, ?cover⟩
  case exec => rw [execAll_cons hscan, execAll_cons (exec_xtrRun u), xtrRunAll_of_iterate_done hdone, execAll_nil]
  case count =>
    rw [complete_resultCount, hadvanced.resultCount, hu.resultCount]
    rfl
  case type =>
    rw [complete_mem, hrecord]
    rfl
  case size => rw [complete_mem, hrecord, dataEnd_sub_dataStart hp hfit]
  case cover =>
    obtain ⟨_, hcoverLen, _⟩ := hadvanced.same.readLengths
    rw [complete_coverLen, complete_mem, hcoverLen, hadvanced.same.coverAt, hu.cover]

/-- Settles O60: SCAN retains both frames as one run, the first iteration leaves the second frame, and the second one
peels it or finds RESULT full. -/
theorem packedFramesDecodeInOrder : Obligations.PackedFramesDecodeInOrder := by
  intro s p1 p2 f1 f2 x y hlegal hp1 hp2 hx hy hunits payload
  have hlong := eight_lt_encodeFrameBytes_length f1 hp1
  rw [List.append_assoc x, ← encodeChars_append] at hunits
  obtain ⟨u, hscan, hu⟩ := exec_scan_encoded hlegal hx hy (by rw [List.length_append]; omega) hunits
  obtain ⟨hfirst, hentry⟩ := hu.xtrRunAll_first hlegal hp1 hp2
  obtain ⟨_, _, hrunCount⟩ := (xtrRunAll_same u).readLengths
  refine ⟨u, u.xtrRunAll.complete, hscan, exec_xtrRun u, hu.runCount, by rw [hu.entry, List.length_append],
    hrunCount.trans hu.runCount, hentry, hfirst.info, hfirst.payload, fun hroom => ?_,
    hu.xtrRunAll_full hlegal hp1 hp2⟩
  obtain ⟨hcount, hrunHead, hsecond, herrOvf⟩ := hu.xtrRunAll_second hlegal hp1 hp2 hroom
  exact ⟨hcount, hrunHead, hsecond.info, hsecond.payload, herrOvf⟩

end Sys2Proof.Machine
end

section
/-! SUPPORT. Errors and progress (60_exceptions.md): the one error bit that a host access can raise, and that a machine
whose PEND holds only a command never stops. -/

namespace Sys2Proof.Machine

/-! ### Progress (R93, R214, R228) -/

/-- PEND is legal exactly when whatever it holds decodes to a command (R22, R93). -/
theorem pendLegal_iff (s : State) : s.pendLegal = true ↔ ∀ w, s.pend = some w → ∃ i, decode w = .ok i := by
  unfold State.pendLegal State.fetch
  cases s.pend with
  | none => simp
  | some w => cases hd : decode w <;> simp [hd]

/-- The engine's turn stops only at a PEND that is not a command: every command completes (R75). -/
theorem engineTurn_progress {s : State} (h : s.pendLegal = true) : ∃ t, engineTurn s = .next t := by
  cases hp : s.pend with
  | none => exact ⟨s, engineTurn_idle hp⟩
  | some w =>
    obtain ⟨i, hd⟩ := (pendLegal_iff s).mp h w hp
    obtain ⟨t, hexec, _⟩ := exec_completes i s
    exact ⟨t.complete, (engineTurn_command hp hd).trans hexec⟩

/-- No access and no reset event stops the machine, and no turn of the engine while PEND is legal. -/
theorem step_progress {s : State} (h : s.pendLegal = true) : ∃ t, step s = .next t := by
  match hi : s.inputs with
  | [] => exact step_nil hi ▸ engineTurn_progress h
  | .access a :: rest => exact ⟨_, step_access hi⟩
  | .engine :: rest => exact step_engine hi ▸ engineTurn_progress (s := { s with inputs := rest }) h
  | .rst :: rest => exact ⟨_, step_rst hi⟩

/-! ### The error bits (R214) -/

/-- The sticky bit of STATUS that belongs to an error. -/
def State.errorBit (s : State) : Err → Bool
  | .illegal => s.status.errIllegal
  | .busy => s.status.errBusy
  | .ovf => s.status.errOvf
  | .bus => s.status.errBus

/-- No error bit but that of `e` is newly 1. -/
abbrev RaisesAtMost (e : Err) (s t : State) : Prop := ∀ e', e' ≠ e → t.errorBit e' = true → s.errorBit e' = true

theorem errorBit_of_status {s t : State} (h : t.status = s.status) (e : Err) : t.errorBit e = s.errorBit e := by
  cases e <;> simp only [State.errorBit, h]

theorem raisesAtMost_of_status {s t : State} (h : t.status = s.status) (e : Err) : RaisesAtMost e s t :=
  fun e' _ ht => (errorBit_of_status h e').symm.trans ht

/-- `raise` sets its own bit and no other. -/
theorem errorBit_raise (s : State) (e e' : Err) : (s.raise e).errorBit e' = (s.errorBit e' || e == e') := by
  cases e <;> cases e' <;> simp [State.errorBit, State.raise]

theorem raise_raisesAtMost (s : State) (e : Err) : RaisesAtMost e s (s.raise e) := by
  intro e' hne ht
  simpa [errorBit_raise, hne.symm] using ht

/-- A write to STATUS clears error bits and sets none (R26). -/
theorem clearStatus_raisesAtMost (s : State) (v : Word) (e : Err) : RaisesAtMost e s (s.clearStatus v) := by
  intro e' _ ht
  cases e' <;> exact (Bool.and_eq_true_iff.mp ht).1

/-! ### What one access can raise (R226) -/

/-- Issue raises ERR_ILLEGAL at most (R93). -/
theorem issue_raisesAtMost (s : State) (w : Word) : RaisesAtMost .illegal s (s.issue w) := by
  cases hd : decode w with
  | ok i => exact raisesAtMost_of_status (by rw [issue_command hd]) _
  | error e =>
    intro e' hne ht
    rw [issue_rejected hd] at ht
    cases e' with
    | illegal => exact absurd rfl hne
    | busy | ovf | bus => exact ht

/-- An accepted write to a register raises an error only where it issues. -/
theorem writeReg_raisesAtMost {s t : State} {r : Reg} {v : Word} (h : s.writeReg r v = some t) :
    RaisesAtMost .illegal s t := by
  rcases writeReg_some h with ⟨_, rfl⟩ | ⟨_, rfl⟩ | ⟨_, rfl⟩ | ⟨_, rfl⟩ | ⟨_, rfl⟩ | ⟨_, _, rfl⟩ | ⟨_, _, rfl⟩
    | ⟨_, _, rfl⟩
  case inl => exact issue_raisesAtMost s v
  case inr.inl => exact clearStatus_raisesAtMost s v _
  all_goals exact raisesAtMost_of_status rfl _

theorem writeElem_status {s t : State} {b : BufId} {k : Nat} {v : Word} (h : s.writeElem b k v = some t) :
    t.status = s.status := by
  rcases writeElem_some h with ⟨_, rfl⟩ | ⟨_, rfl⟩ | ⟨_, rfl⟩ <;> rfl

theorem hostRead_raisesAtMost (s : State) (a : Access) : RaisesAtMost .bus s (s.hostRead a) := by
  rcases hostRead_cases s a with ⟨v, h⟩ | h <;> rw [h]
  · exact raisesAtMost_of_status (reply_status s v) _
  · exact raise_raisesAtMost s .bus

theorem hostWrite_raisesAtMost (s : State) (a : Access) : ∃ e, e ≠ .ovf ∧ RaisesAtMost e s (s.hostWrite a) := by
  rcases hostWrite_cases s a with h | ⟨h, _⟩ | h | ⟨r, _, hw⟩ | ⟨b, k, _, _, hw⟩
  · exact ⟨.bus, nofun, h ▸ raise_raisesAtMost s .bus⟩
  · exact ⟨.busy, nofun, h ▸ raise_raisesAtMost s .busy⟩
  · exact ⟨.bus, nofun, h ▸ clearStatus_raisesAtMost s a.data .bus⟩
  · exact ⟨.illegal, nofun, writeReg_raisesAtMost hw⟩
  · exact ⟨.bus, nofun, raisesAtMost_of_status (writeElem_status hw) _⟩

/-- One access raises at most one error bit, and not ERR_OVF (R217, R226). -/
theorem hostAccess_raisesAtMost (s : State) (a : Access) : ∃ e, e ≠ .ovf ∧ RaisesAtMost e s (s.hostAccess a) := by
  unfold State.hostAccess
  split
  · exact ⟨.bus, nofun, hostRead_raisesAtMost s a⟩
  · exact hostWrite_raisesAtMost s a

end Sys2Proof.Machine
end

section
/-! PROOFS. The statements about errors (60_exceptions.md), each put together from the laws above. -/

namespace Sys2Proof.Machine

/-- Settles O5, by induction on the steps: the invariant keeps PEND legal, so each step answers next, and keeps the
invariant. -/
theorem runsNeverStop : Obligations.RunsNeverStop := by
  intro n
  induction n with
  | zero => exact fun s h => ⟨s, runFor_zero s, h⟩
  | succ n ih =>
    intro s h
    obtain ⟨t, hstep⟩ := step_progress h.pendLegal
    rw [runFor_succ hstep]
    exact ih t (stepKeepsInv s t h hstep)

/-- Settles O16: an aligned write while BUSY = 1, but to STATUS, only raises ERR_BUSY. -/
theorem busyBlockDropsWrites : Obligations.BusyBlockDropsWrites :=
  fun _ _ _ _ hi hbusy haligned hne => step_write_busy hbusy haligned hne hi

/-- Settles O25, by which error bit the access can raise, if any: no other one is newly 1. -/
theorem accessRaisesAtMostOneError : Obligations.AccessRaisesAtMostOneError := by
  intro s t a rest hi hstep
  obtain rfl : { s with inputs := rest }.hostAccess a = t := Host.Outcome.next.inj ((step_access hi).symm.trans hstep)
  obtain ⟨e, hovf, hraises⟩ := hostAccess_raisesAtMost { s with inputs := rest } a
  refine ⟨hraises .ovf hovf.symm, ?_⟩
  cases e with
  | bus => exact .inl ⟨hraises .illegal nofun, hraises .busy nofun⟩
  | busy => exact .inr (.inl ⟨hraises .illegal nofun, hraises .bus nofun⟩)
  | illegal => exact .inr (.inr ⟨hraises .busy nofun, hraises .bus nofun⟩)
  | ovf => exact absurd rfl hovf

end Sys2Proof.Machine
end

section
/-! SUPPORT. Reset and hazards (70_reset_and_hazards.md): what a register reads after a reset does not tell which reset
it was. -/

namespace Sys2Proof.Machine

/-- The capacities alone read a parameter (R44); every other register reads one value after any reset (R52). -/
theorem afterReset_readReg {r : Reg} (hc : r ≠ .capCarrier) (hr : r ≠ .capResults) (p q : Params) (m n : Nat)
    (xs ys : List Event) (us vs : List Word) :
    (State.afterReset p m xs us).readReg r = (State.afterReset q n ys vs).readReg r := by
  cases r with
  | capCarrier => exact absurd rfl hc
  | capResults => exact absurd rfl hr
  | _ => rfl

end Sys2Proof.Machine
end

section
/-! PROOFS. The statement about the reset event (70_reset_and_hazards.md). -/

namespace Sys2Proof.Machine

/-- Settles O2: the step at RST is `State.applyReset`, whatever PEND held, and a reset sets the registers alike. -/
theorem resetEventRestoresEveryRegister : Obligations.ResetEventRestoresEveryRegister := by
  intro s rest hi
  refine ⟨{ s with inputs := rest }.applyReset, step_rst hi, applyReset_pend _, applyReset_status _, ?_,
    applyReset_mem _, applyReset_params _, applyReset_inputs _, applyReset_replies _⟩
  exact fun r hc hr => afterReset_readReg hc hr _ _ _ _ _ _ _ _

end Sys2Proof.Machine
end
